-- ==== Sys2Proof/Word.lean ====
section
/-!
DEFINITION. The value types of the RC6-CORE (spec 00_scope.md R9, R10): bytes, 32-bit words, 16-byte blocks
and byte strings. Only names of core types stand here; the byte-order functions are in Machine/Operands.lean.
-/

namespace Sys2Proof

/-- A u8 (R9). -/
abbrev Byte := BitVec 8

/-- A u32 (R9): a register of the window, an RC6 word, a system-memory address. -/
abbrev Word := BitVec 32

/-- A 16-byte block, held as its numeric value `val(b)` (R10): byte `k` is bits `8k+7 .. 8k`. -/
abbrev Block := BitVec 128

/-- A byte string, lowest address first (R9, R10). -/
abbrev Bytes := List Byte

end Sys2Proof
end

