-- ==== Sys2Proof/Syntax.lean ====
section
/-!
DEFINITION. The commands of the RC6-CORE: one constructor per row of spec/opcode_table.json
(spec 30_encoding.md R96).
-/

namespace Sys2Proof

/-- A command (format F1, R90, R91) with the fields its row leaves free.
`tagLen` is the length L of R92 in bytes; `alg` the primitive code of R94; `dir` the ignored DIR bit of R93. -/
inductive Instr where
  | nop
  | create (compat : Bool) (alg : Nat)
  | setkey
  | destroy
  | encb
  | decb
  | ecbE
  | ecbD
  | cbcE
  | cbcD
  | cfbE
  | cfbD
  | ofb (dir : Bool)
  | ctr (dir : Bool)
  | mgmE (tagLen : Nat)
  | mgmD (tagLen : Nat)
  | cmac (tagLen : Nat)
  | cmackeys
  | gfmul
  | gfdbl
deriving DecidableEq, Repr

end Sys2Proof
end

