-- ==== Sys2Proof/WellFormed.lean ====
section
/-!
DEFINITION. Which command terms have an encoding: the two numeric fields fit their bits
(spec 30_encoding.md R91, R92, R94).
-/

namespace Sys2Proof

/-- TAGLEN is five bits wide, so L is 0 to 31 (R92). -/
def tagLenFits (tagLen : Nat) : Bool := tagLen < 32

/-- ALG is four bits wide, so the code is 0 to 15 (R94). -/
def algFits (alg : Nat) : Bool := alg < 16

/-- A command that some command word encodes. -/
def Instr.wf : Instr → Bool
  | .nop => true
  | .create _ alg => algFits alg
  | .setkey => true
  | .destroy => true
  | .encb => true
  | .decb => true
  | .ecbE => true
  | .ecbD => true
  | .cbcE => true
  | .cbcD => true
  | .cfbE => true
  | .cfbD => true
  | .ofb _ => true
  | .ctr _ => true
  | .mgmE tagLen => tagLenFits tagLen
  | .mgmD tagLen => tagLenFits tagLen
  | .cmac tagLen => tagLenFits tagLen
  | .cmackeys => true
  | .gfmul => true
  | .gfdbl => true

end Sys2Proof
end

