-- ==== Sys2Proof/Decode.lean ====
section
/-!
DEFINITION. The command decoder and, after it, the encoder (spec 30_encoding.md R91 to R98).
-/

namespace Sys2Proof

/-- Why a command word selects no command. -/
inductive DecodeError where
  /-- R97: no row of the opcode map matches the word. COMPLETE then answers IllegalCommand. -/
  | illegalCommand
deriving DecidableEq, Repr

/-- COMPAT, bit 9 (R91). -/
def fieldCompat (w : Word) : Bool := w.getLsbD 9

/-- DIR, bit 8 (R91). -/
def fieldDir (w : Word) : Bool := w.getLsbD 8

/-- TAGLEN, bits 20:16, zero-extended (R92). -/
def fieldTagLen (w : Word) : Nat := (w.extractLsb' 16 5).toNat

/-- ALG, bits 27:24 (R94). -/
def fieldAlg (w : Word) : Nat := (w.extractLsb' 24 4).toNat

/-- One row of the opcode map (R96): a word `w` selects it when `w &&& mask = pattern`. -/
structure OpcodeRow where
  pattern : Word
  mask    : Word
  command : Word → Instr

/-- The opcode map of R96, row by row. -/
def opcodeMap : List OpcodeRow := [
  ⟨0x00000000#32, 0xFFFFFFFF#32, fun _ => .nop⟩,
  ⟨0x00000001#32, 0xF0FFFDFF#32, fun w => .create (fieldCompat w) (fieldAlg w)⟩,
  ⟨0x00000002#32, 0xFFFFFFFF#32, fun _ => .setkey⟩,
  ⟨0x00000003#32, 0xFFFFFFFF#32, fun _ => .destroy⟩,
  ⟨0x00000004#32, 0xFFFFFFFF#32, fun _ => .encb⟩,
  ⟨0x00000005#32, 0xFFFFFFFF#32, fun _ => .decb⟩,
  ⟨0x00000006#32, 0xFFFFFFFF#32, fun _ => .ecbE⟩,
  ⟨0x00000106#32, 0xFFFFFFFF#32, fun _ => .ecbD⟩,
  ⟨0x00000007#32, 0xFFFFFFFF#32, fun _ => .cbcE⟩,
  ⟨0x00000107#32, 0xFFFFFFFF#32, fun _ => .cbcD⟩,
  ⟨0x00000008#32, 0xFFFFFFFF#32, fun _ => .cfbE⟩,
  ⟨0x00000108#32, 0xFFFFFFFF#32, fun _ => .cfbD⟩,
  ⟨0x00000009#32, 0xFFFFFEFF#32, fun w => .ofb (fieldDir w)⟩,
  ⟨0x0000000A#32, 0xFFFFFEFF#32, fun w => .ctr (fieldDir w)⟩,
  ⟨0x0000000B#32, 0xFFE0FFFF#32, fun w => .mgmE (fieldTagLen w)⟩,
  ⟨0x0000010B#32, 0xFFE0FFFF#32, fun w => .mgmD (fieldTagLen w)⟩,
  ⟨0x0000000C#32, 0xFFE0FFFF#32, fun w => .cmac (fieldTagLen w)⟩,
  ⟨0x0000000D#32, 0xFFFFFFFF#32, fun _ => .cmackeys⟩,
  ⟨0x0000000E#32, 0xFFFFFFFF#32, fun _ => .gfmul⟩,
  ⟨0x0000000F#32, 0xFFFFFFFF#32, fun _ => .gfdbl⟩]

/-- Whether a word selects a row (R96). -/
def OpcodeRow.selects (row : OpcodeRow) (w : Word) : Bool := w &&& row.mask == row.pattern

/-- R98: the first row the word selects, with its fields; any other word is illegal (R95, R97). -/
def decode (w : Word) : Except DecodeError Instr :=
  match opcodeMap.find? (·.selects w) with
  | some row => .ok (row.command w)
  | none => .error .illegalCommand

/-- The word whose bits are `w`, of which only the lowest `nbits` are given: what the host's opcode table
numbers. The command word is one register write, so there is no byte order to lay out (R90, R98). -/
def tableWord (nbits w : Nat) : Word := BitVec.ofNat 32 (w % 2 ^ nbits)

/-- The command the decoder reads from the table's word, `none` where it refuses. -/
def decodeTableWord (nbits w : Nat) : Option Instr :=
  match decode (tableWord nbits w) with
  | .ok i => some i
  | .error _ => none

/-- A command word from its fields (R91): `0 | ALG | 0 | TAGLEN | 0 | COMPAT | DIR | OPC`. -/
def commandWord (opc : BitVec 8) (dir compat : Bool) (tagLen alg : Nat) : Word :=
  0#4 ++ BitVec.ofNat 4 alg ++ 0#3 ++ BitVec.ofNat 5 tagLen ++ 0#6 ++ BitVec.ofBool compat ++ BitVec.ofBool dir ++ opc

/-- The command word of a command (R91, R96). -/
def encode : Instr → Word
  | .nop => commandWord 0x00#8 false false 0 0
  | .create compat alg => commandWord 0x01#8 false compat 0 alg
  | .setkey => commandWord 0x02#8 false false 0 0
  | .destroy => commandWord 0x03#8 false false 0 0
  | .encb => commandWord 0x04#8 false false 0 0
  | .decb => commandWord 0x05#8 false false 0 0
  | .ecbE => commandWord 0x06#8 false false 0 0
  | .ecbD => commandWord 0x06#8 true false 0 0
  | .cbcE => commandWord 0x07#8 false false 0 0
  | .cbcD => commandWord 0x07#8 true false 0 0
  | .cfbE => commandWord 0x08#8 false false 0 0
  | .cfbD => commandWord 0x08#8 true false 0 0
  | .ofb dir => commandWord 0x09#8 dir false 0 0
  | .ctr dir => commandWord 0x0A#8 dir false 0 0
  | .mgmE tagLen => commandWord 0x0B#8 false false tagLen 0
  | .mgmD tagLen => commandWord 0x0B#8 true false tagLen 0
  | .cmac tagLen => commandWord 0x0C#8 false false tagLen 0
  | .cmackeys => commandWord 0x0D#8 false false 0 0
  | .gfmul => commandWord 0x0E#8 false false 0 0
  | .gfdbl => commandWord 0x0F#8 false false 0 0

end Sys2Proof
end

