-- ==== Sys2Proof/Config.lean ====
section
/-!
DEFINITION. What an implementation or a platform fixes (spec 00_scope.md R7, 93_implementation_defined.md
U17 to U24), and the free values: constants without a body, so that no proof can see what they are.
-/

namespace Sys2Proof.Config

/-- MGM_COUNTER_DERIVE (R7, 44_mgm.md R242). -/
inductive CounterDerive where
  | direct
  | encrypted
deriving DecidableEq, Repr

/-- MGM_INCREMENT (R7, 44_mgm.md R243). -/
inductive CounterIncrement where
  | full
  | halves
deriving DecidableEq, Repr

/-- MGM_TAG_FINAL (R7, 44_mgm.md R247). -/
inductive TagFinal where
  | encryptAcc
  | xorEncCounter
deriving DecidableEq, Repr

/-- INTEGRITY_FN (R7, 42_key_context.md R171): the default of R171, or another deterministic u32 function of
the key words and the round keys, known only by a number. -/
inductive IntegrityFn where
  | rotateXor
  | other (id : Nat)
deriving DecidableEq, Repr

/-- The parameters of R7, as plain data. CORE_BASE is a multiple of 256, so its upper 24 bits are held.
MEM_ADMITS is held as the list of its inclusive address ranges `(first, last)`. -/
structure Platform where
  /-- CORE_BASE / 256 (R7, R71). -/
  coreBasePage : BitVec 24
  /-- The inclusive ranges of system-memory bytes that exist: MEM_ADMITS (R7, R60, R69). -/
  memMap       : List (Word × Word)
  /-- RESOURCE_MAX (R7, R173). -/
  resourceMax  : Word
  /-- Z_MAX, in blocks (R7, R201). -/
  zMax         : Nat
  /-- ALLOW_UPSET (R7, R45). -/
  allowUpset   : Bool
  mgmDerive    : CounterDerive
  mgmIncrement : CounterIncrement
  mgmFinal     : TagFinal
  /-- MGM_MAX_AD_BYTES (R7, R249). -/
  mgmMaxAd     : Nat
  /-- MGM_MAX_TEXT_BYTES (R7, R249). -/
  mgmMaxText   : Nat
  integrity    : IntegrityFn
deriving DecidableEq, Repr

/-- CORE_BASE / 256: OPEN in the spec (R7, U18). -/
opaque coreBasePage : BitVec 24

/-- MEM_ADMITS: OPEN in the spec (R7, U19). -/
opaque memMap : List (Word × Word)

/-- RESOURCE_MAX - 1: OPEN in the spec, with 1 <= RESOURCE_MAX <= 2^32 - 1 (R7, U17). -/
opaque resourceMaxLessOne : Fin 4294967295

/-- ALLOW_UPSET: OPEN in the spec (R7, U24). -/
opaque allowUpset : Bool

/-- An integrity function other than R171's default (R171, U23: "every deterministic u32 function is allowed"). -/
opaque otherIntegrityFn : Nat → Vector Word 8 → Vector Word 44 → Word

/-- The machine's own parameters: the OPEN ones as the constants above, the others at the defaults of R7. -/
def platform : Platform where
  coreBasePage := coreBasePage
  memMap       := memMap
  resourceMax  := BitVec.ofNat 32 (resourceMaxLessOne.val + 1)
  zMax         := 4
  allowUpset   := allowUpset
  mgmDerive    := .direct
  mgmIncrement := .full
  mgmFinal     := .encryptAcc
  mgmMaxAd     := 4294967295
  mgmMaxText   := 4294967295
  integrity    := .rotateXor

/-- The `n`-th free word: a window read that "returns any value" (R39, U6). Log entry 4. -/
opaque anyWord : Nat → Word

/-- The `n`-th free byte: a racing memory read, a byte left by an abandoned command, an output byte of an upset
command (R45, R341, R352; U2, U7, U8). Log entry 4. -/
opaque anyByte : Nat → Byte

/-- The `n`-th free bit: whether a keyed command with an upset in flight ends OK (R45, U8). Log entry 4. -/
opaque anyBool : Nat → Bool

end Sys2Proof.Config
end

