-- ==== Sys2Proof/Machine/State.lean ====
section
/-!
DEFINITION. The state of the machine as plain data (spec 10_state.md R20 to R48), what the HOST, the ENV and the
platform can do to it (00_scope.md R8), and the state after reset (R48, 70_reset_and_hazards.md R340).
-/

namespace Sys2Proof.Machine

open Sys2Proof.Config

/-- The names of the fourteen result codes (60_exceptions.md R300). Their numbers are in `ErrCode.code`. -/
inductive ErrCode where
  | ok
  | invalidArgument
  | wrongKeyLength
  | keyIntegrityViolation
  | resourceExhausted
  | authenticationFailed
  | allocationFailure
  | unsupportedPrimitive
  | invalidIVLength
  | invalidDataLength
  | associatedDataTooLarge
  | plaintextTooLarge
  | invalidTagLength
  | illegalCommand
deriving DecidableEq, Repr

/-- The sequencer state `seq` (R40). -/
inductive Seq where
  | idle
  | busy
deriving DecidableEq, Repr

/-- The key context `ctx` (R41). -/
structure KeyContext where
  alg    : BitVec 4
  compat : Bool
  keyed  : Bool
  /-- The raw key words K[0..7]. -/
  k      : Vector Word 8
  /-- The round keys S[0..43]. -/
  s      : Vector Word 44
  /-- The stored integrity code IC. -/
  ic     : Word
  /-- The resource counter RES. -/
  res    : Word
deriving DecidableEq, Repr

/-- Four 32-bit registers that hold one block (R37, R38). -/
structure BlockReg where
  w0 : Word
  w1 : Word
  w2 : Word
  w3 : Word
deriving DecidableEq, Repr

/-- The width of a HOST access to the register window (20_memory.md R62, R63). -/
inductive AccessSize where
  | bits8
  | bits16
  | bits32
deriving DecidableEq, Repr

/-- What the HOST can do (R8): read or write the window at an offset from CORE_BASE, read or write one byte of
memory. -/
inductive HostAccess where
  | windowRead (size : AccessSize) (offset : BitVec 8)
  | windowWrite (size : AccessSize) (offset : BitVec 8) (data : Word)
  | memRead (addr : Word)
  | memWrite (addr : Word) (data : Byte)
deriving DecidableEq, Repr

/-- A word of key storage that an ENV upset can replace (R45). -/
inductive KeyCell where
  | key (i : Fin 8)
  | roundKey (i : Fin 44)
  | integrityCode
deriving DecidableEq, Repr

/-- One turn of an agent (R8) or of the platform (R340), in the single global order of R73. -/
inductive Event where
  /-- A HOST access. -/
  | host (access : HostAccess)
  /-- The CORE's turn: COMPLETE, where it is enabled (R40). -/
  | core
  /-- An ENV upset: the cells it replaces, with their new values (R45). -/
  | upset (changes : List (KeyCell × Word))
  /-- The platform's reset (R340). -/
  | reset
deriving DecidableEq, Repr

/-- System memory (R60): the bytes that are not `unlistedByte`, addresses strictly rising. -/
abbrev Memory := List Host.Cell

/-- What a byte of system memory reads as when nothing has written it. DESIGN CHOICE (log entry 1): the spec
gives no initial memory contents. Unsafe. -/
def unlistedByte : Byte := 0

structure State where
  /-- CTRL.IE (R23). -/
  ie      : Bool
  /-- STATUS.DONE (R26). -/
  done    : Bool
  /-- STATUS.WERR (R28). -/
  werr    : Bool
  /-- STATUS.ERR (R32). -/
  err     : ErrCode
  /-- `seq`; STATUS.BUSY reads it (R25, R40). -/
  seq     : Seq
  /-- The latched command word `cur` (R40). -/
  cur     : Word
  src     : Word
  dst     : Word
  len     : Word
  ivaddr  : Word
  ivlen   : Word
  adaddr  : Word
  adlen   : Word
  tagaddr : Word
  /-- DIN0-DIN3 (R37). -/
  din     : BlockReg
  /-- DINB0-DINB3 (R37). -/
  dinb    : BlockReg
  /-- DOUT0-DOUT3 (R38). -/
  dout    : BlockReg
  /-- DOUTB0-DOUTB3 (R38). -/
  doutb   : BlockReg
  /-- The key context (R41). -/
  ctx     : KeyContext
  /-- System memory (R60). -/
  mem     : Memory
  /-- The model's own: the parameters of R7, which no step changes. Log entry 5. -/
  plat    : Platform
  /-- The model's own: the turns still to come, in the global order of R73. Log entry 2. -/
  inputs  : List Event
  /-- The model's own: what the HOST's last read returned. Log entry 3. -/
  rdata   : Word
  /-- The model's own: how many free values have been drawn. Log entry 4. -/
  draws   : Nat
  /-- The model's own: an upset has happened since the ISSUE of the command in flight (R45). Log entry 8. -/
  upset   : Bool
deriving DecidableEq, Repr

/-- Why the machine stops with a fault. Each is safe: a run that reaches one has no meaning and proves nothing. -/
inductive Fault where
  /-- R60, R354, U4: the ISSUE of a command with a buffer that overlaps the register window; also a COMPLETE
  that would access such a buffer. Safe. -/
  | dmaToWindow
  /-- R67, R354, U3: the ISSUE of a command with a written region that overlaps another region other than
  DST = SRC exactly; also a COMPLETE that would access such regions. Safe. -/
  | overlapHazard
  /-- R73, R351, R352, U1: a HOST memory write to a region of the command in flight. Safe. -/
  | dmaRace
  /-- R60: a HOST memory access to a byte that does not exist (MEM_ADMITS is false). Log entry 9. Safe. -/
  | hostAbsentByte
deriving DecidableEq, Repr

/-- Why the machine refuses an instruction. -/
inductive Refusal where
  /-- An instruction without a meaning yet; raised by no arm. Safe. -/
  | notModelled (mnemonic : String)
deriving DecidableEq, Repr

/-- The context right after reset: created, RC6 selected, no key (R48, R170). -/
def KeyContext.reset : KeyContext where
  alg    := 0
  compat := false
  keyed  := false
  k      := Vector.replicate 8 0
  s      := Vector.replicate 44 0
  ic     := 0
  res    := 0

/-- Four zero registers (R48). -/
def BlockReg.zero : BlockReg := ⟨0, 0, 0, 0⟩

/-- The machine right after reset (R48, R340). System memory is the platform's and lists nothing. -/
def State.reset : State where
  ie      := false
  done    := false
  werr    := false
  err     := .ok
  seq     := .idle
  cur     := 0
  src     := 0
  dst     := 0
  len     := 0
  ivaddr  := 0
  ivlen   := 0
  adaddr  := 0
  adlen   := 0
  tagaddr := 0
  din     := .zero
  dinb    := .zero
  dout    := .zero
  doutb   := .zero
  ctx     := .reset
  mem     := []
  plat    := Config.platform
  inputs  := []
  rdata   := 0
  draws   := 0
  upset   := false

end Sys2Proof.Machine
end

