-- ==== Sys2Proof/Machine/Operands.lean ====
section
/-!
DEFINITION. Operand forms: byte order and bit fields (spec 00_scope.md R9, R10, 20_memory.md R64), blocks of a
message (30_encoding.md R100), the buffers of a command (20_memory.md R61, R66, R67), the register map
(10_state.md R21).
-/

namespace Sys2Proof.Machine

open Sys2Proof.Config

/-! ### Words, blocks and byte strings -/

/-- `rotl32(x, s)`: left by `s mod 32` bits (R9, R142). -/
def rotl32 (x : Word) (s : Word) : Word := x.rotateLeft (s.toNat % 32)

/-- `rotr32(x, s)`: right by `s mod 32` bits (R9, R142). -/
def rotr32 (x : Word) (s : Word) : Word := x.rotateRight (s.toNat % 32)

/-- `word(b, i)`: bytes `4i .. 4i+3`, little-endian (R10). -/
def wordOf (b : Block) (i : Nat) : Word := b.extractLsb' (32 * i) 32

/-- `blk32(w0, w1, w2, w3)` (R37). -/
def blk32 (w0 w1 w2 w3 : Word) : Block := w3 ++ w2 ++ w1 ++ w0

/-- Byte `k` of a block (R10). -/
def byteOf (b : Block) (k : Nat) : Byte := b.extractLsb' (8 * k) 8

/-- The sixteen bytes of a block, byte 0 first (R10). -/
def bytesOf (b : Block) : Bytes := (List.range 16).map (byteOf b)

/-- `val(pad0(bs))`: the block of at most sixteen bytes, extended by zero bytes (R10). -/
def blockOf : Bytes → Block
  | [] => 0
  | b :: bs => blockOf bs <<< 8 ||| b.setWidth 128

/-- A 32-bit word from four bytes, the first least significant (R10, R64). -/
def wordOfBytes (bs : Bytes) : Word := (blockOf (bs.take 4)).setWidth 32

/-- Bytewise exclusive-or, as long as the shorter string (R9): `x ^ trunc(s, |x|)` where `x` is the shorter. -/
def xorBytes (x s : Bytes) : Bytes := List.zipWith (· ^^^ ·) x s

/-- `trunc(b, L)`: the first `L` bytes (R10). -/
def trunc (b : Block) (l : Nat) : Bytes := (bytesOf b).take l

/-- `ceil(n / 16)`: how many blocks hold `n` bytes (R100, R176). -/
def blocksFor (n : Nat) : Nat := (n + 15) / 16

/-- The first `n` 16-byte pieces of a string. -/
def pieces : Nat → Bytes → List Bytes
  | 0, _ => []
  | n + 1, bs => bs.take 16 :: pieces n (bs.drop 16)

/-- The blocks of a message: all of 16 bytes but perhaps the last (R100, R200). -/
def messageBlocks (bs : Bytes) : List Bytes := pieces (blocksFor bs.length) bs

/-- The block in four registers (R37). -/
def BlockReg.block (r : BlockReg) : Block := blk32 r.w0 r.w1 r.w2 r.w3

/-- The four registers that hold a block (R37, R38). -/
def blockReg (b : Block) : BlockReg := ⟨wordOf b 0, wordOf b 1, wordOf b 2, wordOf b 3⟩

/-- Register `k` of four. -/
def BlockReg.get (r : BlockReg) (k : Fin 4) : Word :=
  match k with
  | 0 => r.w0
  | 1 => r.w1
  | 2 => r.w2
  | 3 => r.w3

/-- Four registers with register `k` replaced. -/
def BlockReg.set (r : BlockReg) (k : Fin 4) (v : Word) : BlockReg :=
  match k with
  | 0 => { r with w0 := v }
  | 1 => { r with w1 := v }
  | 2 => { r with w2 := v }
  | 3 => { r with w3 := v }

/-! ### Addresses and buffers -/

/-- CORE_BASE (R7): a multiple of 256. -/
def coreBase (p : Platform) : Nat := p.coreBasePage.toNat * 256

/-- Whether an address lies in the register window (R60). -/
def inWindow (p : Platform) (a : Nat) : Bool := coreBase p ≤ a && a < coreBase p + 256

/-- MEM_ADMITS(a): whether byte `a` of system memory exists (R60). -/
def memAdmits (p : Platform) (a : Nat) : Bool :=
  a < 2 ^ 32 && p.memMap.any fun r => r.1.toNat ≤ a && a ≤ r.2.toNat

/-- `region_ok(addr, len)` of R66, with `addr + len` exact. -/
def regionOk (addr : Word) (len : Nat) : Bool :=
  len == 0 || (addr != 0 && addr.toNat + len ≤ 2 ^ 32)

/-- Which buffer of the command a region is (R61). -/
inductive RegionRole where
  | source
  | destination
  | iv
  | associatedData
  | tag
deriving DecidableEq, Repr

/-- A buffer of nonzero length, marked read or written (R67). -/
structure Region where
  role    : RegionRole
  base    : Nat
  len     : Nat
  written : Bool
deriving DecidableEq, Repr

/-- Whether an address lies in a region. -/
def Region.holds (r : Region) (a : Nat) : Bool := r.base ≤ a && a < r.base + r.len

/-- The buffers of a command (R61), also those of length 0. -/
def buffers (i : Instr) (s : State) : List Region :=
  let source : Region := ⟨.source, s.src.toNat, s.len.toNat, false⟩
  let destination : Region := ⟨.destination, s.dst.toNat, s.len.toNat, true⟩
  let iv : Region := ⟨.iv, s.ivaddr.toNat, s.ivlen.toNat, false⟩
  let nonce : Region := ⟨.iv, s.ivaddr.toNat, 16, false⟩
  let ad : Region := ⟨.associatedData, s.adaddr.toNat, s.adlen.toNat, false⟩
  let tag (l : Nat) (written : Bool) : Region := ⟨.tag, s.tagaddr.toNat, l, written⟩
  match i with
  | .nop | .create _ _ | .destroy | .encb | .decb | .cmackeys | .gfmul | .gfdbl => []
  | .setkey => [⟨.source, s.src.toNat, 32, false⟩]
  | .ecbE | .ecbD => [source, destination]
  | .cbcE | .cbcD | .cfbE | .cfbD | .ofb _ | .ctr _ => [source, iv, destination]
  | .mgmE l => [nonce, ad, source, destination, tag l true]
  | .mgmD l => [nonce, ad, source, tag l false, destination]
  | .cmac l => [source, tag l true]

/-- The regions of a command: its buffers of nonzero length (R67). -/
def regions (i : Instr) (s : State) : List Region := (buffers i s).filter (·.len != 0)

/-- The regions the command writes (R61, R67). -/
def writtenRegions (i : Instr) (s : State) : List Region := (regions i s).filter (·.written)

/-- Two regions have no byte in common. -/
def Region.disjoint (a b : Region) : Bool := a.base + a.len ≤ b.base || b.base + b.len ≤ a.base

/-- The one overlap R67 allows: SRC and DST are the same bytes. -/
def Region.inPlace (a b : Region) : Bool :=
  ((a.role == .source && b.role == .destination) || (a.role == .destination && b.role == .source))
    && a.base == b.base && a.len == b.len

/-- Whether two regions of one command may stand together (R67). -/
def Region.compatible (a b : Region) : Bool :=
  (!a.written && !b.written) || a.disjoint b || a.inPlace b

/-- Whether every two regions of a list may stand together (R67). -/
def allCompatible : List Region → Bool
  | [] => true
  | r :: rs => rs.all r.compatible && allCompatible rs

/-- OverlapHazard (R67, R354). -/
def overlapHazard (i : Instr) (s : State) : Bool := !allCompatible (regions i s)

/-- Whether a region overlaps [CORE_BASE, CORE_BASE+256) (R60). -/
def Region.hitsWindow (p : Platform) (r : Region) : Bool :=
  r.base < coreBase p + 256 && coreBase p < r.base + r.len

/-- DmaToWindow (R60, R354). -/
def windowHazard (i : Instr) (s : State) : Bool := (regions i s).any (·.hitsWindow s.plat)

/-- Whether MEM_ADMITS is false of none of the `n` bytes from `a` on (R69). It is a predicate on u32 (R7, U19), so past
2^32 it is not false: a buffer that wraps is R66's. Log entry 6. -/
def bytesAdmitted (p : Platform) : Nat → Nat → Bool
  | _, 0 => true
  | a, n + 1 => (decide (2 ^ 32 ≤ a) || memAdmits p a) && bytesAdmitted p (a + 1) n

/-- Whether MEM_ADMITS is false of no byte of a region (R69). -/
def regionsAdmitted (i : Instr) (s : State) : Bool :=
  (regions i s).all fun r => bytesAdmitted s.plat r.base r.len

/-- The regions of the command in flight: none when idle or when the word is illegal (R67, R97, R351). -/
def regionsInFlight (s : State) : List Region :=
  match s.seq with
  | .idle => []
  | .busy =>
    match decode s.cur with
    | .ok i => regions i s
    | .error _ => []

/-! ### The register map -/

/-- A register of the window (R21). -/
inductive Reg where
  | id
  | ctrl
  | status
  | cmd
  | src
  | dst
  | len
  | ivaddr
  | ivlen
  | adaddr
  | adlen
  | tagaddr
  | resource
  | icode
  | din (k : Fin 4)
  | dinb (k : Fin 4)
  | dout (k : Fin 4)
  | doutb (k : Fin 4)
deriving DecidableEq, Repr

/-- The register map of R21: offsets and names. An offset that is not listed is reserved (R39). -/
def registerMap : List (BitVec 8 × Reg) := [
  (0x00#8, .id), (0x04#8, .ctrl), (0x08#8, .status), (0x0C#8, .cmd),
  (0x10#8, .src), (0x14#8, .dst), (0x18#8, .len), (0x1C#8, .ivaddr),
  (0x20#8, .ivlen), (0x24#8, .adaddr), (0x28#8, .adlen), (0x2C#8, .tagaddr),
  (0x30#8, .resource), (0x34#8, .icode),
  (0x40#8, .din 0), (0x44#8, .din 1), (0x48#8, .din 2), (0x4C#8, .din 3),
  (0x50#8, .dinb 0), (0x54#8, .dinb 1), (0x58#8, .dinb 2), (0x5C#8, .dinb 3),
  (0x60#8, .dout 0), (0x64#8, .dout 1), (0x68#8, .dout 2), (0x6C#8, .dout 3),
  (0x70#8, .doutb 0), (0x74#8, .doutb 1), (0x78#8, .doutb 2), (0x7C#8, .doutb 3)]

/-- The register at an offset from CORE_BASE, `none` where it is reserved (R21, R39). -/
def regAt (offset : BitVec 8) : Option Reg := (registerMap.find? (·.1 == offset)).map (·.2)

/-- Whether an access is a 32-bit access at a multiple of 4 (R62, R63). -/
def wholeRegister (size : AccessSize) (offset : BitVec 8) : Bool :=
  size == .bits32 && offset.toNat % 4 == 0

end Sys2Proof.Machine
end

