-- ==== Sys2Proof/Machine/Flags.lean ====
section
/-!
DEFINITION. STATUS, CTRL and the IRQ line (spec 10_state.md R23 to R32, R47), the result codes and the end of a
command (60_exceptions.md R300, R302, R311).
-/

namespace Sys2Proof.Machine

/-- The numbers of the result codes (R300). -/
def ErrCode.code : ErrCode → BitVec 8
  | .ok => 0x00
  | .invalidArgument => 0x01
  | .wrongKeyLength => 0x02
  | .keyIntegrityViolation => 0x03
  | .resourceExhausted => 0x04
  | .authenticationFailed => 0x05
  | .allocationFailure => 0x06
  | .unsupportedPrimitive => 0x07
  | .invalidIVLength => 0x08
  | .invalidDataLength => 0x09
  | .associatedDataTooLarge => 0x0A
  | .plaintextTooLarge => 0x0B
  | .invalidTagLength => 0x0C
  | .illegalCommand => 0x0D

/-- The layout of STATUS (R24, R31): ALG 19:16, ERR 15:8, COMPAT 4, WERR 3, KEYED 2, DONE 1, BUSY 0. -/
def statusWord (busy done keyed werr compat : Bool) (err : BitVec 8) (alg : BitVec 4) : Word :=
  0#12 ++ alg ++ err ++ 0#3 ++ BitVec.ofBool compat ++ BitVec.ofBool werr ++ BitVec.ofBool keyed
    ++ BitVec.ofBool done ++ BitVec.ofBool busy

/-- STATUS.BUSY (R25). -/
def State.busy (s : State) : Bool := s.seq == .busy

/-- STATUS as it reads while the CORE is idle: every field exact (R24 to R32). -/
def State.status (s : State) : Word :=
  statusWord s.busy s.done s.ctx.keyed s.werr s.ctx.compat s.err.code s.ctx.alg

/-- STATUS as it reads while BUSY: KEYED, COMPAT and ALG are any value, here the bits 2, 4 and 19:16 of the free
word `any`; BUSY, DONE, WERR and ERR are exact (R39, R350). -/
def State.statusBusy (s : State) (any : Word) : Word :=
  statusWord s.busy s.done (any.getLsbD 2) s.werr (any.getLsbD 4) s.err.code (any.extractLsb' 16 4)

/-- The IRQ output: `CTRL.IE & STATUS.DONE`, at every moment (R311). -/
def State.irq (s : State) : Bool := s.ie && s.done

/-- A write to CTRL: only IE is written (R23). -/
def writeCtrl (v : Word) (s : State) : State := { s with ie := v.getLsbD 0 }

/-- A write to STATUS: 1 in bit 1 clears DONE, 1 in bit 3 clears WERR (R24). -/
def writeStatus (v : Word) (s : State) : State :=
  { s with done := s.done && !v.getLsbD 1, werr := s.werr && !v.getLsbD 3 }

/-- `complete(code)` (R302): ERR and DONE are written and the sequencer becomes idle. -/
def complete (code : ErrCode) (s : State) : State :=
  { s with err := code, done := true, seq := .idle, upset := false }

end Sys2Proof.Machine
end

