-- ==== Sys2Proof/Machine/Ops.lean ====
section
/-!
DEFINITION. The operations the commands share: system memory (spec 20_memory.md R60, R65, R68, R70), free values,
how a command ends in an error (60_exceptions.md R302 to R304; the CORE takes no other exception, R313, R314), and
the access to its buffers (20_memory.md R60, R67, R69).
-/

namespace Sys2Proof.Machine

open Sys2Proof.Config

/-! ### System memory -/

/-- One byte of memory (R60). -/
def Memory.read : Memory → Nat → Byte
  | [], _ => unlistedByte
  | (k, v) :: rest, a => if k = a then v else Memory.read rest a

/-- The cells without address `a`. -/
def Memory.erase (m : Memory) (a : Nat) : Memory := m.filter fun c => c.1 != a

/-- The cells with `(a, v)` put before the first higher address. -/
def Memory.insert : Memory → Nat → Byte → Memory
  | [], a, v => [(a, v)]
  | (k, x) :: rest, a, v => if a < k then (a, v) :: (k, x) :: rest else (k, x) :: Memory.insert rest a v

/-- Writing one byte (R70). A byte that reads as unlisted is not listed. -/
def Memory.write (m : Memory) (a : Nat) (v : Byte) : Memory :=
  if v = unlistedByte then m.erase a else (m.erase a).insert a v

/-- `MemRead(a, n)` (R11). -/
def Memory.readBytes (m : Memory) : Nat → Nat → Bytes
  | _, 0 => []
  | a, n + 1 => m.read a :: Memory.readBytes m (a + 1) n

/-- `MemWrite(a, n, v)` with `n = |v|` (R11). -/
def Memory.writeBytes : Memory → Nat → Bytes → Memory
  | m, _, [] => m
  | m, a, b :: bs => Memory.writeBytes (m.write a b) (a + 1) bs

/-- The canonical form: addresses strictly rising and below 2^32, no byte listed that reads as unlisted. -/
def Memory.wf : Memory → Bool
  | [] => true
  | [(a, v)] => a < 2 ^ 32 && v != unlistedByte
  | (a, v) :: (b, w) :: rest => a < b && v != unlistedByte && Memory.wf ((b, w) :: rest)

/-! ### Free values -/

/-- The state after `n` free values have been drawn. -/
def State.drawn (n : Nat) (s : State) : State := { s with draws := s.draws + n }

/-- `n` free bytes, the first at draw `d`. -/
def anyBytes (d n : Nat) : Bytes := (List.range n).map fun k => anyByte (d + k)

/-- `n` bytes of memory from `a` on made any value, as far as they exist; `d` is the next free draw. -/
def freeBytes (p : Platform) : Memory → Nat → Nat → Nat → Memory
  | m, _, _, 0 => m
  | m, a, d, n + 1 => freeBytes p (if memAdmits p a then m.write a (anyByte d) else m) (a + 1) (d + 1) n

/-- The bytes of some regions made any value (R45, R341), and the next free draw. -/
def freeRegions (p : Platform) : Memory → Nat → List Region → Memory × Nat
  | m, d, [] => (m, d)
  | m, d, r :: rs => freeRegions p (freeBytes p m r.base d r.len) (d + r.len) rs

/-! ### Errors -/

/-- `raise <Error>`: the command ends with the code and nothing else changes (R11, R303). -/
def raise (code : ErrCode) (s : State) : State := complete code s

/-- The first check of a list that fails (R304): each entry is a failing condition and its code. -/
def firstError : List (Bool × ErrCode) → Option ErrCode
  | [] => none
  | (fails, code) :: rest => if fails then some code else firstError rest

/-! ### Access to the buffers -/

/-- COMPLETE of a command, where `t` is the state it would leave: where MEM_ADMITS is false of some byte of a region,
COMPLETE is not enabled and nothing changes: the CORE is stuck, BUSY stays 1 (R69). -/
def unlessStuck (i : Instr) (s t : State) : State := if regionsAdmitted i s then t else s

/-- COMPLETE of a command that reaches its buffers. A buffer in the window or an overlap has no meaning (R60, R67). -/
def accessBuffers (i : Instr) (s : State) (run : State → State) : Host.Outcome State Fault Refusal :=
  if windowHazard i s then .fault .dmaToWindow
  else if overlapHazard i s then .fault .overlapHazard
  else .next (unlessStuck i s (run s))

/-- A command from its argument checks on (R12, R304): the first failing check raises its error, else the buffers are
reached. Neither happens where the CORE is stuck: a malformed command gets no result there either (R69). -/
def checked (i : Instr) (checks : List (Bool × ErrCode)) (run : State → State) (s : State) :
    Host.Outcome State Fault Refusal :=
  match firstError checks with
  | some code => .next (unlessStuck i s (raise code s))
  | none => accessBuffers i s run

/-- COMPLETE of a word that decodes to no command (R97). -/
def completeIllegal (s : State) : Host.Outcome State Fault Refusal := .next (raise .illegalCommand s)

/-- All the bytes a command stores, in order. -/
def storeAll (m : Memory) (stores : List (Nat × Bytes)) : Memory :=
  stores.foldl (fun m st => m.writeBytes st.1 st.2) m

end Sys2Proof.Machine
end

