-- ==== Sys2Proof/Machine/Field.lean ====
section
/-!
DEFINITION. The field unit GF(2^128) and the commands GFMUL and GFDBL (spec 40_field.md R120 to R126).
-/

namespace Sys2Proof.Machine

/-- RED, the reduction constant x^7 + x^2 + x + 1 (R120). -/
def fieldRed : Block := 0x87

/-- Field doubling (R122). -/
def dbl (v : Block) : Block :=
  if v.getLsbD 127 then (v <<< 1) ^^^ fieldRed else v <<< 1

/-- The loop of R123 over the bits `i, i+1, ..` of `b`, `n` of them, with the doubled factor `a` and the sum `r`. -/
def gfmulLoop (b : Block) : Nat → Nat → Block → Block → Block
  | 0, _, _, r => r
  | n + 1, i, a, r => gfmulLoop b n (i + 1) (dbl a) (if b.getLsbD i then r ^^^ a else r)

/-- Field multiplication (R123). -/
def gfmul (a b : Block) : Block := gfmulLoop b 128 0 a 0

/-- GFMUL (R124). -/
def execGfmul (s : State) : Host.Outcome State Fault Refusal :=
  .next (complete .ok { s with dout := blockReg (gfmul s.din.block s.dinb.block) })

/-- GFDBL (R125). -/
def execGfdbl (s : State) : Host.Outcome State Fault Refusal :=
  .next (complete .ok { s with dout := blockReg (dbl s.din.block) })

end Sys2Proof.Machine
end

