-- ==== Sys2Proof/Machine/Rc6.lean ====
section
/-!
DEFINITION. The block primitive RC6-32/20/32 (spec 41_rc6.md R140 to R148): key schedule, encryption, decryption.
-/

namespace Sys2Proof.Machine

/-- P32 (R140). -/
def magicP : Word := 0xB7E15163

/-- Q32 (R140). -/
def magicQ : Word := 0x9E3779B9

/-- `g(x) = rotl32(x * (2*x + 1), 5)` (R142). -/
def rc6G (x : Word) : Word := rotl32 (x * (2 * x + 1)) 5

/-- Round key `S[i]` (R141). -/
def roundKey (s : Vector Word 44) (i : Nat) : Word := s.toArray.getD i 0

/-- Key word `K[i]`, also of the scratch copy `L` (R143). -/
def keyWord (k : Vector Word 8) (i : Nat) : Word := k.toArray.getD i 0

/-- The variables of the mixing loop (R143). -/
structure MixState where
  s : Vector Word 44
  l : Vector Word 8
  a : Word
  b : Word
  i : Nat
  j : Nat
deriving DecidableEq, Repr

/-- `S[i]` before the mixing: `S[0] = P32`, `S[i] = S[i-1] + Q32` (R143). -/
def initialRoundKey : Nat → Word
  | 0 => magicP
  | i + 1 => initialRoundKey i + magicQ

/-- S before the mixing (R143). -/
def initialRoundKeys : Vector Word 44 := Vector.ofFn fun i => initialRoundKey i.val

/-- One of the 132 mixing steps (R143). -/
def mixStep (m : MixState) : MixState :=
  let a := rotl32 (roundKey m.s m.i + m.a + m.b) 3
  let b := rotl32 (keyWord m.l m.j + a + m.b) (a + m.b)
  { s := m.s.setIfInBounds m.i a
    l := m.l.setIfInBounds m.j b
    a := a
    b := b
    i := (m.i + 1) % 44
    j := (m.j + 1) % 8 }

/-- `n` mixing steps. -/
def mixSteps : Nat → MixState → MixState
  | 0, m => m
  | n + 1, m => mixSteps n (mixStep m)

/-- `RC6_schedule(K)` (R143). -/
def rc6Schedule (k : Vector Word 8) : Vector Word 44 :=
  (mixSteps 132 { s := initialRoundKeys, l := k, a := 0, b := 0, i := 0, j := 0 }).s

/-- The four words of the datapath (R145). -/
structure Quad where
  a : Word
  b : Word
  c : Word
  d : Word
deriving DecidableEq, Repr

/-- A block as its four words (R145). -/
def Quad.ofBlock (b : Block) : Quad := ⟨wordOf b 0, wordOf b 1, wordOf b 2, wordOf b 3⟩

/-- Four words as a block (R145). -/
def Quad.toBlock (q : Quad) : Block := blk32 q.a q.b q.c q.d

/-- Round `i` of the encryption (R145). -/
def encryptRound (s : Vector Word 44) (q : Quad) (i : Nat) : Quad :=
  let t := rc6G q.b
  let u := rc6G q.d
  ⟨q.b, rotl32 (q.c ^^^ u) t + roundKey s (2 * i + 1), q.d, rotl32 (q.a ^^^ t) u + roundKey s (2 * i)⟩

/-- Round `i` of the decryption (R146). -/
def decryptRound (s : Vector Word 44) (q : Quad) (i : Nat) : Quad :=
  let u := rc6G q.c
  let t := rc6G q.a
  ⟨rotr32 (q.d - roundKey s (2 * i)) u ^^^ t, q.a, rotr32 (q.b - roundKey s (2 * i + 1)) t ^^^ u, q.c⟩

/-- The rounds 1 to 20 (R145). -/
def rounds : List Nat := List.range' 1 20

/-- `RC6_encrypt(S, b)` (R145). -/
def rc6Encrypt (s : Vector Word 44) (blk : Block) : Block :=
  let p := Quad.ofBlock blk
  let w : Quad := { p with b := p.b + roundKey s 0, d := p.d + roundKey s 1 }
  let q := rounds.foldl (encryptRound s) w
  Quad.toBlock { q with a := q.a + roundKey s 42, c := q.c + roundKey s 43 }

/-- `RC6_decrypt(S, b)` (R146). -/
def rc6Decrypt (s : Vector Word 44) (blk : Block) : Block :=
  let p := Quad.ofBlock blk
  let w : Quad := { p with c := p.c - roundKey s 43, a := p.a - roundKey s 42 }
  let q := rounds.reverse.foldl (decryptRound s) w
  Quad.toBlock { q with d := q.d - roundKey s 1, b := q.b - roundKey s 0 }

end Sys2Proof.Machine
end

