-- ==== Sys2Proof/Machine/KeyContext.lean ====
section
/-!
DEFINITION. The key context: integrity verifier, resource counter, the prologue and the end of every keyed command,
and the commands NOP, CREATE, SETKEY, DESTROY, ENCB, DECB (spec 42_key_context.md R170 to R186,
10_state.md R45).
-/

namespace Sys2Proof.Machine

open Sys2Proof.Config

/-! ### Integrity verifier and resource counter -/

/-- The loop of R171 over the words `W[j], W[j+1], ..`. -/
def integrityLoop : Nat → Word → List Word → Word
  | _, ic, [] => ic
  | j, ic, w :: ws => integrityLoop (j + 1) (rotl32 ic 7 ^^^ (w + BitVec.ofNat 32 j)) ws

/-- INTEGRITY_FN's default (R171). -/
def integrityDefault (k : Vector Word 8) (s : Vector Word 44) : Word := integrityLoop 0 0 (k.toList ++ s.toList)

/-- `INTEGRITY_FN(K, S)` (R171). -/
def integrityCode (p : Platform) (k : Vector Word 8) (s : Vector Word 44) : Word :=
  match p.integrity with
  | .rotateXor => integrityDefault k s
  | .other id => otherIntegrityFn id k s

/-- `key_ok()` (R172). -/
def keyOk (s : State) : Bool := s.ctx.keyed && integrityCode s.plat s.ctx.k s.ctx.s == s.ctx.ic

/-- `wipe()` (R177): ALG and COMPAT stay. -/
def KeyContext.wipe (c : KeyContext) : KeyContext :=
  { c with k := Vector.replicate 8 0, s := Vector.replicate 44 0, ic := 0, res := 0, keyed := false }

/-! ### Keyed commands -/

/-- What a keyed command computes: the bytes it stores, what it writes to DOUT and DOUTB, and whether a tag it
compares matches (true where it compares none). -/
structure Product where
  stores   : List (Nat × Bytes)
  dout     : Option Block
  doutb    : Option Block
  verified : Bool
deriving DecidableEq, Repr

/-- The register DOUT or DOUTB after a command that may write it. -/
def written (r : BlockReg) : Option Block → BlockReg
  | some b => blockReg b
  | none => r

/-- `ctx.RES <- ctx.RES - n` (R174). -/
def State.consumed (n : Nat) (s : State) : State :=
  { s with ctx := { s.ctx with res := s.ctx.res - BitVec.ofNat 32 n } }

/-- The outputs of a product, written. -/
def State.produced (p : Product) (s : State) : State :=
  { s with mem := storeAll s.mem p.stores, dout := written s.dout p.dout, doutb := written s.doutb p.doutb }

/-- The end of a keyed command whose prologue has passed (R174): `n` invocations are consumed on both outcomes;
the outputs are written only where the tag matches, else the command ends with AuthenticationFailed (R251). -/
def commit (n : Nat) (p : Product) (s : State) : State :=
  if p.verified then complete .ok ((s.consumed n).produced p)
  else complete .authenticationFailed (s.consumed n)

/-- The keyed prologue and the command after it (R174): integrity first, then resource. -/
def keyedPrologue (n : Nat) (p : State → Product) (s : State) : State :=
  if !keyOk s then raise .keyIntegrityViolation s
  else if s.ctx.res.toNat < n then raise .resourceExhausted s
  else commit n (p s) s

/-- Every byte a command can write is any value (R45): its written regions (R61), and DOUT and DOUTB where the product
of the command has them. -/
def State.scrambled (i : Instr) (p : Product) (s : State) : State :=
  let r := freeRegions s.plat s.mem s.draws (writtenRegions i s)
  { s with
    mem := r.1
    dout := written s.dout (p.dout.map fun _ => blockOf (anyBytes r.2 16))
    doutb := written s.doutb (p.doutb.map fun _ => blockOf (anyBytes (r.2 + 16) 16))
    draws := r.2 + 32 }

/-- `n` invocations consumed where the counter covers them; else it stays, since it never wraps (R173). -/
def State.consumedIfCovered (n : Nat) (s : State) : State :=
  { s with ctx := { s.ctx with
      res := if s.ctx.res.toNat < n then s.ctx.res else s.ctx.res - BitVec.ofNat 32 n } }

/-- A keyed command with an ENV upset between its ISSUE and its COMPLETE (R45, U8): its ERR is OK or
KeyIntegrityViolation, any of the two, whatever its checks would say; with OK every byte it writes is any value.
Log entry 8. -/
def keyedAfterUpset (i : Instr) (n : Nat) (p : State → Product) (s : State) : State :=
  let s1 := s.drawn 1
  if anyBool s.draws then complete .ok ((s1.consumedIfCovered n).scrambled i (p s))
  else raise .keyIntegrityViolation s1

/-- A keyed command (R175): argument checks, buffers, prologue, `n` invocations, product; with an upset in flight, R45
says how it ends. -/
def keyedCommand (i : Instr) (checks : List (Bool × ErrCode)) (n : Nat) (p : State → Product) (s : State) :
    Host.Outcome State Fault Refusal :=
  if s.upset then accessBuffers i s (keyedAfterUpset i n p) else checked i checks (keyedPrologue n p) s

/-! ### Commands -/

/-- NOP (R180). -/
def execNop (s : State) : Host.Outcome State Fault Refusal := .next (complete .ok s)

/-- CREATE (R181). -/
def execCreate (compat : Bool) (alg : Nat) (s : State) : Host.Outcome State Fault Refusal :=
  match firstError [(alg != 0, .unsupportedPrimitive)] with
  | some code => .next (raise code s)
  | none => .next (complete .ok { s with ctx := { s.ctx.wipe with alg := BitVec.ofNat 4 alg, compat := compat } })

/-- `K[i] = word(key, i)` of a 32-byte key (R100, R182). -/
def keyWords (key : Bytes) : Vector Word 8 := Vector.ofFn fun i => wordOfBytes (key.drop (4 * i.val))

/-- The context with a new key (R182). -/
def KeyContext.load (p : Platform) (k : Vector Word 8) (c : KeyContext) : KeyContext :=
  { c with k := k, s := rc6Schedule k, ic := integrityCode p k (rc6Schedule k), res := p.resourceMax, keyed := true }

/-- SETKEY (R182). It is not keyed, so an upset in flight does not bear on it. -/
def execSetkey (s : State) : Host.Outcome State Fault Refusal :=
  checked .setkey [(s.len != 32, .wrongKeyLength), (!regionOk s.src 32, .invalidArgument)]
    (fun s => complete .ok { s with ctx := s.ctx.load s.plat (keyWords (s.mem.readBytes s.src.toNat 32)) }) s

/-- DESTROY (R183). -/
def execDestroy (s : State) : Host.Outcome State Fault Refusal :=
  .next (complete .ok { s with ctx := s.ctx.wipe })

/-- ENCB (R184). -/
def execEncb (s : State) : Host.Outcome State Fault Refusal :=
  keyedCommand .encb [] 1 (fun s => ⟨[], some (rc6Encrypt s.ctx.s s.din.block), none, true⟩) s

/-- DECB (R185). -/
def execDecb (s : State) : Host.Outcome State Fault Refusal :=
  keyedCommand .decb [] 1 (fun s => ⟨[], some (rc6Decrypt s.ctx.s s.din.block), none, true⟩) s

end Sys2Proof.Machine
end

