-- ==== Sys2Proof/Machine/Modes.lean ====
section
/-!
DEFINITION. The chaining modes ECB, CBC, CFB, OFB, CTR (spec 43_modes.md R200 to R223).
-/

namespace Sys2Proof.Machine

/-! ### Check sequences (R202) -/

/-- Steps 4 and 5 of R202: the zero length, then the buffers; `iv` is the IV's check. -/
def dataChecks (s : State) : List (Bool × ErrCode) :=
  [(s.len == 0, .invalidArgument), (!regionOk s.src s.len.toNat, .invalidArgument),
   (!regionOk s.dst s.len.toNat, .invalidArgument)]

/-- The IV buffer of step 5 of R202. -/
def ivBufferCheck (s : State) : List (Bool × ErrCode) :=
  [(!regionOk s.ivaddr s.ivlen.toNat, .invalidArgument)]

/-- The checks of R201 on a multi-block IV. -/
def multiBlockIvChecks (s : State) : List (Bool × ErrCode) :=
  [(s.ivlen == 0 || s.ivlen.toNat % 16 != 0, .invalidIVLength),
   (decide (s.plat.zMax < s.ivlen.toNat / 16), .allocationFailure)]

/-- The check of R220 on the CTR IV. -/
def ctrIvChecks (s : State) : List (Bool × ErrCode) := [(s.ivlen != 8, .invalidIVLength)]

/-- Step 3 of R202: a whole number of blocks. -/
def wholeBlocksCheck (s : State) : List (Bool × ErrCode) := [(s.len.toNat % 16 != 0, .invalidDataLength)]

/-- The checks of ECB (R202). -/
def ecbChecks (s : State) : List (Bool × ErrCode) := wholeBlocksCheck s ++ dataChecks s

/-- The checks of CBC (R202). -/
def cbcChecks (s : State) : List (Bool × ErrCode) :=
  multiBlockIvChecks s ++ wholeBlocksCheck s ++ dataChecks s ++ ivBufferCheck s

/-- The checks of CFB and OFB (R202). -/
def streamChecks (s : State) : List (Bool × ErrCode) :=
  multiBlockIvChecks s ++ dataChecks s ++ ivBufferCheck s

/-- The checks of CTR (R202, R220). -/
def ctrChecks (s : State) : List (Bool × ErrCode) := ctrIvChecks s ++ dataChecks s ++ ivBufferCheck s

/-! ### Operands -/

/-- `in = MemRead(SRC, LEN)` (R200). -/
def inputText (s : State) : Bytes := s.mem.readBytes s.src.toNat s.len.toNat

/-- `iv = MemRead(IVADDR, IVLEN)` (R201, R220). -/
def ivBytes (s : State) : Bytes := s.mem.readBytes s.ivaddr.toNat s.ivlen.toNat

/-- The IV register `R[0..z-1]` at the start (R43, R201). -/
def ivRegister (iv : Bytes) : List Block := (messageBlocks iv).map blockOf

/-- The product of a mode command: `MemWrite(DST, LEN, out)` (R203). -/
def modeProduct (out : Bytes) (s : State) : Product := ⟨[(s.dst.toNat, out)], none, none, true⟩

/-! ### The modes as functions of the round keys, the IV and the text -/

/-- ECB with a block function (R210, R211). -/
def ecbText (f : Block → Block) (text : Bytes) : Bytes :=
  (messageBlocks text).flatMap fun b => bytesOf (f (blockOf b))

/-- The loop of CBC, CFB and OFB from block `i` on (R201): block `i` uses and updates `R[i mod z]`. The mode's own
step takes the input block and `R[j]` and gives the output block and the new `R[j]`. -/
def chainLoop (modeStep : Bytes → Block → Bytes × Block) : Nat → List Block → List Bytes → Bytes
  | _, _, [] => []
  | i, r, b :: bs =>
    let j := i % r.length
    let o := modeStep b (r.getD j 0)
    o.1 ++ chainLoop modeStep (i + 1) (r.set j o.2) bs

/-- A chained mode over a whole text (R200, R201). -/
def chainText (modeStep : Bytes → Block → Bytes × Block) (iv text : Bytes) : Bytes :=
  chainLoop modeStep 0 (ivRegister iv) (messageBlocks text)

/-- One block of CBC encryption (R213). -/
def cbcEncryptStep (s : Vector Word 44) (b : Bytes) (r : Block) : Bytes × Block :=
  let c := rc6Encrypt s (blockOf b ^^^ r)
  (bytesOf c, c)

/-- One block of CBC decryption (R214). -/
def cbcDecryptStep (s : Vector Word 44) (b : Bytes) (r : Block) : Bytes × Block :=
  (bytesOf (rc6Decrypt s (blockOf b) ^^^ r), blockOf b)

/-- One block of CFB encryption (R216): the ciphertext feeds back. -/
def cfbEncryptStep (s : Vector Word 44) (b : Bytes) (r : Block) : Bytes × Block :=
  let o := xorBytes b (bytesOf (rc6Encrypt s r))
  (o, blockOf o)

/-- One block of CFB decryption (R217): the received ciphertext feeds back. -/
def cfbDecryptStep (s : Vector Word 44) (b : Bytes) (r : Block) : Bytes × Block :=
  (xorBytes b (bytesOf (rc6Encrypt s r)), blockOf b)

/-- One block of OFB (R219): the keystream feeds back. -/
def ofbStep (s : Vector Word 44) (b : Bytes) (r : Block) : Bytes × Block :=
  let k := rc6Encrypt s r
  (xorBytes b (bytesOf k), k)

/-- A text under the keystream of the counters `c, next c, ..` (R221, 44_mgm.md R245). -/
def counterLoop (s : Vector Word 44) (next : Block → Block) : Block → List Bytes → Bytes
  | _, [] => []
  | c, b :: bs => xorBytes b (bytesOf (rc6Encrypt s c)) ++ counterLoop s next (next c) bs

/-- `T0 = 0^8 || iv` (R220). -/
def ctrInitial (iv : Bytes) : Block := blockOf (List.replicate 8 0 ++ iv)

/-- CTR (R220, R221): the counters `T_i = T0 + i` modulo 2^128. -/
def ctrText (s : Vector Word 44) (iv text : Bytes) : Bytes :=
  counterLoop s (· + 1) (ctrInitial iv) (messageBlocks text)

/-! ### Commands -/

/-- ECB.E (R210). -/
def execEcbE (s : State) : Host.Outcome State Fault Refusal :=
  keyedCommand .ecbE (ecbChecks s) (s.len.toNat / 16)
    (fun s => modeProduct (ecbText (rc6Encrypt s.ctx.s) (inputText s)) s) s

/-- ECB.D (R211). -/
def execEcbD (s : State) : Host.Outcome State Fault Refusal :=
  keyedCommand .ecbD (ecbChecks s) (s.len.toNat / 16)
    (fun s => modeProduct (ecbText (rc6Decrypt s.ctx.s) (inputText s)) s) s

/-- CBC.E (R213). -/
def execCbcE (s : State) : Host.Outcome State Fault Refusal :=
  keyedCommand .cbcE (cbcChecks s) (s.len.toNat / 16)
    (fun s => modeProduct (chainText (cbcEncryptStep s.ctx.s) (ivBytes s) (inputText s)) s) s

/-- CBC.D (R214). -/
def execCbcD (s : State) : Host.Outcome State Fault Refusal :=
  keyedCommand .cbcD (cbcChecks s) (s.len.toNat / 16)
    (fun s => modeProduct (chainText (cbcDecryptStep s.ctx.s) (ivBytes s) (inputText s)) s) s

/-- CFB.E (R216). -/
def execCfbE (s : State) : Host.Outcome State Fault Refusal :=
  keyedCommand .cfbE (streamChecks s) (blocksFor s.len.toNat)
    (fun s => modeProduct (chainText (cfbEncryptStep s.ctx.s) (ivBytes s) (inputText s)) s) s

/-- CFB.D (R217). -/
def execCfbD (s : State) : Host.Outcome State Fault Refusal :=
  keyedCommand .cfbD (streamChecks s) (blocksFor s.len.toNat)
    (fun s => modeProduct (chainText (cfbDecryptStep s.ctx.s) (ivBytes s) (inputText s)) s) s

/-- OFB (R219). DIR is ignored (R93). -/
def execOfb (dir : Bool) (s : State) : Host.Outcome State Fault Refusal :=
  keyedCommand (.ofb dir) (streamChecks s) (blocksFor s.len.toNat)
    (fun s => modeProduct (chainText (ofbStep s.ctx.s) (ivBytes s) (inputText s)) s) s

/-- CTR (R221). DIR is ignored (R93). -/
def execCtr (dir : Bool) (s : State) : Host.Outcome State Fault Refusal :=
  keyedCommand (.ctr dir) (ctrChecks s) (blocksFor s.len.toNat)
    (fun s => modeProduct (ctrText s.ctx.s (ivBytes s) (inputText s)) s) s

end Sys2Proof.Machine
end

