-- ==== Sys2Proof/Machine/Cmac.lean ====
section
/-!
DEFINITION. CMAC and its subkeys (spec 45_cmac.md R270 to R274).
-/

namespace Sys2Proof.Machine

/-- The subkeys K1 and K2 (R270). -/
def cmacSubkeys (s : Vector Word 44) : Block × Block :=
  let k1 := dbl (rc6Encrypt s 0)
  (k1, dbl k1)

/-- The last block under its subkey (R271): K1 for a complete block; else the byte 0x80, zero bytes, and K2. -/
def cmacLast (s : Vector Word 44) (b : Bytes) : Block :=
  if b.length == 16 then blockOf b ^^^ (cmacSubkeys s).1
  else blockOf (b ++ [0x80]) ^^^ (cmacSubkeys s).2

/-- The chaining of R271 over the blocks of the message, the last one under its subkey. -/
def cmacLoop (s : Vector Word 44) : Block → List Bytes → Block
  | st, [] => rc6Encrypt s (st ^^^ cmacLast s [])
  | st, [b] => rc6Encrypt s (st ^^^ cmacLast s b)
  | st, b :: c :: bs => cmacLoop s (rc6Encrypt s (st ^^^ blockOf b)) (c :: bs)

/-- `CMAC(M)` (R271): the empty message is one empty block. -/
def cmacTag (s : Vector Word 44) (m : Bytes) : Block := cmacLoop s 0 (messageBlocks m)

/-- N(CMAC) (R176, R271). -/
def cmacCount (textLen : Nat) : Nat := 1 + max 1 (blocksFor textLen)

/-- The check sequence of CMAC (R272). -/
def cmacChecks (tagLen : Nat) (s : State) : List (Bool × ErrCode) :=
  [(tagLen == 0 || decide (16 < tagLen), .invalidTagLength),
   (!regionOk s.src s.len.toNat, .invalidArgument),
   (!regionOk s.tagaddr tagLen, .invalidArgument)]

/-- CMAC (R272). -/
def execCmac (tagLen : Nat) (s : State) : Host.Outcome State Fault Refusal :=
  keyedCommand (.cmac tagLen) (cmacChecks tagLen s) (cmacCount s.len.toNat)
    (fun s => ⟨[(s.tagaddr.toNat, trunc (cmacTag s.ctx.s (inputText s)) tagLen)], none, none, true⟩) s

/-- CMACKEYS (R273): DOUT = K1, DOUTB = K2. -/
def execCmackeys (s : State) : Host.Outcome State Fault Refusal :=
  keyedCommand .cmackeys [] 1
    (fun s => ⟨[], some (cmacSubkeys s.ctx.s).1, some (cmacSubkeys s.ctx.s).2, true⟩) s

end Sys2Proof.Machine
end

