-- ==== Sys2Proof/Machine/Mgm.lean ====
section
/-!
DEFINITION. MGM authenticated encryption (spec 44_mgm.md R240 to R254).
-/

namespace Sys2Proof.Machine

open Sys2Proof.Config

/-- The bit that tells the two counters apart: bit 127 (R242). -/
def counterTopBit : Block := 1 <<< 127

/-- The initial encryption counter Y0 (R242). -/
def mgmY0 (p : Platform) (s : Vector Word 44) (nu : Block) : Block :=
  match p.mgmDerive with
  | .direct => nu &&& ~~~counterTopBit
  | .encrypted => rc6Encrypt s (nu &&& ~~~counterTopBit)

/-- The initial authentication counter Z0 (R242). -/
def mgmZ0 (p : Platform) (s : Vector Word 44) (nu : Block) : Block :=
  match p.mgmDerive with
  | .direct => nu ||| counterTopBit
  | .encrypted => rc6Encrypt s (nu ||| counterTopBit)

/-- `incY` (R243). -/
def incY (p : Platform) (y : Block) : Block :=
  match p.mgmIncrement with
  | .full => y + 1
  | .halves => y.extractLsb' 64 64 ++ (y.extractLsb' 0 64 + 1)

/-- `incZ` (R243). -/
def incZ (p : Platform) (z : Block) : Block :=
  match p.mgmIncrement with
  | .full => z + 1
  | .halves => (z.extractLsb' 64 64 + 1) ++ z.extractLsb' 0 64

/-- The length block `LB` (R244): the bit lengths of A and C, each in its half. -/
def lengthBlock (adLen textLen : Nat) : Block := BitVec.ofNat 128 (8 * adLen * 2 ^ 64 + 8 * textLen)

/-- The accumulator input X_0..X_m (R244): A, then C, each block padded with zeros, then LB. -/
def mgmBlocks (ad cipher : Bytes) : List Block :=
  (messageBlocks ad).map blockOf ++ (messageBlocks cipher).map blockOf ++ [lengthBlock ad.length cipher.length]

/-- The accumulator loop of R246: the accumulator and the counter after the last mask, Z_{m+1}. -/
def mgmFold (p : Platform) (s : Vector Word 44) : Block → Block → List Block → Block × Block
  | acc, z, [] => (acc, z)
  | acc, z, x :: xs => mgmFold p s (acc ^^^ gfmul (rc6Encrypt s z) x) (incZ p z) xs

/-- The tag block T over A and the ciphertext (R246, R247). -/
def mgmTag (p : Platform) (s : Vector Word 44) (nu : Block) (ad cipher : Bytes) : Block :=
  let r := mgmFold p s 0 (mgmZ0 p s nu) (mgmBlocks ad cipher)
  match p.mgmFinal with
  | .encryptAcc => rc6Encrypt s r.1
  | .xorEncCounter => r.1 ^^^ rc6Encrypt s r.2

/-- The text transform, the same in both directions (R245). -/
def mgmText (p : Platform) (s : Vector Word 44) (nu : Block) (text : Bytes) : Bytes :=
  counterLoop s (incY p) (mgmY0 p s nu) (messageBlocks text)

/-- N(MGM): the primitive invocations (R176, R248). -/
def mgmCount (p : Platform) (adLen textLen : Nat) : Nat :=
  blocksFor textLen + (blocksFor adLen + blocksFor textLen + 1) + 1
    + (match p.mgmDerive with | .direct => 0 | .encrypted => 2)

/-- The check sequence of MGM (R249). -/
def mgmChecks (tagLen : Nat) (s : State) : List (Bool × ErrCode) :=
  [(tagLen == 0 || decide (16 < tagLen), .invalidTagLength),
   (s.ivlen != 16, .invalidIVLength),
   (decide (s.plat.mgmMaxAd < s.adlen.toNat), .associatedDataTooLarge),
   (decide (s.plat.mgmMaxText < s.len.toNat), .plaintextTooLarge),
   (s.adlen.toNat + s.len.toNat == 0, .invalidArgument),
   (!regionOk s.ivaddr 16, .invalidArgument),
   (!regionOk s.adaddr s.adlen.toNat, .invalidArgument),
   (!regionOk s.src s.len.toNat, .invalidArgument),
   (!regionOk s.dst s.len.toNat, .invalidArgument),
   (!regionOk s.tagaddr tagLen, .invalidArgument)]

/-- `nu = val(MemRead(IVADDR, 16))` (R241). -/
def mgmNonce (s : State) : Block := blockOf (s.mem.readBytes s.ivaddr.toNat 16)

/-- `A = MemRead(ADADDR, ADLEN)` (R240). -/
def associatedData (s : State) : Bytes := s.mem.readBytes s.adaddr.toNat s.adlen.toNat

/-- What MGM.E writes: the ciphertext, then the tag (R250). -/
def mgmEncryptProduct (tagLen : Nat) (s : State) : Product :=
  let cipher := mgmText s.plat s.ctx.s (mgmNonce s) (inputText s)
  let tag := mgmTag s.plat s.ctx.s (mgmNonce s) (associatedData s) cipher
  ⟨[(s.dst.toNat, cipher), (s.tagaddr.toNat, trunc tag tagLen)], none, none, true⟩

/-- What MGM.D writes, and whether the tag over the received ciphertext matches (R251). -/
def mgmDecryptProduct (tagLen : Nat) (s : State) : Product :=
  let plain := mgmText s.plat s.ctx.s (mgmNonce s) (inputText s)
  let tag := mgmTag s.plat s.ctx.s (mgmNonce s) (associatedData s) (inputText s)
  ⟨[(s.dst.toNat, plain)], none, none, trunc tag tagLen == s.mem.readBytes s.tagaddr.toNat tagLen⟩

/-- MGM.E (R250). -/
def execMgmE (tagLen : Nat) (s : State) : Host.Outcome State Fault Refusal :=
  keyedCommand (.mgmE tagLen) (mgmChecks tagLen s) (mgmCount s.plat s.adlen.toNat s.len.toNat)
    (mgmEncryptProduct tagLen) s

/-- MGM.D (R251). -/
def execMgmD (tagLen : Nat) (s : State) : Host.Outcome State Fault Refusal :=
  keyedCommand (.mgmD tagLen) (mgmChecks tagLen s) (mgmCount s.plat s.adlen.toNat s.len.toNat)
    (mgmDecryptProduct tagLen) s

end Sys2Proof.Machine
end

