-- ==== Sys2Proof/Machine/Dispatch.lean ====
section
/-!
DEFINITION. One arm per command of the opcode table: its COMPLETE (spec 10_state.md R40).
-/

namespace Sys2Proof.Machine

/-- COMPLETE of a decoded command. -/
def exec (i : Instr) (s : State) : Host.Outcome State Fault Refusal :=
  match i with
  | .nop => Sys2Proof.Machine.execNop s
  | .create compat alg => Sys2Proof.Machine.execCreate compat alg s
  | .setkey => Sys2Proof.Machine.execSetkey s
  | .destroy => Sys2Proof.Machine.execDestroy s
  | .encb => Sys2Proof.Machine.execEncb s
  | .decb => Sys2Proof.Machine.execDecb s
  | .ecbE => Sys2Proof.Machine.execEcbE s
  | .ecbD => Sys2Proof.Machine.execEcbD s
  | .cbcE => Sys2Proof.Machine.execCbcE s
  | .cbcD => Sys2Proof.Machine.execCbcD s
  | .cfbE => Sys2Proof.Machine.execCfbE s
  | .cfbD => Sys2Proof.Machine.execCfbD s
  | .ofb dir => Sys2Proof.Machine.execOfb dir s
  | .ctr dir => Sys2Proof.Machine.execCtr dir s
  | .mgmE tagLen => Sys2Proof.Machine.execMgmE tagLen s
  | .mgmD tagLen => Sys2Proof.Machine.execMgmD tagLen s
  | .cmac tagLen => Sys2Proof.Machine.execCmac tagLen s
  | .cmackeys => Sys2Proof.Machine.execCmackeys s
  | .gfmul => Sys2Proof.Machine.execGfmul s
  | .gfdbl => Sys2Proof.Machine.execGfdbl s

end Sys2Proof.Machine
end

