-- ==== Sys2Proof/Machine/HostBus.lean ====
section
/-!
DEFINITION. What the HOST, the ENV and the platform do (spec 00_scope.md R8): window accesses (10_state.md R21 to
R39, 20_memory.md R62, R63), ISSUE (10_state.md R40), HOST memory accesses with their hazards
(70_reset_and_hazards.md R351 to R354), ENV upsets (10_state.md R45), reset (70_reset_and_hazards.md R340, R341).
-/

namespace Sys2Proof.Machine

open Sys2Proof.Config

/-! ### Window reads -/

/-- What ID reads (R22). -/
def idValue : Word := 0x52433601

/-- What a register reads while the CORE is idle: always exact (R21 to R39). CMD reads 0 (R33). -/
def regValue (r : Reg) (s : State) : Word :=
  match r with
  | .id => idValue
  | .ctrl => (BitVec.ofBool s.ie).setWidth 32
  | .status => s.status
  | .cmd => 0
  | .src => s.src
  | .dst => s.dst
  | .len => s.len
  | .ivaddr => s.ivaddr
  | .ivlen => s.ivlen
  | .adaddr => s.adaddr
  | .adlen => s.adlen
  | .tagaddr => s.tagaddr
  | .resource => s.ctx.res
  | .icode => s.ctx.ic
  | .din k => s.din.get k
  | .dinb k => s.dinb.get k
  | .dout k => s.dout.get k
  | .doutb k => s.doutb.get k

/-- What a register reads while BUSY, with `any` the free word of this read, and whether the read uses it
(R39, R350, U6). -/
def regValueBusy (r : Reg) (any : Word) (s : State) : Word × Bool :=
  match r with
  | .status => (s.statusBusy any, true)
  | .resource | .icode | .dout _ | .doutb _ => (any, true)
  | .id | .ctrl | .cmd | .src | .dst | .len | .ivaddr | .ivlen | .adaddr | .adlen | .tagaddr | .din _ | .dinb _ =>
    (regValue r s, false)

/-- A 32-bit read of a register: the HOST gets its value; the CORE does not change (R62). -/
def readReg (r : Reg) (s : State) : State :=
  match s.seq with
  | .idle => { s with rdata := regValue r s }
  | .busy =>
    let v := regValueBusy r (anyWord s.draws) s
    { s.drawn (if v.2 then 1 else 0) with rdata := v.1 }

/-- A window read (R62, R63): 0 where the access is not a whole register or the offset is reserved (R39). -/
def windowRead (size : AccessSize) (offset : BitVec 8) (s : State) : State :=
  if wholeRegister size offset then
    match regAt offset with
    | some r => readReg r s
    | none => { s with rdata := 0 }
  else { s with rdata := 0 }

/-! ### Window writes and ISSUE -/

/-- The state in which a command has been issued (R40). -/
def issued (w : Word) (s : State) : State := { s with cur := w, seq := .busy, done := false, upset := false }

/-- ISSUE (R40). The hazards of the command's buffers are recorded here (R60, R67, R354). An illegal word has no
buffers and is issued like any other (R97). -/
def issue (w : Word) (s : State) : Host.Outcome State Fault Refusal :=
  match decode w with
  | .error _ => .next (issued w s)
  | .ok i =>
    if windowHazard i s then .fault .dmaToWindow
    else if overlapHazard i s then .fault .overlapHazard
    else .next (issued w s)

/-- A refused write (R28). -/
def refuseWrite (s : State) : State := { s with werr := true }

/-- A write that BUSY refuses (R39, R353). -/
def writeIdle (write : State → State) (s : State) : State :=
  match s.seq with
  | .idle => write s
  | .busy => refuseWrite s

/-- A 32-bit write of a register (R21 to R39). -/
def writeReg (r : Reg) (v : Word) (s : State) : Host.Outcome State Fault Refusal :=
  match r with
  | .id | .resource | .icode | .dout _ | .doutb _ => .next s
  | .ctrl => .next (writeCtrl v s)
  | .status => .next (writeStatus v s)
  | .cmd =>
    match s.seq with
    | .idle => issue v s
    | .busy => .next (refuseWrite s)
  | .src => .next (writeIdle (fun s => { s with src := v }) s)
  | .dst => .next (writeIdle (fun s => { s with dst := v }) s)
  | .len => .next (writeIdle (fun s => { s with len := v }) s)
  | .ivaddr => .next (writeIdle (fun s => { s with ivaddr := v }) s)
  | .ivlen => .next (writeIdle (fun s => { s with ivlen := v }) s)
  | .adaddr => .next (writeIdle (fun s => { s with adaddr := v }) s)
  | .adlen => .next (writeIdle (fun s => { s with adlen := v }) s)
  | .tagaddr => .next (writeIdle (fun s => { s with tagaddr := v }) s)
  | .din k => .next (writeIdle (fun s => { s with din := s.din.set k v }) s)
  | .dinb k => .next (writeIdle (fun s => { s with dinb := s.dinb.set k v }) s)

/-- A window write (R62, R63): an access that is not a whole register is ignored and sets WERR; a reserved offset
is ignored (R39). -/
def windowWrite (size : AccessSize) (offset : BitVec 8) (v : Word) (s : State) : Host.Outcome State Fault Refusal :=
  if wholeRegister size offset then
    match regAt offset with
    | some r => writeReg r v s
    | none => .next s
  else .next (refuseWrite s)

/-! ### HOST memory accesses -/

/-- A HOST read of one byte. In the window it is a sub-word access (R63). A byte of a written region of the command
in flight reads any value (R73, R352). DESIGN CHOICE (log entry 9), safe: a byte that does not exist is a fault, also
where it is a byte of a region of the (stuck) command in flight. -/
def memRead (addr : Word) (s : State) : Host.Outcome State Fault Refusal :=
  let a := addr.toNat
  if inWindow s.plat a then .next { s with rdata := 0 }
  else if !memAdmits s.plat a then .fault .hostAbsentByte
  else if (regionsInFlight s).any (fun r => r.written && r.holds a) then
    .next { s.drawn 1 with rdata := (anyByte s.draws).setWidth 32 }
  else .next { s with rdata := (s.mem.read a).setWidth 32 }

/-- A HOST write of one byte. In the window it is a sub-word access (R63). A byte of a region of the command in
flight is a race (R351, R352). DESIGN CHOICE (log entry 9), safe: a byte that does not exist is the fault hostAbsentByte,
before dmaRace. -/
def memWrite (addr : Word) (v : Byte) (s : State) : Host.Outcome State Fault Refusal :=
  let a := addr.toNat
  if inWindow s.plat a then .next (refuseWrite s)
  else if !memAdmits s.plat a then .fault .hostAbsentByte
  else if (regionsInFlight s).any (fun r => r.holds a) then .fault .dmaRace
  else .next { s with mem := s.mem.write a v }

/-- A HOST step (R8). -/
def hostStep (access : HostAccess) (s : State) : Host.Outcome State Fault Refusal :=
  match access with
  | .windowRead size offset => .next (windowRead size offset s)
  | .windowWrite size offset v => windowWrite size offset v s
  | .memRead addr => memRead addr s
  | .memWrite addr v => memWrite addr v s

/-! ### ENV upsets -/

/-- One word of key storage replaced (R45). -/
def KeyContext.upsetCell (c : KeyContext) (cell : KeyCell) (v : Word) : KeyContext :=
  match cell with
  | .key i => { c with k := c.k.set i.val v i.isLt }
  | .roundKey i => { c with s := c.s.set i.val v i.isLt }
  | .integrityCode => { c with ic := v }

/-- An ENV upset (R45): nothing where ALLOW_UPSET is false. While BUSY the command in flight is marked. -/
def upsetStep (changes : List (KeyCell × Word)) (s : State) : State :=
  if s.plat.allowUpset then
    { s with
      ctx := changes.foldl (fun c change => c.upsetCell change.1 change.2) s.ctx
      upset := s.upset || s.busy }
  else s

/-! ### Reset -/

/-- The platform's reset (R340): every piece of CORE state takes its reset value. Memory keeps its bytes but for
the written regions of a command in flight, which hold any value (R341). -/
def resetStep (s : State) : State :=
  let abandoned := freeRegions s.plat s.mem s.draws ((regionsInFlight s).filter (·.written))
  { State.reset with
    mem := abandoned.1
    draws := abandoned.2
    plat := s.plat
    inputs := s.inputs
    rdata := s.rdata }

end Sys2Proof.Machine
end

