-- ==== Sys2Proof/Machine/Step.lean ====
section
/-!
DEFINITION. One step of the machine: the next turn of the global order (spec 20_memory.md R73, 10_state.md R40).
-/

namespace Sys2Proof.Machine

/-- The CORE's turn (R40): COMPLETE of the latched word where the CORE is BUSY; an idle CORE waits for a CMD write
(R340). -/
def coreStep (s : State) : Host.Outcome State Fault Refusal :=
  match s.seq with
  | .idle => .next s
  | .busy =>
    match decode s.cur with
    | .ok i => exec i s
    | .error _ => completeIllegal s

/-- The turn of one agent. -/
def eventStep (e : Event) (s : State) : Host.Outcome State Fault Refusal :=
  match e with
  | .host access => hostStep access s
  | .core => coreStep s
  | .upset changes => .next (upsetStep changes s)
  | .reset => .next (resetStep s)

/-- One step: the next event takes its turn; where none is left, the CORE does (R73, R360). Log entry 2. -/
def step (s : State) : Host.Outcome State Fault Refusal :=
  match s.inputs with
  | [] => coreStep s
  | e :: rest => eventStep e { s with inputs := rest }

/-- The word latched as the command in flight, with the CORE's turn next: what an ISSUE of that word leaves
(R40, R76). Log entry 16. -/
def State.withFetchWord (s : State) (nbits w : Nat) : State :=
  { s with cur := tableWord nbits w, seq := .busy, inputs := .core :: s.inputs }

end Sys2Proof.Machine
end

