-- ==== Sys2Proof/Safety.lean ====
section
/-!
DEFINITION. The words in which claims about the machine are stated: how a command ends, when a keyed command can
run, what memory holds, and the invariants of the state (spec 10_state.md R40, R42, R48, 60_exceptions.md R302, R303).
-/

namespace Sys2Proof.Machine

/-- The state after a command that ended with `code` and changed nothing else (R302, R303). -/
def State.ended (code : ErrCode) (s : State) : State :=
  { s with err := code, done := true, seq := .idle, upset := false }

/-- The state `s` with `n` primitive invocations consumed (R173). -/
def State.charged (n : Nat) (s : State) : State :=
  { s with ctx := { s.ctx with res := s.ctx.res - BitVec.ofNat 32 n } }

/-- The buffers of a command can be reached: none in the window, no overlap but DST = SRC, every byte there
(R60, R67, R69). -/
def BuffersOk (i : Instr) (s : State) : Prop :=
  windowHazard i s = false ∧ overlapHazard i s = false ∧ regionsAdmitted i s = true

/-- The key lets a command with `n` invocations run: no upset since its ISSUE, the integrity check passes, and the
resource counter covers it (R45, R172, R174). -/
def KeyReady (n : Nat) (s : State) : Prop :=
  s.upset = false ∧ keyOk s = true ∧ n ≤ s.ctx.res.toNat

/-- Memory `m` holds `bytes` from `base` on and agrees with `old` everywhere else. -/
def HoldsAt (m old : Memory) (base : Nat) (bytes : Bytes) : Prop :=
  ∀ a, m.read a = if base ≤ a ∧ a < base + bytes.length then bytes.getD (a - base) 0 else old.read a

/-- What the tag length must be (R92). -/
def TagLenOk (l : Nat) : Prop := 1 ≤ l ∧ l ≤ 16

/-- A chaining IV that CBC, CFB and OFB accept (R201). -/
def ChainIvOk (s : State) : Prop :=
  s.ivlen ≠ 0 ∧ s.ivlen.toNat % 16 = 0 ∧ s.ivlen.toNat / 16 ≤ s.plat.zMax ∧ regionOk s.ivaddr s.ivlen.toNat = true

/-- A CTR IV buffer that is accepted (R220). -/
def CtrIvOk (s : State) : Prop := s.ivlen = 8 ∧ regionOk s.ivaddr 8 = true

/-- Text buffers that a mode accepts (R202). -/
def TextOk (s : State) : Prop :=
  s.len ≠ 0 ∧ regionOk s.src s.len.toNat = true ∧ regionOk s.dst s.len.toNat = true

/-- A whole number of blocks (R202). -/
def WholeBlocks (s : State) : Prop := s.len.toNat % 16 = 0

/-- The operands MGM accepts (R249). -/
def MgmOk (tagLen : Nat) (s : State) : Prop :=
  TagLenOk tagLen ∧ s.ivlen = 16 ∧ s.adlen.toNat ≤ s.plat.mgmMaxAd ∧ s.len.toNat ≤ s.plat.mgmMaxText
    ∧ 0 < s.adlen.toNat + s.len.toNat ∧ regionOk s.ivaddr 16 = true ∧ regionOk s.adaddr s.adlen.toNat = true
    ∧ regionOk s.src s.len.toNat = true ∧ regionOk s.dst s.len.toNat = true ∧ regionOk s.tagaddr tagLen = true

/-- The operands CMAC accepts (R272). -/
def CmacOk (tagLen : Nat) (s : State) : Prop :=
  TagLenOk tagLen ∧ regionOk s.src s.len.toNat = true ∧ regionOk s.tagaddr tagLen = true

/-- The argument checks of every command pass (R181, R182, R202, R249, R272). -/
def ArgsOk (i : Instr) (s : State) : Prop :=
  match i with
  | .nop | .destroy | .encb | .decb | .cmackeys | .gfmul | .gfdbl => True
  | .create _ alg => alg = 0
  | .setkey => s.len = 32 ∧ regionOk s.src 32 = true
  | .ecbE | .ecbD => WholeBlocks s ∧ TextOk s
  | .cbcE | .cbcD => ChainIvOk s ∧ WholeBlocks s ∧ TextOk s
  | .cfbE | .cfbD | .ofb _ => ChainIvOk s ∧ TextOk s
  | .ctr _ => CtrIvOk s ∧ TextOk s
  | .mgmE l | .mgmD l => MgmOk l s
  | .cmac l => CmacOk l s

/-- The keyed commands (R175). -/
def isKeyed : Instr → Bool
  | .nop | .create _ _ | .setkey | .destroy | .gfmul | .gfdbl => false
  | .encb | .decb | .ecbE | .ecbD | .cbcE | .cbcD | .cfbE | .cfbD | .ofb _ | .ctr _ | .mgmE _ | .mgmD _
  | .cmac _ | .cmackeys => true

/-- The commands that write DOUT or DOUTB (R38). -/
def writesDout : Instr → Bool
  | .encb | .decb | .gfmul | .gfdbl | .cmackeys => true
  | .nop | .create _ _ | .setkey | .destroy | .ecbE | .ecbD | .cbcE | .cbcD | .cfbE | .cfbD | .ofb _ | .ctr _
  | .mgmE _ | .mgmD _ | .cmac _ => false

/-- N(cmd), the primitive invocations of a command, as R176 tables it. -/
def invocations (i : Instr) (s : State) : Nat :=
  let n := (s.len.toNat + 15) / 16
  let h := (s.adlen.toNat + 15) / 16
  match i with
  | .encb | .decb | .cmackeys => 1
  | .ecbE | .ecbD | .cbcE | .cbcD => s.len.toNat / 16
  | .cfbE | .cfbD | .ofb _ | .ctr _ => n
  | .mgmE _ | .mgmD _ => n + (h + n + 1) + 1 + (if s.plat.mgmDerive = .encrypted then 2 else 0)
  | .cmac _ => 1 + max 1 n
  | .nop | .create _ _ | .setkey | .destroy | .gfmul | .gfdbl => 0

/-- Block `i` of a byte string, a partial one extended by zero bytes (R10, R100). -/
def blockAt (bs : Bytes) (i : Nat) : Block := blockOf ((bs.drop (16 * i)).take 16)

/-- The text at SRC (R200). -/
def sourceText (s : State) : Bytes := s.mem.readBytes s.src.toNat s.len.toNat

/-- The IV at IVADDR (R201, R220). -/
def sourceIv (s : State) : Bytes := s.mem.readBytes s.ivaddr.toNat s.ivlen.toNat

/-- The nonce at IVADDR (R241). -/
def sourceNonce (s : State) : Block := blockOf (s.mem.readBytes s.ivaddr.toNat 16)

/-- The associated data at ADADDR (R240). -/
def sourceAd (s : State) : Bytes := s.mem.readBytes s.adaddr.toNat s.adlen.toNat

/-- A command that COMPLETE cannot finish: MEM_ADMITS is false of some byte of its regions (R69). An ISSUE has seen to
it that no buffer is in the window and none overlaps (R60, R67). -/
def Stuck (s : State) : Prop :=
  s.seq = .busy ∧ ∃ i, decode s.cur = .ok i ∧ windowHazard i s = false ∧ overlapHazard i s = false
    ∧ regionsAdmitted i s = false

/-- It is the CORE's turn: it is next in the global order, or nothing else is left (R73, log entry 2). -/
def CoreTurn (s : State) : Prop := s.inputs = [] ∨ ∃ rest, s.inputs = .core :: rest

/-- The state in which the next turn is taken: the turn is no longer to come. -/
def State.turnTaken (s : State) : State := { s with inputs := s.inputs.tail }

/-- Memory is in its canonical form and lists only bytes that exist (R60). -/
def MemInv (s : State) : Prop :=
  s.mem.wf = true ∧ ∀ c ∈ s.mem, memAdmits s.plat c.1 = true

/-- The invariants of the key context (R30, R42, R173): ALG is RC6; RES is 0 without a key and never above
RESOURCE_MAX; and where ENV takes no steps, key storage is zero without a key, and with one the round keys and the
integrity code are those of the key words. -/
def KeyInv (s : State) : Prop :=
  s.ctx.alg = 0
    ∧ (s.ctx.keyed = false → s.ctx.res = 0)
    ∧ s.ctx.res ≤ s.plat.resourceMax
    ∧ (s.plat.allowUpset = false → s.ctx.keyed = false →
        s.ctx.k = Vector.replicate 8 0 ∧ s.ctx.s = Vector.replicate 44 0 ∧ s.ctx.ic = 0)
    ∧ (s.plat.allowUpset = false → s.ctx.keyed = true →
        s.ctx.s = rc6Schedule s.ctx.k ∧ s.ctx.ic = integrityCode s.plat s.ctx.k s.ctx.s)

/-- The invariants of the sequencer (R26, R40, R45, R60, R67): DONE is 0 while BUSY; an upset in flight is one that
ENV was allowed, with a command in flight; the command in flight has no buffer in the window and no overlap. -/
def SeqInv (s : State) : Prop :=
  (s.seq = .busy → s.done = false)
    ∧ (s.upset = true → s.seq = .busy ∧ s.plat.allowUpset = true)
    ∧ (s.seq = .busy → ∀ i, decode s.cur = .ok i → windowHazard i s = false ∧ overlapHazard i s = false)

end Sys2Proof.Machine
end

