-- ==== Sys2Proof/Certificates/Slice0/Obligations.lean ====
section
/-!
DEFINITION. The statements for the provers, one per entry of OBLIGATIONS.json.
-/

open Sys2Proof Sys2Proof.Machine Sys2Proof.Config

/-! ### Encoding (30_encoding.md) -/

/-- Decode and encode agree on every well-formed command, with every operand. -/
def Obligations.DecodeOfEncode : Prop :=
  ∀ i : Instr, i.wf = true → decode (encode i) = .ok i

/-- Every legal word is the encoding of the command it decodes to: no bit of it is dropped. -/
def Obligations.EncodeOfDecode : Prop :=
  ∀ (w : Word) (i : Instr), decode w = .ok i → i.wf = true ∧ encode i = w

/-- R95, R96, R97: a word is legal exactly where OPC is below 0x10, the reserved bits are 0, and so is every field its
opcode does not use; and at most one row of the opcode map matches any word. -/
def Obligations.LegalWords : Prop :=
  (∀ w : Word, (∃ i, decode w = .ok i) ↔
    (w.setWidth 8).toNat < 0x10
      ∧ w.extractLsb' 10 6 = 0 ∧ w.extractLsb' 21 3 = 0 ∧ w.extractLsb' 28 4 = 0
      ∧ (w.getLsbD 8 = true → 0x06 ≤ (w.setWidth 8).toNat ∧ (w.setWidth 8).toNat ≤ 0x0B)
      ∧ (w.getLsbD 9 = true → w.setWidth 8 = 0x01#8)
      ∧ (w.extractLsb' 16 5 ≠ 0 → w.setWidth 8 = 0x0B#8 ∨ w.setWidth 8 = 0x0C#8)
      ∧ (w.extractLsb' 24 4 ≠ 0 → w.setWidth 8 = 0x01#8))
    ∧ ∀ w : Word, opcodeMap.Pairwise fun a b => ¬(a.selects w = true ∧ b.selects w = true)

/-- Words written out from 30_encoding.md R91 and R96 decode to their commands. -/
def Obligations.SpecWordsDecode : Prop :=
  decode 0x00000000#32 = .ok .nop
    ∧ decode 0x00000201#32 = .ok (.create true 0)
    ∧ decode 0x01000001#32 = .ok (.create false 1)
    ∧ decode 0x00000106#32 = .ok .ecbD
    ∧ decode 0x00000109#32 = .ok (.ofb true)
    ∧ decode 0x0010010B#32 = .ok (.mgmD 16)
    ∧ decode 0x0004000C#32 = .ok (.cmac 4)
    ∧ decode 0x0000000E#32 = .ok .gfmul
    ∧ decode 0x00000104#32 = .error .illegalCommand
    ∧ decode 0x0020000C#32 = .error .illegalCommand

/-! ### Steps of the sequencer (10_state.md section 3) -/

/-- Where it is the CORE's turn: the step is the COMPLETE of the command that the word in flight decodes to; an illegal
word in flight completes with IllegalCommand and does nothing else; an idle CORE waits. Whose turn it is, the model says
by its list of turns to come (log entry 2). -/
def Obligations.StepRunsDecodedCommand : Prop :=
  ∀ s : State, CoreTurn s →
    (∀ i, s.seq = .busy → decode s.cur = .ok i → step s = exec i s.turnTaken)
      ∧ (s.seq = .busy → decode s.cur = .error .illegalCommand → step s = .next (s.turnTaken.ended .illegalCommand))
      ∧ (s.seq = .idle → step s = .next s.turnTaken)

/-- A CMD write while IDLE: a command with a buffer in the window or with an overlap is a fault, any other word is
latched, BUSY is set and DONE cleared, and nothing else changes. While BUSY it only sets WERR. Which of two faults is
named is the model's choice (log entry 7). -/
def Obligations.CmdWriteIssues : Prop :=
  ∀ (s : State) (w : Word),
    (s.seq = .idle → ∀ i, decode w = .ok i → windowHazard i s = true →
        windowWrite .bits32 0x0C w s = .fault .dmaToWindow)
      ∧ (s.seq = .idle → ∀ i, decode w = .ok i → windowHazard i s = false → overlapHazard i s = true →
        windowWrite .bits32 0x0C w s = .fault .overlapHazard)
      ∧ (s.seq = .idle → (∀ i, decode w = .ok i → windowHazard i s = false ∧ overlapHazard i s = false) →
        windowWrite .bits32 0x0C w s
          = .next { s with cur := w, seq := .busy, done := false, upset := false })
      ∧ (s.seq = .busy → windowWrite .bits32 0x0C w s = .next { s with werr := true })

/-- R67: a command's buffers overlap exactly where two different ones of nonzero length, one of them written, share
a byte, and they are not SRC and DST with the same address and length. -/
def Obligations.OverlapMeansSharedByte : Prop :=
  ∀ (i : Instr) (s : State),
    overlapHazard i s = true ↔
      ∃ (m n : Nat) (a b : Region), m < n ∧ (regions i s)[m]? = some a ∧ (regions i s)[n]? = some b
        ∧ (a.written = true ∨ b.written = true) ∧ (∃ x, a.holds x = true ∧ b.holds x = true)
        ∧ ¬(a.base = b.base ∧ a.len = b.len
            ∧ ((a.role = .source ∧ b.role = .destination) ∨ (a.role = .destination ∧ b.role = .source)))

/-! ### The register window (10_state.md section 2, 20_memory.md section 2) -/

/-- R21, R34, R37: while IDLE an operand register takes any value and reads it back, and no other register reads
otherwise than before. Which register an offset is: 0x10 to 0x2C write the operand registers in the order of R21 and
nothing else; 0x40 + 4k and 0x50 + 4k write bytes 4k to 4k+3 of the blocks DIN and DINB, the first byte in bits 7:0, and
nothing else. -/
def Obligations.OperandRegistersReadBack : Prop :=
  ∀ (s : State) (off : BitVec 8) (v : Word), s.seq = .idle → off.toNat % 4 = 0 →
    (0x10 ≤ off.toNat ∧ off.toNat ≤ 0x2C) ∨ (0x40 ≤ off.toNat ∧ off.toNat ≤ 0x5C) →
    ∃ t, windowWrite .bits32 off v s = .next t
      ∧ (windowRead .bits32 off t).rdata = v
      ∧ (∀ off' : BitVec 8, off' ≠ off →
          (windowRead .bits32 off' t).rdata = (windowRead .bits32 off' s).rdata)
      ∧ t.cur = s.cur ∧ t.ctx = s.ctx ∧ t.mem = s.mem ∧ t.seq = s.seq ∧ t.upset = s.upset
      ∧ (off = 0x10 → t = { s with src := v }) ∧ (off = 0x14 → t = { s with dst := v })
      ∧ (off = 0x18 → t = { s with len := v }) ∧ (off = 0x1C → t = { s with ivaddr := v })
      ∧ (off = 0x20 → t = { s with ivlen := v }) ∧ (off = 0x24 → t = { s with adaddr := v })
      ∧ (off = 0x28 → t = { s with adlen := v }) ∧ (off = 0x2C → t = { s with tagaddr := v })
      ∧ ∀ k, k < 4 →
          (off.toNat = 0x40 + 4 * k → t = { s with din := t.din }
            ∧ ∀ b, b < 16 → byteOf t.din.block b
                = if b / 4 = k then v.extractLsb' (8 * (b % 4)) 8 else byteOf s.din.block b)
          ∧ (off.toNat = 0x50 + 4 * k → t = { s with dinb := t.dinb }
            ∧ ∀ b, b < 16 → byteOf t.dinb.block b
                = if b / 4 = k then v.extractLsb' (8 * (b % 4)) 8 else byteOf s.dinb.block b)

/-- R39: while BUSY a write to CMD, an operand register, DIN or DINB sets WERR and changes nothing else; at any time a
write to a read-only register or a reserved offset changes nothing at all, and a reserved offset reads 0. While BUSY a
read of RESOURCE, ICODE, DOUT or DOUTB is the next free word, and KEYED, COMPAT and ALG are bits of it (log entry 14);
every other register reads as it does when idle. R33 to R38: while IDLE CMD reads 0, each operand register its value,
RESOURCE the resource counter, ICODE the integrity code, and register k of DIN, DINB, DOUT and DOUTB bytes 4k to 4k+3 of
its block, the first byte in bits 7:0. -/
def Obligations.WindowAccessRules : Prop :=
  (∀ (s : State) (off : BitVec 8) (v : Word), off.toNat % 4 = 0 →
    (s.seq = .busy → (0x0C ≤ off.toNat ∧ off.toNat ≤ 0x2C) ∨ (0x40 ≤ off.toNat ∧ off.toNat ≤ 0x5C) →
        windowWrite .bits32 off v s = .next { s with werr := true })
      ∧ (off.toNat = 0 ∨ (0x30 ≤ off.toNat ∧ off.toNat ≤ 0x3C) ∨ 0x60 ≤ off.toNat →
        windowWrite .bits32 off v s = .next s)
      ∧ (off.toNat = 0x38 ∨ off.toNat = 0x3C ∨ 0x80 ≤ off.toNat → (windowRead .bits32 off s).rdata = 0)
      ∧ (s.seq = .busy → off.toNat = 0x30 ∨ off.toNat = 0x34 ∨ (0x60 ≤ off.toNat ∧ off.toNat ≤ 0x7C) →
        windowRead .bits32 off s = { s with rdata := anyWord s.draws, draws := s.draws + 1 })
      ∧ (s.seq = .busy → off.toNat = 0x08 →
        let r := (windowRead .bits32 off s).rdata
        r.getLsbD 2 = (anyWord s.draws).getLsbD 2 ∧ r.getLsbD 4 = (anyWord s.draws).getLsbD 4
          ∧ r.extractLsb' 16 4 = (anyWord s.draws).extractLsb' 16 4 ∧ (windowRead .bits32 off s).draws = s.draws + 1)
      ∧ (s.seq = .busy → off.toNat ≠ 0x08 → (off.toNat < 0x30 ∨ (0x38 ≤ off.toNat ∧ off.toNat < 0x60) ∨ 0x80 ≤ off.toNat) →
        windowRead .bits32 off s = { s with rdata := (windowRead .bits32 off { s with seq := .idle }).rdata }))
    ∧ ∀ s : State, s.seq = .idle →
      let reads (off : Nat) : Word := (windowRead .bits32 (BitVec.ofNat 8 off) s).rdata
      reads 0x0C = 0 ∧ reads 0x10 = s.src ∧ reads 0x14 = s.dst ∧ reads 0x18 = s.len ∧ reads 0x1C = s.ivaddr
        ∧ reads 0x20 = s.ivlen ∧ reads 0x24 = s.adaddr ∧ reads 0x28 = s.adlen ∧ reads 0x2C = s.tagaddr
        ∧ reads 0x30 = s.ctx.res ∧ reads 0x34 = s.ctx.ic
        ∧ ∀ k b, k < 4 → b < 4 →
            (reads (0x40 + 4 * k)).extractLsb' (8 * b) 8 = byteOf s.din.block (4 * k + b)
              ∧ (reads (0x50 + 4 * k)).extractLsb' (8 * b) 8 = byteOf s.dinb.block (4 * k + b)
              ∧ (reads (0x60 + 4 * k)).extractLsb' (8 * b) 8 = byteOf s.dout.block (4 * k + b)
              ∧ (reads (0x70 + 4 * k)).extractLsb' (8 * b) 8 = byteOf s.doutb.block (4 * k + b)

/-- R63: an access that is not a 32-bit access at a multiple of 4 has no register effect; as a write it sets WERR,
as a read it returns 0. -/
def Obligations.PartialWindowAccess : Prop :=
  ∀ (s : State) (size : AccessSize) (off : BitVec 8) (v : Word), size ≠ .bits32 ∨ off.toNat % 4 ≠ 0 →
    windowWrite size off v s = .next { s with werr := true }
      ∧ windowRead size off s = { s with rdata := 0 }

/-- R22, R23: ID always reads 0x52433601, and writes to it are ignored and do not set WERR; CTRL.IE is bit 0, reset to
0, the other bits of CTRL read 0, and a write acts whether or not the CORE is BUSY. -/
def Obligations.IdAndCtrlRegisters : Prop :=
  State.reset.ie = false ∧ ∀ (s : State) (v : Word),
    (windowRead .bits32 0x00 s).rdata = 0x52433601 ∧ windowWrite .bits32 0x00 v s = .next s
      ∧ (windowRead .bits32 0x04 s).rdata = (if s.ie then 1 else 0)
      ∧ windowWrite .bits32 0x04 v s = .next { s with ie := v.getLsbD 0 }

/-- R24, R31, R350: what STATUS reads, bit by bit, idle and BUSY, and what a write to it clears; and the numbers of the
fourteen result codes, from the table of 60_exceptions.md R300, above which ERR never reads. -/
def Obligations.StatusRegister : Prop :=
  (ErrCode.code .ok = 0x00 ∧ ErrCode.code .invalidArgument = 0x01 ∧ ErrCode.code .wrongKeyLength = 0x02
    ∧ ErrCode.code .keyIntegrityViolation = 0x03 ∧ ErrCode.code .resourceExhausted = 0x04
    ∧ ErrCode.code .authenticationFailed = 0x05 ∧ ErrCode.code .allocationFailure = 0x06
    ∧ ErrCode.code .unsupportedPrimitive = 0x07 ∧ ErrCode.code .invalidIVLength = 0x08
    ∧ ErrCode.code .invalidDataLength = 0x09 ∧ ErrCode.code .associatedDataTooLarge = 0x0A
    ∧ ErrCode.code .plaintextTooLarge = 0x0B ∧ ErrCode.code .invalidTagLength = 0x0C
    ∧ ErrCode.code .illegalCommand = 0x0D)
  ∧ ∀ (s : State) (v : Word),
    let r := (windowRead .bits32 0x08 s).rdata
    r.getLsbD 0 = decide (s.seq = .busy) ∧ r.getLsbD 1 = s.done ∧ r.getLsbD 3 = s.werr
      ∧ r.extractLsb' 8 8 = s.err.code ∧ (r.extractLsb' 8 8).toNat ≤ 0x0D ∧ r.extractLsb' 5 3 = 0 ∧ r.extractLsb' 20 12 = 0
      ∧ (s.seq = .idle →
          r.getLsbD 2 = s.ctx.keyed ∧ r.getLsbD 4 = s.ctx.compat ∧ r.extractLsb' 16 4 = s.ctx.alg)
      ∧ windowWrite .bits32 0x08 v s
          = .next { s with done := s.done && !v.getLsbD 1, werr := s.werr && !v.getLsbD 3 }

/-- R311: the IRQ line is IE and DONE; a COMPLETE with IE = 1 and a write of IE = 1 with DONE = 1 raise it; a STATUS
write with bit 1 set, a write of IE = 0 and an ISSUE clear it; it is 0 at reset. -/
def Obligations.IrqLevel : Prop :=
  (∀ s : State, s.irq = (s.ie && s.done)) ∧ State.reset.irq = false
    ∧ (∀ (i : Instr) (s t : State), s.seq = .busy → exec i s = .next t → t.seq = .idle → t.irq = s.ie)
    ∧ (∀ (s : State) (v : Word) (t : State), windowWrite .bits32 0x04 v s = .next t →
        t.irq = (v.getLsbD 0 && s.done))
    ∧ (∀ (s : State) (v : Word) (t : State), windowWrite .bits32 0x08 v s = .next t → v.getLsbD 1 = true →
        t.irq = false)
    ∧ (∀ (s : State) (v : Word) (t : State), s.seq = .idle → windowWrite .bits32 0x0C v s = .next t →
        t.irq = false)

/-! ### The HOST, the ENV and reset -/

/-- R62: a HOST read changes nothing but what the HOST has read and the count of free values; and no HOST access changes
the key context, the results or ERR. -/
def Obligations.HostAccessFrame : Prop :=
  (∀ (s : State) (size : AccessSize) (off : BitVec 8),
      ∃ n v, hostStep (.windowRead size off) s = .next { s with rdata := v, draws := n })
    ∧ (∀ (s : State) (a : Word) (t : State), hostStep (.memRead a) s = .next t →
        ∃ n v, t = { s with rdata := v, draws := n })
    ∧ ∀ (access : HostAccess) (s t : State), hostStep access s = .next t →
        t.ctx = s.ctx ∧ t.dout = s.dout ∧ t.doutb = s.doutb ∧ t.err = s.err ∧ t.plat = s.plat

/-- R36: nothing the HOST does depends on the key words or the round keys, and nothing it reads shows them. -/
def Obligations.KeyStorageUnreadable : Prop :=
  ∀ (access : HostAccess) (s t : State) (k : Vector Word 8) (sk : Vector Word 44),
    hostStep access s = .next t →
      hostStep access { s with ctx := { s.ctx with k := k, s := sk } }
        = .next { t with ctx := { t.ctx with k := k, s := sk } }

/-- R351, R352, R73: a byte the HOST stores outside the regions of the command in flight is what it loads next, and every
other byte is as before; a store into such a region is the fault DmaRace; a load of a byte that the command only reads
gives the byte of memory, and a load of one it writes changes nothing but what the HOST has read and the count of free
values. The model's choices: a byte that does not exist is a fault, also where it is a byte of a region of the command in flight
(log entry 9), a byte of the window is a partial window access (log entry 10). -/
def Obligations.HostMemoryAccess : Prop :=
  ∀ (s : State) (a : Word) (v : Byte),
    (inWindow s.plat a.toNat = true →
        hostStep (.memWrite a v) s = .next { s with werr := true }
          ∧ hostStep (.memRead a) s = .next { s with rdata := 0 })
    ∧ (inWindow s.plat a.toNat = false → memAdmits s.plat a.toNat = false →
        hostStep (.memWrite a v) s = .fault .hostAbsentByte ∧ hostStep (.memRead a) s = .fault .hostAbsentByte)
    ∧ (inWindow s.plat a.toNat = false → memAdmits s.plat a.toNat = true →
    ((∀ r ∈ regionsInFlight s, r.holds a.toNat = false) →
        ∃ t u, hostStep (.memWrite a v) s = .next t ∧ hostStep (.memRead a) t = .next u
          ∧ u.rdata = v.setWidth 32
          ∧ (∀ b, b ≠ a.toNat → t.mem.read b = s.mem.read b)
          ∧ t = { s with mem := t.mem })
      ∧ ∀ (i : Instr) (r : Region), s.seq = .busy → decode s.cur = .ok i → r ∈ regions i s → r.holds a.toNat = true →
          hostStep (.memWrite a v) s = .fault .dmaRace
            ∧ ((∀ q ∈ regions i s, q.written = true → q.holds a.toNat = false) →
                hostStep (.memRead a) s = .next { s with rdata := (s.mem.read a.toNat).setWidth 32 })
            ∧ (r.written = true → ∃ b n, hostStep (.memRead a) s = .next { s with rdata := b, draws := n }))

/-- R45: an upset replaces words of K, S and IC only: a word it names takes the last value it names for it, every other
word is as before. It marks a command in flight (log entry 8); where ALLOW_UPSET is false nothing happens
(log entry 11). -/
def Obligations.UpsetChangesOnlyKeyStorage : Prop :=
  ∀ (s : State) (changes : List (KeyCell × Word)),
    (s.plat.allowUpset = true →
        ∃ k sk ic, upsetStep changes s
          = { s with ctx := { s.ctx with k := k, s := sk, ic := ic }
                     upset := s.upset || decide (s.seq = .busy) }
        ∧ (∀ j : Fin 8, k[j] = (((changes.filter (·.1 = .key j)).map (·.2)).getLast?).getD s.ctx.k[j])
        ∧ (∀ j : Fin 44, sk[j] = (((changes.filter (·.1 = .roundKey j)).map (·.2)).getLast?).getD s.ctx.s[j])
        ∧ ic = (((changes.filter (·.1 = .integrityCode)).map (·.2)).getLast?).getD s.ctx.ic)
      ∧ (s.plat.allowUpset = false → upsetStep changes s = s)

/-- Under the default INTEGRITY_FN a change of any one word of K, S or IC makes the check fail: what R171 itself marks as
derived (each step of its loop is a bijection of ic and of W[j]). -/
def Obligations.SingleWordTamperDetected : Prop :=
  ∀ (s : State) (cell : KeyCell) (v : Word), s.plat.integrity = .rotateXor → s.plat.allowUpset = true →
    keyOk s = true → (upsetStep [(cell, v)] s).ctx ≠ s.ctx → keyOk (upsetStep [(cell, v)] s) = false

/-- R48, R340, R341: reset gives every piece of CORE state its reset value and leaves memory alone but for the written
regions of a command in flight. The model's own fields stay (log entry 15). -/
def Obligations.ResetGivesResetState : Prop :=
  ∀ s : State,
    resetStep s = { State.reset with
        mem := (resetStep s).mem, draws := (resetStep s).draws, plat := s.plat, inputs := s.inputs, rdata := s.rdata }
      ∧ (∀ a, (∀ r ∈ regionsInFlight s, r.written = true → r.holds a = false) →
          (resetStep s).mem.read a = s.mem.read a)

/-- R48: what reset leaves, in the state the machine starts in and after every later reset; a reset while IDLE does not
touch memory. -/
def Obligations.ResetValues : Prop :=
  (∀ s : State, s = State.reset ∨ (∃ s0, s = resetStep s0) →
    s.ie = false ∧ s.done = false ∧ s.werr = false ∧ s.err.code = 0x00 ∧ s.seq = .idle ∧ s.cur = 0
      ∧ s.src = 0 ∧ s.dst = 0 ∧ s.len = 0 ∧ s.ivaddr = 0 ∧ s.ivlen = 0 ∧ s.adaddr = 0 ∧ s.adlen = 0 ∧ s.tagaddr = 0
      ∧ s.din.block = 0 ∧ s.dinb.block = 0 ∧ s.dout.block = 0 ∧ s.doutb.block = 0
      ∧ s.ctx.alg = 0 ∧ s.ctx.compat = false ∧ s.ctx.keyed = false
      ∧ (∀ j : Fin 8, s.ctx.k[j] = 0) ∧ (∀ j : Fin 44, s.ctx.s[j] = 0) ∧ s.ctx.ic = 0 ∧ s.ctx.res = 0
      ∧ s.irq = false
      ∧ (windowRead .bits32 0x00 s).rdata = 0x52433601
      ∧ (windowRead .bits32 0x08 s).rdata = 0 ∧ (windowRead .bits32 0x30 s).rdata = 0
      ∧ (windowRead .bits32 0x34 s).rdata = 0)
    ∧ ∀ s0 : State, s0.seq = .idle → (resetStep s0).mem = s0.mem

/-! ### Control commands and the field unit -/

/-- NOP does nothing but complete. DESTROY zeroes the key storage, keeps ALG and COMPAT, and completes. CREATE with
ALG = 0 clears the key context, records COMPAT and completes; with any other ALG it ends with UnsupportedPrimitive and
the context is unchanged. -/
def Obligations.ControlCommandsComplete : Prop :=
  ∀ (s : State) (compat : Bool) (alg : Nat),
    exec .nop s = .next (s.ended .ok)
      ∧ exec .destroy s = .next (({ s with ctx :=
          { s.ctx with keyed := false, k := Vector.replicate 8 0, s := Vector.replicate 44 0, ic := 0, res := 0 } }
            : State).ended .ok)
      ∧ exec (.create compat 0) s = .next (({ s with ctx :=
          { alg := 0, compat := compat, keyed := false, k := Vector.replicate 8 0, s := Vector.replicate 44 0,
            ic := 0, res := 0 } } : State).ended .ok)
      ∧ (alg ≠ 0 → exec (.create compat alg) s = .next (s.ended .unsupportedPrimitive))

/-- R182: what SETKEY answers where every byte of its buffer exists (else it sticks, R69 and AbsentByteSticksUntilReset), in
the order of its checks: an error code and an unchanged context, or the key of 32 bytes at SRC with its schedule, its
integrity code and a full resource counter. Bytes of a wrapping buffer past 2^32 do not count as absent: the model's
reading (log entry 6). -/
def Obligations.SetkeyLoadsKey : Prop :=
  ∀ s : State,
    (regionsAdmitted .setkey s = true → s.len ≠ 32 → exec .setkey s = .next (s.ended .wrongKeyLength))
      ∧ (regionsAdmitted .setkey s = true → s.len = 32 → regionOk s.src 32 = false →
          exec .setkey s = .next (s.ended .invalidArgument))
      ∧ (s.len = 32 → regionOk s.src 32 = true → BuffersOk .setkey s →
          ∃ k : Vector Word 8,
            exec .setkey s = .next (({ s with ctx :=
              { s.ctx with keyed := true, k := k, s := rc6Schedule k, ic := integrityCode s.plat k (rc6Schedule k),
                           res := s.plat.resourceMax } } : State).ended .ok)
            ∧ ∀ (j : Fin 8) (b : Nat), b < 4 →
                k[j].extractLsb' (8 * b) 8 = s.mem.read (s.src.toNat + 4 * j.val + b))

/-- GFMUL writes the field product of DIN and DINB to DOUT, GFDBL the double of DIN; both always complete. -/
def Obligations.FieldCommandsComplete : Prop :=
  ∀ s : State,
    (∃ r : BlockReg, exec .gfmul s = .next (({ s with dout := r } : State).ended .ok)
        ∧ r.block = gfmul s.din.block s.dinb.block)
      ∧ (∃ r : BlockReg, exec .gfdbl s = .next (({ s with dout := r } : State).ended .ok)
        ∧ r.block = dbl s.din.block)

/-- R122: doubling shifts left by one bit and adds 0x87 if bit 127 was set. That it is multiplication by x,
dbl(v) = gfmul(v, 2), is what R122 itself marks as derived (from R120 and R123). -/
def Obligations.DoublingRule : Prop :=
  ∀ v : Block,
    dbl v = (if v.getLsbD 127 = true then BitVec.ofNat 128 (2 * v.toNat) ^^^ 0x87 else BitVec.ofNat 128 (2 * v.toNat))
      ∧ dbl v = gfmul v 2

/-- R123's product as the sum over i of b[i] * (a * x^i mod f), and its laws: it is commutative, associative and
distributive, 1 is its identity and 0 absorbs. R123 marks the sum and the laws as derived. -/
def Obligations.FieldMultiplication : Prop :=
  ∀ a b c : Block,
    gfmul a b = (List.range 128).foldl (fun r i => if b.getLsbD i = true then r ^^^ dbl^[i] a else r) 0
      ∧ gfmul a b = gfmul b a ∧ gfmul (gfmul a b) c = gfmul a (gfmul b c)
      ∧ gfmul a (b ^^^ c) = gfmul a b ^^^ gfmul a c
      ∧ gfmul a 1 = a ∧ gfmul a 0 = 0

/-! ### RC6 and the block commands -/

/-- R147: decryption undoes encryption for every key. That E is then a permutation of the blocks, so that encryption undoes
decryption too, is what R147 marks as derived (from R145 and R146). -/
def Obligations.Rc6RoundTrip : Prop :=
  ∀ (k : Vector Word 8) (p : Block),
    rc6Decrypt (rc6Schedule k) (rc6Encrypt (rc6Schedule k) p) = p
      ∧ rc6Encrypt (rc6Schedule k) (rc6Decrypt (rc6Schedule k) p) = p

/-- The published RC6-32/20/32 vectors of 95_test_vectors.md section 2, with the key schedule's first and last words. -/
def Obligations.PublishedRc6Vectors : Prop :=
  let s := rc6Schedule (Vector.replicate 8 0)
  roundKey s 0 = 0x65e01b1b ∧ roundKey s 1 = 0xb580202e ∧ roundKey s 42 = 0x3b8a4ba7 ∧ roundKey s 43 = 0x5d5f9bd6
    ∧ rc6Encrypt s 0 = 0xc27e856eda3ffa93a85fd11005bd5f8f
    ∧ integrityDefault (Vector.replicate 8 0) s = 0x6f3bf0f6
    ∧ rc6Encrypt (rc6Schedule #v[0x67452301, 0xefcdab89, 0x34231201, 0x78675645, 0xbcab9a89, 0xf0efdecd,
        0x76543210, 0xfedcba98]) 0xf1e0dfcebdac9b8a7968574635241302 = 0x485d4e67a116ad2089e4d7f0161824c8

/-- With the key ready for one invocation, ENCB and DECB write E(DIN) and D(DIN) to DOUT, and CMACKEYS writes
K1 = dbl(E(0)) to DOUT and K2 = dbl(K1) to DOUTB; each consumes it and changes nothing else. -/
def Obligations.BlockCommandsComplete : Prop :=
  ∀ s : State, KeyReady 1 s →
    (∃ r : BlockReg, exec .encb s = .next (({ s.charged 1 with dout := r } : State).ended .ok)
        ∧ r.block = rc6Encrypt s.ctx.s s.din.block)
      ∧ (∃ r : BlockReg, exec .decb s = .next (({ s.charged 1 with dout := r } : State).ended .ok)
        ∧ r.block = rc6Decrypt s.ctx.s s.din.block)
      ∧ (∃ r1 r2 : BlockReg,
        exec .cmackeys s = .next (({ s.charged 1 with dout := r1, doutb := r2 } : State).ended .ok)
        ∧ r1.block = dbl (rc6Encrypt s.ctx.s 0) ∧ r2.block = dbl r1.block)

/-- R148: COMPAT has no effect on what a command other than CREATE does. -/
def Obligations.CompatHasNoEffect : Prop :=
  ∀ (i : Instr) (s t : State) (c : Bool), (∀ d a, i ≠ .create d a) → exec i s = .next t →
    exec i { s with ctx := { s.ctx with compat := c } } = .next { t with ctx := { t.ctx with compat := c } }

/-! ### Keyed commands in general -/

/-- R172, R173, R174: with its arguments in order, a keyed command ends with KeyIntegrityViolation where no key is set
or the integrity check fails, else with ResourceExhausted where the counter does not cover N; neither changes
anything else. -/
def Obligations.KeyedPrologueErrors : Prop :=
  ∀ (i : Instr) (s : State), isKeyed i = true → ArgsOk i s → BuffersOk i s → s.upset = false →
    (s.ctx.keyed = false ∨ integrityCode s.plat s.ctx.k s.ctx.s ≠ s.ctx.ic →
        exec i s = .next (s.ended .keyIntegrityViolation))
      ∧ (s.ctx.keyed = true → integrityCode s.plat s.ctx.k s.ctx.s = s.ctx.ic → s.ctx.res.toNat < invocations i s →
        exec i s = .next (s.ended .resourceExhausted))

/-- R45, U8: a keyed command with an upset in flight ends OK or with KeyIntegrityViolation, as a free bit says; on
KeyIntegrityViolation nothing else changes; on OK every byte of its written regions is a free byte, and so is every byte
of DOUT and DOUTB where the command writes them, and nothing else of memory, DOUT and DOUTB changes. The model's choice, by
R173 (log entry 8): on OK N is consumed where RES covers it, else RES stays. -/
def Obligations.UpsetInFlightOutcomes : Prop :=
  ∀ (i : Instr) (s : State), isKeyed i = true → BuffersOk i s → s.upset = true →
    ∃ t, exec i s = .next t
      ∧ (anyBool s.draws = false → t = { s.ended .keyIntegrityViolation with draws := t.draws })
      ∧ (anyBool s.draws = true →
          t = { (if s.ctx.res.toNat < invocations i s then s else s.charged (invocations i s)).ended .ok with
                  mem := t.mem, dout := t.dout, doutb := t.doutb, draws := t.draws }
            ∧ (∀ r ∈ regions i s, r.written = true → ∀ a, a < 2 ^ 32 → r.holds a = true →
                ∃ n, s.draws ≤ n ∧ n < t.draws ∧ t.mem.read a = anyByte n)
            ∧ (∀ a, (∀ r ∈ regions i s, r.written = true → r.holds a = false) → t.mem.read a = s.mem.read a)
            ∧ (writesDout i = false → t.dout = s.dout) ∧ (i ≠ .cmackeys → t.doutb = s.doutb)
            ∧ (writesDout i = true → ∃ n, s.draws ≤ n ∧ ∀ k, k < 16 → byteOf t.dout.block k = anyByte (n + k))
            ∧ (i = .cmackeys → ∃ n, s.draws ≤ n ∧ ∀ k, k < 16 → byteOf t.doutb.block k = anyByte (n + k)))

/-- R69, U5: a command with a byte of a region that does not exist, whatever its arguments and its key, changes nothing: no
code, BUSY stays as it is. Once so stuck, the CORE stays stuck on that word until a reset. -/
def Obligations.AbsentByteSticksUntilReset : Prop :=
  (∀ (i : Instr) (s : State), windowHazard i s = false → overlapHazard i s = false →
      regionsAdmitted i s = false → exec i s = .next s)
    ∧ ∀ s t : State, Stuck s → (∀ rest, s.inputs ≠ .reset :: rest) → step s = .next t →
        Stuck t ∧ t.cur = s.cur ∧ t.err = s.err

/-! ### Chaining modes -/

/-- ECB.E, ECB.D, CBC.E and CBC.D: with operands in order and the key ready, the command stores the text, transformed, at
DST, consumes LEN/16 invocations, and changes nothing else. -/
def Obligations.EcbCbcComplete : Prop :=
  ∀ s : State, WholeBlocks s → TextOk s → KeyReady (s.len.toNat / 16) s →
    (∀ i out, (i = .ecbE ∧ out = ecbText (rc6Encrypt s.ctx.s) (sourceText s))
        ∨ (i = .ecbD ∧ out = ecbText (rc6Decrypt s.ctx.s) (sourceText s))
        ∨ (ChainIvOk s ∧ i = .cbcE ∧ out = chainText (cbcEncryptStep s.ctx.s) (sourceIv s) (sourceText s))
        ∨ (ChainIvOk s ∧ i = .cbcD ∧ out = chainText (cbcDecryptStep s.ctx.s) (sourceIv s) (sourceText s)) →
      BuffersOk i s →
      ∃ m : Memory, exec i s = .next (({ s.charged (s.len.toNat / 16) with mem := m } : State).ended .ok)
        ∧ HoldsAt m s.mem s.dst.toNat out)

/-- CFB.E, CFB.D, OFB and CTR, the last two with either DIR: with operands in order and the key ready, the command stores
the text, transformed, at DST, consumes ceil(LEN/16) invocations, and changes nothing else. -/
def Obligations.StreamModesComplete : Prop :=
  ∀ s : State, TextOk s → KeyReady ((s.len.toNat + 15) / 16) s →
    (∀ i out, (ChainIvOk s ∧ i = .cfbE ∧ out = chainText (cfbEncryptStep s.ctx.s) (sourceIv s) (sourceText s))
        ∨ (ChainIvOk s ∧ i = .cfbD ∧ out = chainText (cfbDecryptStep s.ctx.s) (sourceIv s) (sourceText s))
        ∨ (ChainIvOk s ∧ (∃ dir, i = .ofb dir) ∧ out = chainText (ofbStep s.ctx.s) (sourceIv s) (sourceText s))
        ∨ (CtrIvOk s ∧ (∃ dir, i = .ctr dir) ∧ out = ctrText s.ctx.s (sourceIv s) (sourceText s)) →
      BuffersOk i s →
      ∃ m : Memory, exec i s = .next (({ s.charged ((s.len.toNat + 15) / 16) with mem := m } : State).ended .ok)
        ∧ HoldsAt m s.mem s.dst.toNat out)

/-- The block equations of ECB and CBC with an IV of z blocks (R201, R210 to R214): block i of the output is under E or
D, chained with block i of the IV for i < z and with the ciphertext z blocks earlier for i >= z; the output is as long as
the text. -/
def Obligations.EcbCbcBlockEquations : Prop :=
  ∀ (s : Vector Word 44) (iv text : Bytes) (z i : Nat), iv.length = 16 * z → 0 < z → text.length % 16 = 0 →
    i < text.length / 16 →
      (ecbText (rc6Encrypt s) text).length = text.length ∧ (ecbText (rc6Decrypt s) text).length = text.length
      ∧ (chainText (cbcEncryptStep s) iv text).length = text.length
      ∧ (chainText (cbcDecryptStep s) iv text).length = text.length
      ∧ blockAt (ecbText (rc6Encrypt s) text) i = rc6Encrypt s (blockAt text i)
      ∧ blockAt (ecbText (rc6Decrypt s) text) i = rc6Decrypt s (blockAt text i)
      ∧ (let out := chainText (cbcEncryptStep s) iv text
         blockAt out i = rc6Encrypt s (blockAt text i ^^^ (if i < z then blockAt iv i else blockAt out (i - z))))
      ∧ blockAt (chainText (cbcDecryptStep s) iv text) i
          = rc6Decrypt s (blockAt text i) ^^^ (if i < z then blockAt iv i else blockAt text (i - z))

/-- The byte equations of the stream modes (R201, R216 to R221, R245): byte k of the output is byte k of the text under
byte k mod 16 of keystream block i = k / 16, which is E of: the ciphertext z blocks earlier (CFB), the keystream
block z blocks earlier (OFB: E applied i / z + 1 times to block i mod z of the IV), T0 + i (CTR), Y_i (MGM); the output
is as long as the text. -/
def Obligations.StreamByteEquations : Prop :=
  ∀ (p : Platform) (s : Vector Word 44) (nu : Block) (iv text : Bytes) (z k : Nat), iv.length = 16 * z → 0 < z →
    k < text.length →
      (chainText (cfbEncryptStep s) iv text).length = text.length
      ∧ (chainText (cfbDecryptStep s) iv text).length = text.length
      ∧ (chainText (ofbStep s) iv text).length = text.length ∧ (ctrText s iv text).length = text.length
      ∧ (mgmText p s nu text).length = text.length
      ∧ (let out := chainText (cfbEncryptStep s) iv text
       out.getD k 0 = text.getD k 0
          ^^^ byteOf (rc6Encrypt s (if k / 16 < z then blockAt iv (k / 16) else blockAt out (k / 16 - z))) (k % 16))
      ∧ (chainText (cfbDecryptStep s) iv text).getD k 0 = text.getD k 0
          ^^^ byteOf (rc6Encrypt s (if k / 16 < z then blockAt iv (k / 16) else blockAt text (k / 16 - z))) (k % 16)
      ∧ (chainText (ofbStep s) iv text).getD k 0 = text.getD k 0
          ^^^ byteOf ((rc6Encrypt s)^[k / 16 / z + 1] (blockAt iv (k / 16 % z))) (k % 16)
      ∧ (∀ iv8 : Bytes, iv8.length = 8 → (ctrText s iv8 text).getD k 0 = text.getD k 0
          ^^^ byteOf (rc6Encrypt s (blockAt iv8 0 <<< 64 + BitVec.ofNat 128 (k / 16))) (k % 16))
      ∧ (mgmText p s nu text).getD k 0 = text.getD k 0
          ^^^ byteOf (rc6Encrypt s ((incY p)^[k / 16] (mgmY0 p s nu))) (k % 16)

/-- R222, the round trips: decryption gives the text back in every mode, and OFB and CTR undo themselves. -/
def Obligations.ModesRoundTrip : Prop :=
  ∀ (s : Vector Word 44) (iv text : Bytes) (z : Nat), iv.length = 16 * z → 0 < z →
    (text.length % 16 = 0 →
        ecbText (rc6Decrypt s) (ecbText (rc6Encrypt s) text) = text
        ∧ chainText (cbcDecryptStep s) iv (chainText (cbcEncryptStep s) iv text) = text)
      ∧ chainText (cfbDecryptStep s) iv (chainText (cfbEncryptStep s) iv text) = text
      ∧ chainText (ofbStep s) iv (chainText (ofbStep s) iv text) = text
      ∧ ∀ iv8 : Bytes, ctrText s iv8 (ctrText s iv8 text) = text

/-! ### MGM -/

/-- MGM.E: with operands in order and the key ready, the command stores the ciphertext at DST and the first L bytes of
the tag at TAGADDR, consumes N, and changes nothing else. -/
def Obligations.MgmEncryptCompletes : Prop :=
  ∀ (s : State) (l : Nat), MgmOk l s → BuffersOk (.mgmE l) s → KeyReady (invocations (.mgmE l) s) s →
    let cipher := mgmText s.plat s.ctx.s (sourceNonce s) (sourceText s)
    let tag := bytesOf (mgmTag s.plat s.ctx.s (sourceNonce s) (sourceAd s) cipher)
    ∃ m m1 : Memory,
      exec (.mgmE l) s = .next (({ s.charged (invocations (.mgmE l) s) with mem := m } : State).ended .ok)
        ∧ HoldsAt m1 s.mem s.dst.toNat cipher ∧ HoldsAt m m1 s.tagaddr.toNat (tag.take l)

/-- MGM.D: where the tag over the received ciphertext matches the received one, the command stores the plaintext at DST
and ends OK; else it ends with AuthenticationFailed and stores nothing; it consumes N on both outcomes. -/
def Obligations.MgmDecryptVerifies : Prop :=
  ∀ (s : State) (l : Nat), MgmOk l s → BuffersOk (.mgmD l) s → KeyReady (invocations (.mgmD l) s) s →
    let received := s.mem.readBytes s.tagaddr.toNat l
    let tag := bytesOf (mgmTag s.plat s.ctx.s (sourceNonce s) (sourceAd s) (sourceText s))
    (tag.take l = received → ∃ m : Memory,
        exec (.mgmD l) s = .next (({ s.charged (invocations (.mgmD l) s) with mem := m } : State).ended .ok)
        ∧ HoldsAt m s.mem s.dst.toNat (mgmText s.plat s.ctx.s (sourceNonce s) (sourceText s)))
      ∧ (tag.take l ≠ received →
        exec (.mgmD l) s = .next ((s.charged (invocations (.mgmD l) s)).ended .authenticationFailed))

/-- AEAD correctness on the machine, which R253 marks as derived (from R245, R248, R250 and R251), for an MGM.D in place:
after MGM.E, an MGM.D with SRC = DST and the same nonce, associated data, tag and key ends OK and gives the plaintext
back. -/
def Obligations.MgmDecryptUndoesEncrypt : Prop :=
  ∀ (s : State) (l : Nat), MgmOk l s → BuffersOk (.mgmE l) s → KeyReady (2 * invocations (.mgmE l) s) s →
    ∃ t u : State, exec (.mgmE l) s = .next t ∧ exec (.mgmD l) { t with src := s.dst } = .next u
      ∧ u.err = .ok ∧ u.mem.readBytes s.dst.toNat s.len.toNat = sourceText s

/-- R241, R242: nonces that differ only in bit 127 give the same ciphertext and tag. -/
def Obligations.NonceTopBitIgnored : Prop :=
  ∀ (p : Platform) (s : Vector Word 44) (nu nu' : Block) (ad text : Bytes),
    nu.extractLsb' 0 127 = nu'.extractLsb' 0 127 →
      mgmText p s nu text = mgmText p s nu' text ∧ mgmTag p s nu ad text = mgmTag p s nu' ad text

/-- R244, R246, R247: the accumulator is the exclusive-or of H_j * X_j, with H_j = E(Z_j) and Z_j the counter Z0 advanced j
times; the blocks are those of A, those of C, then the length block; the tag is E of the accumulator, or the accumulator
and E of the terminal counter Z_{m+1}, as MGM_TAG_FINAL says. -/
def Obligations.MgmAccumulator : Prop :=
  (∀ (p : Platform) (s : Vector Word 44) (z : Block) (xs : List Block),
      mgmFold p s 0 z xs
        = ((List.range xs.length).foldl
            (fun acc j => acc ^^^ gfmul (rc6Encrypt s ((incZ p)^[j] z)) (xs.getD j 0)) 0,
           (incZ p)^[xs.length] z))
    ∧ ∀ ad cipher : Bytes,
        let h := (ad.length + 15) / 16
        let q := (cipher.length + 15) / 16
        (mgmBlocks ad cipher).length = h + q + 1
          ∧ (∀ j, j < h → (mgmBlocks ad cipher).getD j 0 = blockAt ad j)
          ∧ (∀ j, j < q → (mgmBlocks ad cipher).getD (h + j) 0 = blockAt cipher j)
          ∧ (ad.length < 2 ^ 32 → cipher.length < 2 ^ 32 →
              ((mgmBlocks ad cipher).getD (h + q) 0).toNat = 8 * ad.length * 2 ^ 64 + 8 * cipher.length)
          ∧ ∀ (p : Platform) (s : Vector Word 44) (nu : Block),
              let z := fun j => (incZ p)^[j] (mgmZ0 p s nu)
              let acc := (List.range (h + q + 1)).foldl
                (fun acc j => acc ^^^ gfmul (rc6Encrypt s (z j)) ((mgmBlocks ad cipher).getD j 0)) 0
              (p.mgmFinal = .encryptAcc → mgmTag p s nu ad cipher = rc6Encrypt s acc)
                ∧ (p.mgmFinal = .xorEncCounter →
                    mgmTag p s nu ad cipher = acc ^^^ rc6Encrypt s (z (h + q + 1)))

/-! ### CMAC -/

/-- CMAC: with operands in order and the key ready, the command stores the first L bytes of the tag at TAGADDR, consumes
1 + max(1, ceil(LEN/16)) invocations, and changes nothing else. The empty message is in order. -/
def Obligations.CmacCompletes : Prop :=
  ∀ (s : State) (l : Nat), CmacOk l s → BuffersOk (.cmac l) s → KeyReady (invocations (.cmac l) s) s →
    ∃ m : Memory,
      exec (.cmac l) s = .next (({ s.charged (1 + max 1 ((s.len.toNat + 15) / 16)) with mem := m } : State).ended .ok)
        ∧ HoldsAt m s.mem s.tagaddr.toNat ((bytesOf (cmacTag s.ctx.s (sourceText s))).take l)

/-- R271: the tag of a message `p || q`, where `p` is whole blocks and `q` the last 1 to 16 bytes (none only for the empty
message): E of the chained state and `q` under K1 where it is complete, else `q || 80 || 00 ..` under K2. -/
def Obligations.CmacEquation : Prop :=
  ∀ (s : Vector Word 44) (p q : Bytes), p.length % 16 = 0 → q.length ≤ 16 → (q = [] → p = []) →
    let k1 := dbl (rc6Encrypt s 0)
    let st := (List.range (p.length / 16)).foldl (fun st i => rc6Encrypt s (st ^^^ blockAt p i)) 0
    cmacTag s (p ++ q) =
      rc6Encrypt s (st ^^^ (if q.length = 16 then blockOf q ^^^ k1
        else blockOf (q ++ [0x80] ++ List.replicate (15 - q.length) 0) ^^^ dbl k1))

/-! ### Errors -/

/-- R201, R202: the code ECB, CBC, CFB, OFB and CTR report, in the order of their checks, where every byte of their regions
exists (else they stick, R69) and no upset is in flight (R45); the command then changes nothing else. Bytes of a wrapping
buffer past 2^32 do not count as absent: the model's reading (log entry 6). -/
def Obligations.ModeCheckOrder : Prop :=
  ∀ (i : Instr) (s : State) (chained whole ctr : Bool),
    (match i with
      | .ecbE | .ecbD => chained = false ∧ whole = true ∧ ctr = false
      | .cbcE | .cbcD => chained = true ∧ whole = true ∧ ctr = false
      | .cfbE | .cfbD | .ofb _ => chained = true ∧ whole = false ∧ ctr = false
      | .ctr _ => chained = false ∧ whole = false ∧ ctr = true
      | _ => False) →
    let code : Option ErrCode :=
      if chained = true ∧ (s.ivlen = 0 ∨ s.ivlen.toNat % 16 ≠ 0) then some .invalidIVLength
      else if ctr = true ∧ s.ivlen ≠ 8 then some .invalidIVLength
      else if chained = true ∧ s.plat.zMax < s.ivlen.toNat / 16 then some .allocationFailure
      else if whole = true ∧ s.len.toNat % 16 ≠ 0 then some .invalidDataLength
      else if s.len = 0 ∨ regionOk s.src s.len.toNat = false ∨ regionOk s.dst s.len.toNat = false
          ∨ ((chained = true ∨ ctr = true) ∧ regionOk s.ivaddr s.ivlen.toNat = false) then some .invalidArgument
      else none
    (∀ e, code = some e → s.upset = false → regionsAdmitted i s = true → exec i s = .next (s.ended e))
      ∧ (code = none ↔ ArgsOk i s)

/-- R249, R272: the code MGM and CMAC report, in the order of their checks, where every byte of their regions exists (else
they stick, R69) and no upset is in flight (R45); the command then changes nothing else. Bytes of a wrapping buffer past
2^32 do not count as absent: the model's reading (log entry 6). -/
def Obligations.MacCheckOrder : Prop :=
  ∀ (s : State) (l : Nat), s.upset = false →
    (let code : Option ErrCode :=
        if l = 0 ∨ 16 < l then some .invalidTagLength
        else if s.ivlen ≠ 16 then some .invalidIVLength
        else if s.plat.mgmMaxAd < s.adlen.toNat then some .associatedDataTooLarge
        else if s.plat.mgmMaxText < s.len.toNat then some .plaintextTooLarge
        else if s.adlen.toNat + s.len.toNat = 0 ∨ regionOk s.ivaddr 16 = false
            ∨ regionOk s.adaddr s.adlen.toNat = false ∨ regionOk s.src s.len.toNat = false
            ∨ regionOk s.dst s.len.toNat = false ∨ regionOk s.tagaddr l = false then some .invalidArgument
        else none
      ∀ e, code = some e →
        (regionsAdmitted (.mgmE l) s = true → exec (.mgmE l) s = .next (s.ended e))
          ∧ (regionsAdmitted (.mgmD l) s = true → exec (.mgmD l) s = .next (s.ended e)))
    ∧ (let code : Option ErrCode :=
        if l = 0 ∨ 16 < l then some .invalidTagLength
        else if regionOk s.src s.len.toNat = false ∨ regionOk s.tagaddr l = false then some .invalidArgument
        else none
      ∀ e, code = some e → regionsAdmitted (.cmac l) s = true → exec (.cmac l) s = .next (s.ended e))

/-- R303: a COMPLETE that ends with an error, IllegalCommand included, leaves no other trace than STATUS: memory, DOUT,
DOUTB and every register are as before, and so is the key context but for AuthenticationFailed, which only MGM.D reports
and which takes N off RES. -/
def Obligations.ErrorsLeaveNoTrace : Prop :=
  ∀ s t : State, s.seq = .busy → coreStep s = .next t → t.seq = .idle → t.err ≠ .ok →
    t = { s.ended t.err with draws := t.draws, ctx := t.ctx }
      ∧ (t.err ≠ .authenticationFailed → t.ctx = s.ctx)
      ∧ (t.err = .authenticationFailed → ∃ l, decode s.cur = .ok (.mgmD l)
          ∧ t.ctx = { s.ctx with res := s.ctx.res - BitVec.ofNat 32 (invocations (.mgmD l) s) })

/-! ### What no command does -/

/-- A command changes no HOST register, no enable, no WERR, no parameter and no turn to come. -/
def Obligations.CommandFrame : Prop :=
  ∀ (i : Instr) (s t : State), exec i s = .next t →
    t = { s with err := t.err, done := t.done, seq := t.seq, upset := t.upset, draws := t.draws,
                 ctx := t.ctx, mem := t.mem, dout := t.dout, doutb := t.doutb }
      ∧ (writesDout i = false → t.dout = s.dout ∧ t.doutb = s.doutb)
      ∧ (i ≠ .cmackeys → t.doutb = s.doutb)

/-- R61, R68: a command stores to no byte outside its written regions, whatever it answers. -/
def Obligations.CommandMemoryFrame : Prop :=
  ∀ (i : Instr) (s t : State), exec i s = .next t →
    ∀ a, (∀ r ∈ regions i s, r.written = true → r.holds a = false) → t.mem.read a = s.mem.read a

/-- R47, R173, R174: a command writes KEYED, COMPAT, ALG, the key words, the round keys and the integrity code only as
CREATE, SETKEY and DESTROY do; any other command changes nothing of the context but RES, which falls by N on OK and on
AuthenticationFailed and stays on any other end and where the CORE is stuck. With an upset in flight a command can end OK
with an RES below N; RES then stays (the model's choice, log entry 8). -/
def Obligations.ContextFrame : Prop :=
  ∀ (i : Instr) (s t : State), exec i s = .next t → s.seq = .busy →
    (∀ c a, i ≠ .create c a) → i ≠ .setkey → i ≠ .destroy →
      t.ctx = { s.ctx with res := t.ctx.res }
        ∧ (if t.seq = .idle ∧ (t.err = .ok ∨ t.err = .authenticationFailed)
              ∧ ¬(s.upset = true ∧ s.ctx.res.toNat < invocations i s)
            then t.ctx.res.toNat + invocations i s = s.ctx.res.toNat
            else t.ctx.res = s.ctx.res)

/-! ### Invariants -/

/-- Every step keeps memory canonical, with no byte listed that does not exist. -/
def Obligations.StepKeepsMemory : Prop :=
  ∀ s t : State, MemInv s → step s = .next t → MemInv t

/-- R42: every step keeps the invariants of the key context. -/
def Obligations.StepKeepsKeyContext : Prop :=
  ∀ s t : State, KeyInv s → step s = .next t → KeyInv t

/-- Every step keeps the invariants of the sequencer: DONE is 0 while BUSY (R26, R40); the mark of an upset, which is the
model's own field (log entry 8), stands only with a command in flight and ALLOW_UPSET true (R45); the command in flight
has no buffer in the window (R60) and no overlap (R67), which an ISSUE has seen to (log entry 7). -/
def Obligations.StepKeepsSequencer : Prop :=
  ∀ s t : State, SeqInv s → step s = .next t → SeqInv t

/-- The invariants hold at reset. -/
def Obligations.ResetMeetsInvariants : Prop :=
  MemInv State.reset ∧ KeyInv State.reset ∧ SeqInv State.reset

/-- R42 (c), R306: RES rises only by a SETKEY that ends OK, to RESOURCE_MAX; the parameters never change. -/
def Obligations.OnlySetkeyRenewsResource : Prop :=
  ∀ s t : State, step s = .next t →
    t.plat = s.plat
      ∧ (t.ctx.res.toNat ≤ s.ctx.res.toNat
        ∨ (CoreTurn s ∧ s.seq = .busy ∧ decode s.cur = .ok .setkey ∧ t.err = .ok
            ∧ t.ctx.res = s.plat.resourceMax))

/-- R32: ERR is written only by a COMPLETE or a reset. -/
def Obligations.ErrWrittenOnlyByComplete : Prop :=
  ∀ s t : State, step s = .next t →
    t.err = s.err ∨ (∃ rest, s.inputs = .reset :: rest) ∨ (CoreTurn s ∧ s.seq = .busy ∧ t.seq = .idle ∧ t.done = true)

/-- R360: where it is the CORE's turn (log entry 2), a command in flight whose buffers are apart and there completes in that
step. Bytes of a wrapping buffer past 2^32 do not count as absent: the model's reading (log entry 6). -/
def Obligations.CommandsComplete : Prop :=
  ∀ (s : State) (i : Instr), CoreTurn s → s.seq = .busy → decode s.cur = .ok i → BuffersOk i s →
    ∃ t, step s = .next t ∧ t.seq = .idle ∧ t.done = true

/-! ### The regions of a command and the counters of MGM -/

/-- R61, R67: which regions a command has: their role, base, length, and whether the command writes them, each at most once
and of nonzero length. A command hits the window exactly where a region holds a byte of it (R60). It has an absent byte
(R69) exactly where MEM_ADMITS is false of a byte of a region below 2^32; that bytes past 2^32 do not count as absent is
the model's reading (log entry 6). -/
def Obligations.CommandRegions : Prop :=
  ∀ (i : Instr) (s : State),
    (∀ r : Region, r ∈ regions i s ↔ 0 < r.len ∧
        ((r.role = .source ∧ r.base = s.src.toNat ∧ r.written = false
            ∧ (match i with
              | .setkey => r.len = 32
              | .ecbE | .ecbD | .cbcE | .cbcD | .cfbE | .cfbD | .ofb _ | .ctr _ | .mgmE _ | .mgmD _ | .cmac _ =>
                r.len = s.len.toNat
              | _ => False))
          ∨ (r.role = .destination ∧ r.base = s.dst.toNat ∧ r.len = s.len.toNat ∧ r.written = true
            ∧ (match i with
              | .ecbE | .ecbD | .cbcE | .cbcD | .cfbE | .cfbD | .ofb _ | .ctr _ | .mgmE _ | .mgmD _ => True
              | _ => False))
          ∨ (r.role = .iv ∧ r.base = s.ivaddr.toNat ∧ r.written = false
            ∧ (match i with
              | .cbcE | .cbcD | .cfbE | .cfbD | .ofb _ | .ctr _ => r.len = s.ivlen.toNat
              | .mgmE _ | .mgmD _ => r.len = 16
              | _ => False))
          ∨ (r.role = .associatedData ∧ r.base = s.adaddr.toNat ∧ r.len = s.adlen.toNat ∧ r.written = false
            ∧ ∃ l, i = .mgmE l ∨ i = .mgmD l)
          ∨ (r.role = .tag ∧ r.base = s.tagaddr.toNat
            ∧ (match i with
              | .mgmE l | .cmac l => r.len = l ∧ r.written = true
              | .mgmD l => r.len = l ∧ r.written = false
              | _ => False))))
      ∧ ((regions i s).map (·.role)).Nodup
      ∧ (windowHazard i s = true ↔ ∃ r ∈ regions i s, ∃ a, r.holds a = true ∧ inWindow s.plat a = true)
      ∧ (regionsAdmitted i s = false ↔
          ∃ r ∈ regions i s, ∃ a, a < 2 ^ 32 ∧ r.holds a = true ∧ memAdmits s.plat a = false)

/-- R242, R243: the counters of MGM start at the nonce with bit 127 forced to 0 and to 1, under E where
MGM_COUNTER_DERIVE is ENCRYPTED; they advance by 1 modulo 2^128, or, where MGM_INCREMENT is HALVES, Y in its low half
and Z in its high half, modulo 2^64. -/
def Obligations.MgmCounters : Prop :=
  ∀ (p : Platform) (s : Vector Word 44) (nu c : Block),
    (∃ y z : Block, y.toNat = nu.toNat % 2 ^ 127 ∧ z.toNat = nu.toNat % 2 ^ 127 + 2 ^ 127
        ∧ (p.mgmDerive = .direct → mgmY0 p s nu = y ∧ mgmZ0 p s nu = z)
        ∧ (p.mgmDerive = .encrypted → mgmY0 p s nu = rc6Encrypt s y ∧ mgmZ0 p s nu = rc6Encrypt s z))
      ∧ (p.mgmIncrement = .full →
          (incY p c).toNat = (c.toNat + 1) % 2 ^ 128 ∧ (incZ p c).toNat = (c.toNat + 1) % 2 ^ 128)
      ∧ (p.mgmIncrement = .halves →
          (incY p c).toNat = c.toNat / 2 ^ 64 * 2 ^ 64 + (c.toNat + 1) % 2 ^ 64
            ∧ (incZ p c).toNat = (c.toNat / 2 ^ 64 + 1) % 2 ^ 64 * 2 ^ 64 + c.toNat % 2 ^ 64)
end

