-- ==== Sys2Proof/Laws/Memory.lean ====
section
/-!
SUPPORT. The laws of system memory: what a read gives after a write, and that every memory operation keeps the
canonical form.
-/

namespace Sys2Proof.Machine

/-! ### Reads after writes -/

@[simp] theorem Memory.read_nil (a : Nat) : Memory.read [] a = unlistedByte := rfl

theorem Memory.read_cons (k : Nat) (v : Byte) (m : Memory) (a : Nat) :
    Memory.read ((k, v) :: m) a = if k = a then v else Memory.read m a := rfl

theorem Memory.read_erase (m : Memory) (a b : Nat) :
    (m.erase a).read b = if b = a then unlistedByte else m.read b := by
  induction m with
  | nil => simp [Memory.erase]
  | cons c m ih =>
    obtain ⟨k, v⟩ := c
    unfold Memory.erase at ih ⊢
    by_cases hk : k = a
    · subst hk
      by_cases hb : b = k
      · simp_all
      · simp_all [Memory.read_cons, Ne.symm hb]
    · by_cases hb : b = a
      · subst hb
        simp_all [Memory.read_cons]
      · simp_all [Memory.read_cons]

theorem Memory.read_insert (m : Memory) (a b : Nat) (v : Byte) (h : m.read a = unlistedByte ∨ b ≠ a) :
    (∀ c ∈ m, c.1 ≠ a) → (m.insert a v).read b = if b = a then v else m.read b := by
  induction m with
  | nil => intro _; simp only [Memory.insert, Memory.read_cons, Memory.read_nil, eq_comm]
  | cons c m ih =>
    obtain ⟨k, x⟩ := c
    intro hm
    have hk : k ≠ a := hm (k, x) (by simp)
    have ih := ih (by rcases h with h | h <;> simp_all [Memory.read_cons]) (fun c hc => hm c (by simp [hc]))
    unfold Memory.insert
    split
    · simp only [Memory.read_cons, eq_comm]
    · simp only [Memory.read_cons, ih]
      by_cases hb : b = a
      · subst hb; simp [hk]
      · simp [hb]

theorem Memory.erase_absent (m : Memory) (a : Nat) : ∀ c ∈ m.erase a, c.1 ≠ a := by
  intro c hc
  simpa using (List.mem_filter.mp hc).2

/-- The basic law of memory: a write is read back, and every other byte is as before (R70). -/
theorem Memory.read_write (m : Memory) (a b : Nat) (v : Byte) :
    (m.write a v).read b = if b = a then v else m.read b := by
  unfold Memory.write
  split
  · rename_i h; rw [Memory.read_erase, h]
  · rw [Memory.read_insert _ _ _ _ (.inl (by simp [Memory.read_erase])) (Memory.erase_absent m a), Memory.read_erase]
    split <;> rfl

/-- What memory reads after a byte string is stored (R11). -/
theorem Memory.read_writeBytes (bs : Bytes) (m : Memory) (base a : Nat) :
    (m.writeBytes base bs).read a
      = if base ≤ a ∧ a < base + bs.length then bs.getD (a - base) 0 else m.read a := by
  induction bs generalizing m base with
  | nil => simp [Memory.writeBytes]
  | cons b bs ih =>
    rw [Memory.writeBytes, ih, Memory.read_write]
    by_cases h1 : a = base
    · subst h1; simp
    · by_cases h2 : base + 1 ≤ a ∧ a < base + 1 + bs.length
      · have : a - base = (a - (base + 1)) + 1 := by omega
        simp only [h2, and_self, if_true, this, List.getD_cons_succ]
        rw [if_pos (by simp only [List.length_cons]; omega)]
      · rw [if_neg h2, if_neg h1, if_neg (by simp only [List.length_cons]; omega)]

@[simp] theorem Memory.length_readBytes (m : Memory) (a n : Nat) : (m.readBytes a n).length = n := by
  induction n generalizing a with
  | zero => rfl
  | succ n ih => simp [Memory.readBytes, ih]

theorem Memory.getD_readBytes (m : Memory) (a n k : Nat) (h : k < n) : (m.readBytes a n).getD k 0 = m.read (a + k) := by
  induction n generalizing a k with
  | zero => omega
  | succ n ih =>
    cases k with
    | zero => simp [Memory.readBytes]
    | succ k =>
      rw [Memory.readBytes, List.getD_cons_succ, ih _ _ (by omega)]
      congr 1
      omega

/-- Equal bytes read equal strings. -/
theorem Memory.readBytes_congr (m m' : Memory) (a n : Nat) (h : ∀ k, k < n → m.read (a + k) = m'.read (a + k)) :
    m.readBytes a n = m'.readBytes a n := by
  induction n generalizing a with
  | zero => rfl
  | succ n ih =>
    simp only [Memory.readBytes]
    rw [show m.read a = m'.read a from h 0 (by omega), ih (a + 1)]
    intro k hk
    have := h (k + 1) (by omega)
    rwa [show a + (k + 1) = a + 1 + k by omega] at this

/-! ### The canonical form -/

/-- The canonical form, said without recursion: addresses strictly rising and below 2^32, no unlisted value. -/
theorem Memory.wf_iff (m : Memory) :
    m.wf = true ↔ m.Pairwise (fun c d => c.1 < d.1) ∧ ∀ c ∈ m, c.1 < 2 ^ 32 ∧ c.2 ≠ unlistedByte := by
  induction m with
  | nil => simp [Memory.wf]
  | cons c m ih =>
    obtain ⟨a, v⟩ := c
    cases m with
    | nil => simp [Memory.wf]
    | cons d m =>
      obtain ⟨b, w⟩ := d
      simp only [Memory.wf, Bool.and_eq_true, ih, decide_eq_true_eq, bne_iff_ne]
      constructor
      · rintro ⟨⟨hab, hv⟩, hp, hall⟩
        refine ⟨List.pairwise_cons.mpr ⟨?_, hp⟩, ?_⟩
        · intro c hc
          rcases List.mem_cons.mp hc with rfl | hc
          · exact hab
          · exact Nat.lt_trans hab ((List.pairwise_cons.mp hp).1 c hc)
        · intro c hc
          rcases List.mem_cons.mp hc with rfl | hc
          · exact ⟨Nat.lt_trans hab (hall (b, w) (by simp)).1, hv⟩
          · exact hall c hc
      · rintro ⟨hp, hall⟩
        have hp' := List.pairwise_cons.mp hp
        exact ⟨⟨hp'.1 (b, w) (by simp), (hall (a, v) (by simp)).2⟩, hp'.2, fun c hc => hall c (by simp [hc])⟩

theorem Memory.mem_insert (m : Memory) (a : Nat) (v : Byte) (c : Host.Cell) :
    c ∈ m.insert a v ↔ c = (a, v) ∨ c ∈ m := by
  induction m with
  | nil => simp [Memory.insert]
  | cons d m ih =>
    obtain ⟨k, x⟩ := d
    unfold Memory.insert
    split
    · simp
    · simp [ih, or_left_comm]

theorem Memory.insert_rising (m : Memory) (a : Nat) (v : Byte) (hm : m.Pairwise (fun c d => c.1 < d.1))
    (ha : ∀ c ∈ m, c.1 ≠ a) : (m.insert a v).Pairwise (fun c d => c.1 < d.1) := by
  induction m with
  | nil => simp [Memory.insert]
  | cons d m ih =>
    obtain ⟨k, x⟩ := d
    have hp := List.pairwise_cons.mp hm
    have hk : k ≠ a := ha (k, x) (by simp)
    unfold Memory.insert
    split
    · rename_i hlt
      refine List.pairwise_cons.mpr ⟨fun c hc => ?_, hm⟩
      rcases List.mem_cons.mp hc with rfl | hc
      · exact hlt
      · exact Nat.lt_trans hlt (hp.1 c hc)
    · refine List.pairwise_cons.mpr ⟨fun c hc => ?_, ih hp.2 fun c hc => ha c (by simp [hc])⟩
      rcases (Memory.mem_insert m a v c).mp hc with rfl | hc
      · simp only; omega
      · exact hp.1 c hc

/-- Writing a byte of the address space keeps the canonical form. -/
theorem Memory.write_wf (m : Memory) (a : Nat) (v : Byte) (hm : m.wf = true) (ha : a < 2 ^ 32) :
    (m.write a v).wf = true := by
  rw [Memory.wf_iff] at hm ⊢
  have he : (m.erase a).Pairwise (fun c d => c.1 < d.1) := hm.1.filter _
  have hin : ∀ c ∈ m.erase a, c ∈ m := fun c hc => (List.mem_filter.mp hc).1
  unfold Memory.write
  split
  · exact ⟨he, fun c hc => hm.2 c (hin c hc)⟩
  · rename_i hv
    refine ⟨Memory.insert_rising _ _ _ he (Memory.erase_absent m a), fun c hc => ?_⟩
    rcases (Memory.mem_insert _ _ _ c).mp hc with rfl | hc
    · exact ⟨ha, hv⟩
    · exact hm.2 c (hin c hc)

/-- A write lists no address but its own. -/
theorem Memory.mem_write (m : Memory) (a : Nat) (v : Byte) (c : Host.Cell) (hc : c ∈ m.write a v) :
    c.1 = a ∨ c ∈ m := by
  unfold Memory.write at hc
  split at hc
  · exact .inr (List.mem_filter.mp hc).1
  · rcases (Memory.mem_insert _ _ _ c).mp hc with rfl | hc
    · exact .inl rfl
    · exact .inr (List.mem_filter.mp hc).1

/-- Storing a byte string inside the address space keeps the canonical form. -/
theorem Memory.writeBytes_wf (bs : Bytes) (m : Memory) (base : Nat) (hm : m.wf = true)
    (h : base + bs.length ≤ 2 ^ 32) : (m.writeBytes base bs).wf = true := by
  induction bs generalizing m base with
  | nil => simpa [Memory.writeBytes] using hm
  | cons b bs ih =>
    rw [List.length_cons] at h
    rw [Memory.writeBytes]
    exact ih _ _ (m.write_wf base b hm (by omega)) (by omega)

/-- Storing a byte string lists no address but those it stores to. -/
theorem Memory.mem_writeBytes (bs : Bytes) (m : Memory) (base : Nat) (c : Host.Cell)
    (hc : c ∈ m.writeBytes base bs) : (base ≤ c.1 ∧ c.1 < base + bs.length) ∨ c ∈ m := by
  induction bs generalizing m base with
  | nil => exact .inr (by simpa [Memory.writeBytes] using hc)
  | cons b bs ih =>
    rw [Memory.writeBytes] at hc
    rw [List.length_cons]
    rcases ih _ _ hc with h | h
    · exact .inl (by omega)
    · rcases m.mem_write base b c h with h | h
      · exact .inl (by omega)
      · exact .inr h

end Sys2Proof.Machine
end

