-- ==== Sys2Proof/Laws/State.lean ====
section
/-!
SUPPORT. What each named update does to each field of the state, one lemma per field per update, and the same for
the key context.
-/

namespace Sys2Proof.Machine

@[simp] theorem complete_ie (code : ErrCode) (s : State) : (complete code s).ie = s.ie := rfl
@[simp] theorem complete_done (code : ErrCode) (s : State) : (complete code s).done = true := rfl
@[simp] theorem complete_werr (code : ErrCode) (s : State) : (complete code s).werr = s.werr := rfl
@[simp] theorem complete_err (code : ErrCode) (s : State) : (complete code s).err = code := rfl
@[simp] theorem complete_seq (code : ErrCode) (s : State) : (complete code s).seq = .idle := rfl
@[simp] theorem complete_cur (code : ErrCode) (s : State) : (complete code s).cur = s.cur := rfl
@[simp] theorem complete_src (code : ErrCode) (s : State) : (complete code s).src = s.src := rfl
@[simp] theorem complete_dst (code : ErrCode) (s : State) : (complete code s).dst = s.dst := rfl
@[simp] theorem complete_len (code : ErrCode) (s : State) : (complete code s).len = s.len := rfl
@[simp] theorem complete_ivaddr (code : ErrCode) (s : State) : (complete code s).ivaddr = s.ivaddr := rfl
@[simp] theorem complete_ivlen (code : ErrCode) (s : State) : (complete code s).ivlen = s.ivlen := rfl
@[simp] theorem complete_adaddr (code : ErrCode) (s : State) : (complete code s).adaddr = s.adaddr := rfl
@[simp] theorem complete_adlen (code : ErrCode) (s : State) : (complete code s).adlen = s.adlen := rfl
@[simp] theorem complete_tagaddr (code : ErrCode) (s : State) : (complete code s).tagaddr = s.tagaddr := rfl
@[simp] theorem complete_din (code : ErrCode) (s : State) : (complete code s).din = s.din := rfl
@[simp] theorem complete_dinb (code : ErrCode) (s : State) : (complete code s).dinb = s.dinb := rfl
@[simp] theorem complete_dout (code : ErrCode) (s : State) : (complete code s).dout = s.dout := rfl
@[simp] theorem complete_doutb (code : ErrCode) (s : State) : (complete code s).doutb = s.doutb := rfl
@[simp] theorem complete_ctx (code : ErrCode) (s : State) : (complete code s).ctx = s.ctx := rfl
@[simp] theorem complete_mem (code : ErrCode) (s : State) : (complete code s).mem = s.mem := rfl
@[simp] theorem complete_plat (code : ErrCode) (s : State) : (complete code s).plat = s.plat := rfl
@[simp] theorem complete_inputs (code : ErrCode) (s : State) : (complete code s).inputs = s.inputs := rfl
@[simp] theorem complete_rdata (code : ErrCode) (s : State) : (complete code s).rdata = s.rdata := rfl
@[simp] theorem complete_draws (code : ErrCode) (s : State) : (complete code s).draws = s.draws := rfl
@[simp] theorem complete_upset (code : ErrCode) (s : State) : (complete code s).upset = false := rfl

@[simp] theorem raise_ie (code : ErrCode) (s : State) : (raise code s).ie = s.ie := rfl
@[simp] theorem raise_done (code : ErrCode) (s : State) : (raise code s).done = true := rfl
@[simp] theorem raise_werr (code : ErrCode) (s : State) : (raise code s).werr = s.werr := rfl
@[simp] theorem raise_err (code : ErrCode) (s : State) : (raise code s).err = code := rfl
@[simp] theorem raise_seq (code : ErrCode) (s : State) : (raise code s).seq = .idle := rfl
@[simp] theorem raise_cur (code : ErrCode) (s : State) : (raise code s).cur = s.cur := rfl
@[simp] theorem raise_src (code : ErrCode) (s : State) : (raise code s).src = s.src := rfl
@[simp] theorem raise_dst (code : ErrCode) (s : State) : (raise code s).dst = s.dst := rfl
@[simp] theorem raise_len (code : ErrCode) (s : State) : (raise code s).len = s.len := rfl
@[simp] theorem raise_ivaddr (code : ErrCode) (s : State) : (raise code s).ivaddr = s.ivaddr := rfl
@[simp] theorem raise_ivlen (code : ErrCode) (s : State) : (raise code s).ivlen = s.ivlen := rfl
@[simp] theorem raise_adaddr (code : ErrCode) (s : State) : (raise code s).adaddr = s.adaddr := rfl
@[simp] theorem raise_adlen (code : ErrCode) (s : State) : (raise code s).adlen = s.adlen := rfl
@[simp] theorem raise_tagaddr (code : ErrCode) (s : State) : (raise code s).tagaddr = s.tagaddr := rfl
@[simp] theorem raise_din (code : ErrCode) (s : State) : (raise code s).din = s.din := rfl
@[simp] theorem raise_dinb (code : ErrCode) (s : State) : (raise code s).dinb = s.dinb := rfl
@[simp] theorem raise_dout (code : ErrCode) (s : State) : (raise code s).dout = s.dout := rfl
@[simp] theorem raise_doutb (code : ErrCode) (s : State) : (raise code s).doutb = s.doutb := rfl
@[simp] theorem raise_ctx (code : ErrCode) (s : State) : (raise code s).ctx = s.ctx := rfl
@[simp] theorem raise_mem (code : ErrCode) (s : State) : (raise code s).mem = s.mem := rfl
@[simp] theorem raise_plat (code : ErrCode) (s : State) : (raise code s).plat = s.plat := rfl
@[simp] theorem raise_inputs (code : ErrCode) (s : State) : (raise code s).inputs = s.inputs := rfl
@[simp] theorem raise_rdata (code : ErrCode) (s : State) : (raise code s).rdata = s.rdata := rfl
@[simp] theorem raise_draws (code : ErrCode) (s : State) : (raise code s).draws = s.draws := rfl
@[simp] theorem raise_upset (code : ErrCode) (s : State) : (raise code s).upset = false := rfl

@[simp] theorem issued_ie (w : Word) (s : State) : (issued w s).ie = s.ie := rfl
@[simp] theorem issued_done (w : Word) (s : State) : (issued w s).done = false := rfl
@[simp] theorem issued_werr (w : Word) (s : State) : (issued w s).werr = s.werr := rfl
@[simp] theorem issued_err (w : Word) (s : State) : (issued w s).err = s.err := rfl
@[simp] theorem issued_seq (w : Word) (s : State) : (issued w s).seq = .busy := rfl
@[simp] theorem issued_cur (w : Word) (s : State) : (issued w s).cur = w := rfl
@[simp] theorem issued_src (w : Word) (s : State) : (issued w s).src = s.src := rfl
@[simp] theorem issued_dst (w : Word) (s : State) : (issued w s).dst = s.dst := rfl
@[simp] theorem issued_len (w : Word) (s : State) : (issued w s).len = s.len := rfl
@[simp] theorem issued_ivaddr (w : Word) (s : State) : (issued w s).ivaddr = s.ivaddr := rfl
@[simp] theorem issued_ivlen (w : Word) (s : State) : (issued w s).ivlen = s.ivlen := rfl
@[simp] theorem issued_adaddr (w : Word) (s : State) : (issued w s).adaddr = s.adaddr := rfl
@[simp] theorem issued_adlen (w : Word) (s : State) : (issued w s).adlen = s.adlen := rfl
@[simp] theorem issued_tagaddr (w : Word) (s : State) : (issued w s).tagaddr = s.tagaddr := rfl
@[simp] theorem issued_din (w : Word) (s : State) : (issued w s).din = s.din := rfl
@[simp] theorem issued_dinb (w : Word) (s : State) : (issued w s).dinb = s.dinb := rfl
@[simp] theorem issued_dout (w : Word) (s : State) : (issued w s).dout = s.dout := rfl
@[simp] theorem issued_doutb (w : Word) (s : State) : (issued w s).doutb = s.doutb := rfl
@[simp] theorem issued_ctx (w : Word) (s : State) : (issued w s).ctx = s.ctx := rfl
@[simp] theorem issued_mem (w : Word) (s : State) : (issued w s).mem = s.mem := rfl
@[simp] theorem issued_plat (w : Word) (s : State) : (issued w s).plat = s.plat := rfl
@[simp] theorem issued_inputs (w : Word) (s : State) : (issued w s).inputs = s.inputs := rfl
@[simp] theorem issued_rdata (w : Word) (s : State) : (issued w s).rdata = s.rdata := rfl
@[simp] theorem issued_draws (w : Word) (s : State) : (issued w s).draws = s.draws := rfl
@[simp] theorem issued_upset (w : Word) (s : State) : (issued w s).upset = false := rfl

@[simp] theorem refuseWrite_ie (s : State) : (refuseWrite s).ie = s.ie := rfl
@[simp] theorem refuseWrite_done (s : State) : (refuseWrite s).done = s.done := rfl
@[simp] theorem refuseWrite_werr (s : State) : (refuseWrite s).werr = true := rfl
@[simp] theorem refuseWrite_err (s : State) : (refuseWrite s).err = s.err := rfl
@[simp] theorem refuseWrite_seq (s : State) : (refuseWrite s).seq = s.seq := rfl
@[simp] theorem refuseWrite_cur (s : State) : (refuseWrite s).cur = s.cur := rfl
@[simp] theorem refuseWrite_src (s : State) : (refuseWrite s).src = s.src := rfl
@[simp] theorem refuseWrite_dst (s : State) : (refuseWrite s).dst = s.dst := rfl
@[simp] theorem refuseWrite_len (s : State) : (refuseWrite s).len = s.len := rfl
@[simp] theorem refuseWrite_ivaddr (s : State) : (refuseWrite s).ivaddr = s.ivaddr := rfl
@[simp] theorem refuseWrite_ivlen (s : State) : (refuseWrite s).ivlen = s.ivlen := rfl
@[simp] theorem refuseWrite_adaddr (s : State) : (refuseWrite s).adaddr = s.adaddr := rfl
@[simp] theorem refuseWrite_adlen (s : State) : (refuseWrite s).adlen = s.adlen := rfl
@[simp] theorem refuseWrite_tagaddr (s : State) : (refuseWrite s).tagaddr = s.tagaddr := rfl
@[simp] theorem refuseWrite_din (s : State) : (refuseWrite s).din = s.din := rfl
@[simp] theorem refuseWrite_dinb (s : State) : (refuseWrite s).dinb = s.dinb := rfl
@[simp] theorem refuseWrite_dout (s : State) : (refuseWrite s).dout = s.dout := rfl
@[simp] theorem refuseWrite_doutb (s : State) : (refuseWrite s).doutb = s.doutb := rfl
@[simp] theorem refuseWrite_ctx (s : State) : (refuseWrite s).ctx = s.ctx := rfl
@[simp] theorem refuseWrite_mem (s : State) : (refuseWrite s).mem = s.mem := rfl
@[simp] theorem refuseWrite_plat (s : State) : (refuseWrite s).plat = s.plat := rfl
@[simp] theorem refuseWrite_inputs (s : State) : (refuseWrite s).inputs = s.inputs := rfl
@[simp] theorem refuseWrite_rdata (s : State) : (refuseWrite s).rdata = s.rdata := rfl
@[simp] theorem refuseWrite_draws (s : State) : (refuseWrite s).draws = s.draws := rfl
@[simp] theorem refuseWrite_upset (s : State) : (refuseWrite s).upset = s.upset := rfl

@[simp] theorem writeCtrl_ie (v : Word) (s : State) : (writeCtrl v s).ie = v.getLsbD 0 := rfl
@[simp] theorem writeCtrl_done (v : Word) (s : State) : (writeCtrl v s).done = s.done := rfl
@[simp] theorem writeCtrl_werr (v : Word) (s : State) : (writeCtrl v s).werr = s.werr := rfl
@[simp] theorem writeCtrl_err (v : Word) (s : State) : (writeCtrl v s).err = s.err := rfl
@[simp] theorem writeCtrl_seq (v : Word) (s : State) : (writeCtrl v s).seq = s.seq := rfl
@[simp] theorem writeCtrl_cur (v : Word) (s : State) : (writeCtrl v s).cur = s.cur := rfl
@[simp] theorem writeCtrl_src (v : Word) (s : State) : (writeCtrl v s).src = s.src := rfl
@[simp] theorem writeCtrl_dst (v : Word) (s : State) : (writeCtrl v s).dst = s.dst := rfl
@[simp] theorem writeCtrl_len (v : Word) (s : State) : (writeCtrl v s).len = s.len := rfl
@[simp] theorem writeCtrl_ivaddr (v : Word) (s : State) : (writeCtrl v s).ivaddr = s.ivaddr := rfl
@[simp] theorem writeCtrl_ivlen (v : Word) (s : State) : (writeCtrl v s).ivlen = s.ivlen := rfl
@[simp] theorem writeCtrl_adaddr (v : Word) (s : State) : (writeCtrl v s).adaddr = s.adaddr := rfl
@[simp] theorem writeCtrl_adlen (v : Word) (s : State) : (writeCtrl v s).adlen = s.adlen := rfl
@[simp] theorem writeCtrl_tagaddr (v : Word) (s : State) : (writeCtrl v s).tagaddr = s.tagaddr := rfl
@[simp] theorem writeCtrl_din (v : Word) (s : State) : (writeCtrl v s).din = s.din := rfl
@[simp] theorem writeCtrl_dinb (v : Word) (s : State) : (writeCtrl v s).dinb = s.dinb := rfl
@[simp] theorem writeCtrl_dout (v : Word) (s : State) : (writeCtrl v s).dout = s.dout := rfl
@[simp] theorem writeCtrl_doutb (v : Word) (s : State) : (writeCtrl v s).doutb = s.doutb := rfl
@[simp] theorem writeCtrl_ctx (v : Word) (s : State) : (writeCtrl v s).ctx = s.ctx := rfl
@[simp] theorem writeCtrl_mem (v : Word) (s : State) : (writeCtrl v s).mem = s.mem := rfl
@[simp] theorem writeCtrl_plat (v : Word) (s : State) : (writeCtrl v s).plat = s.plat := rfl
@[simp] theorem writeCtrl_inputs (v : Word) (s : State) : (writeCtrl v s).inputs = s.inputs := rfl
@[simp] theorem writeCtrl_rdata (v : Word) (s : State) : (writeCtrl v s).rdata = s.rdata := rfl
@[simp] theorem writeCtrl_draws (v : Word) (s : State) : (writeCtrl v s).draws = s.draws := rfl
@[simp] theorem writeCtrl_upset (v : Word) (s : State) : (writeCtrl v s).upset = s.upset := rfl

@[simp] theorem writeStatus_ie (v : Word) (s : State) : (writeStatus v s).ie = s.ie := rfl
@[simp] theorem writeStatus_done (v : Word) (s : State) : (writeStatus v s).done = (s.done && !v.getLsbD 1) := rfl
@[simp] theorem writeStatus_werr (v : Word) (s : State) : (writeStatus v s).werr = (s.werr && !v.getLsbD 3) := rfl
@[simp] theorem writeStatus_err (v : Word) (s : State) : (writeStatus v s).err = s.err := rfl
@[simp] theorem writeStatus_seq (v : Word) (s : State) : (writeStatus v s).seq = s.seq := rfl
@[simp] theorem writeStatus_cur (v : Word) (s : State) : (writeStatus v s).cur = s.cur := rfl
@[simp] theorem writeStatus_src (v : Word) (s : State) : (writeStatus v s).src = s.src := rfl
@[simp] theorem writeStatus_dst (v : Word) (s : State) : (writeStatus v s).dst = s.dst := rfl
@[simp] theorem writeStatus_len (v : Word) (s : State) : (writeStatus v s).len = s.len := rfl
@[simp] theorem writeStatus_ivaddr (v : Word) (s : State) : (writeStatus v s).ivaddr = s.ivaddr := rfl
@[simp] theorem writeStatus_ivlen (v : Word) (s : State) : (writeStatus v s).ivlen = s.ivlen := rfl
@[simp] theorem writeStatus_adaddr (v : Word) (s : State) : (writeStatus v s).adaddr = s.adaddr := rfl
@[simp] theorem writeStatus_adlen (v : Word) (s : State) : (writeStatus v s).adlen = s.adlen := rfl
@[simp] theorem writeStatus_tagaddr (v : Word) (s : State) : (writeStatus v s).tagaddr = s.tagaddr := rfl
@[simp] theorem writeStatus_din (v : Word) (s : State) : (writeStatus v s).din = s.din := rfl
@[simp] theorem writeStatus_dinb (v : Word) (s : State) : (writeStatus v s).dinb = s.dinb := rfl
@[simp] theorem writeStatus_dout (v : Word) (s : State) : (writeStatus v s).dout = s.dout := rfl
@[simp] theorem writeStatus_doutb (v : Word) (s : State) : (writeStatus v s).doutb = s.doutb := rfl
@[simp] theorem writeStatus_ctx (v : Word) (s : State) : (writeStatus v s).ctx = s.ctx := rfl
@[simp] theorem writeStatus_mem (v : Word) (s : State) : (writeStatus v s).mem = s.mem := rfl
@[simp] theorem writeStatus_plat (v : Word) (s : State) : (writeStatus v s).plat = s.plat := rfl
@[simp] theorem writeStatus_inputs (v : Word) (s : State) : (writeStatus v s).inputs = s.inputs := rfl
@[simp] theorem writeStatus_rdata (v : Word) (s : State) : (writeStatus v s).rdata = s.rdata := rfl
@[simp] theorem writeStatus_draws (v : Word) (s : State) : (writeStatus v s).draws = s.draws := rfl
@[simp] theorem writeStatus_upset (v : Word) (s : State) : (writeStatus v s).upset = s.upset := rfl

@[simp] theorem withFetchWord_ie (s : State) (nbits w : Nat) : (s.withFetchWord nbits w).ie = s.ie := rfl
@[simp] theorem withFetchWord_done (s : State) (nbits w : Nat) : (s.withFetchWord nbits w).done = s.done := rfl
@[simp] theorem withFetchWord_werr (s : State) (nbits w : Nat) : (s.withFetchWord nbits w).werr = s.werr := rfl
@[simp] theorem withFetchWord_err (s : State) (nbits w : Nat) : (s.withFetchWord nbits w).err = s.err := rfl
@[simp] theorem withFetchWord_seq (s : State) (nbits w : Nat) : (s.withFetchWord nbits w).seq = .busy := rfl
@[simp] theorem withFetchWord_cur (s : State) (nbits w : Nat) : (s.withFetchWord nbits w).cur = tableWord nbits w := rfl
@[simp] theorem withFetchWord_src (s : State) (nbits w : Nat) : (s.withFetchWord nbits w).src = s.src := rfl
@[simp] theorem withFetchWord_dst (s : State) (nbits w : Nat) : (s.withFetchWord nbits w).dst = s.dst := rfl
@[simp] theorem withFetchWord_len (s : State) (nbits w : Nat) : (s.withFetchWord nbits w).len = s.len := rfl
@[simp] theorem withFetchWord_ivaddr (s : State) (nbits w : Nat) : (s.withFetchWord nbits w).ivaddr = s.ivaddr := rfl
@[simp] theorem withFetchWord_ivlen (s : State) (nbits w : Nat) : (s.withFetchWord nbits w).ivlen = s.ivlen := rfl
@[simp] theorem withFetchWord_adaddr (s : State) (nbits w : Nat) : (s.withFetchWord nbits w).adaddr = s.adaddr := rfl
@[simp] theorem withFetchWord_adlen (s : State) (nbits w : Nat) : (s.withFetchWord nbits w).adlen = s.adlen := rfl
@[simp] theorem withFetchWord_tagaddr (s : State) (nbits w : Nat) : (s.withFetchWord nbits w).tagaddr = s.tagaddr := rfl
@[simp] theorem withFetchWord_din (s : State) (nbits w : Nat) : (s.withFetchWord nbits w).din = s.din := rfl
@[simp] theorem withFetchWord_dinb (s : State) (nbits w : Nat) : (s.withFetchWord nbits w).dinb = s.dinb := rfl
@[simp] theorem withFetchWord_dout (s : State) (nbits w : Nat) : (s.withFetchWord nbits w).dout = s.dout := rfl
@[simp] theorem withFetchWord_doutb (s : State) (nbits w : Nat) : (s.withFetchWord nbits w).doutb = s.doutb := rfl
@[simp] theorem withFetchWord_ctx (s : State) (nbits w : Nat) : (s.withFetchWord nbits w).ctx = s.ctx := rfl
@[simp] theorem withFetchWord_mem (s : State) (nbits w : Nat) : (s.withFetchWord nbits w).mem = s.mem := rfl
@[simp] theorem withFetchWord_plat (s : State) (nbits w : Nat) : (s.withFetchWord nbits w).plat = s.plat := rfl
@[simp] theorem withFetchWord_inputs (s : State) (nbits w : Nat) : (s.withFetchWord nbits w).inputs = .core :: s.inputs := rfl
@[simp] theorem withFetchWord_rdata (s : State) (nbits w : Nat) : (s.withFetchWord nbits w).rdata = s.rdata := rfl
@[simp] theorem withFetchWord_draws (s : State) (nbits w : Nat) : (s.withFetchWord nbits w).draws = s.draws := rfl
@[simp] theorem withFetchWord_upset (s : State) (nbits w : Nat) : (s.withFetchWord nbits w).upset = s.upset := rfl

@[simp] theorem drawn_ie (n : Nat) (s : State) : (s.drawn n).ie = s.ie := rfl
@[simp] theorem drawn_done (n : Nat) (s : State) : (s.drawn n).done = s.done := rfl
@[simp] theorem drawn_werr (n : Nat) (s : State) : (s.drawn n).werr = s.werr := rfl
@[simp] theorem drawn_err (n : Nat) (s : State) : (s.drawn n).err = s.err := rfl
@[simp] theorem drawn_seq (n : Nat) (s : State) : (s.drawn n).seq = s.seq := rfl
@[simp] theorem drawn_cur (n : Nat) (s : State) : (s.drawn n).cur = s.cur := rfl
@[simp] theorem drawn_src (n : Nat) (s : State) : (s.drawn n).src = s.src := rfl
@[simp] theorem drawn_dst (n : Nat) (s : State) : (s.drawn n).dst = s.dst := rfl
@[simp] theorem drawn_len (n : Nat) (s : State) : (s.drawn n).len = s.len := rfl
@[simp] theorem drawn_ivaddr (n : Nat) (s : State) : (s.drawn n).ivaddr = s.ivaddr := rfl
@[simp] theorem drawn_ivlen (n : Nat) (s : State) : (s.drawn n).ivlen = s.ivlen := rfl
@[simp] theorem drawn_adaddr (n : Nat) (s : State) : (s.drawn n).adaddr = s.adaddr := rfl
@[simp] theorem drawn_adlen (n : Nat) (s : State) : (s.drawn n).adlen = s.adlen := rfl
@[simp] theorem drawn_tagaddr (n : Nat) (s : State) : (s.drawn n).tagaddr = s.tagaddr := rfl
@[simp] theorem drawn_din (n : Nat) (s : State) : (s.drawn n).din = s.din := rfl
@[simp] theorem drawn_dinb (n : Nat) (s : State) : (s.drawn n).dinb = s.dinb := rfl
@[simp] theorem drawn_dout (n : Nat) (s : State) : (s.drawn n).dout = s.dout := rfl
@[simp] theorem drawn_doutb (n : Nat) (s : State) : (s.drawn n).doutb = s.doutb := rfl
@[simp] theorem drawn_ctx (n : Nat) (s : State) : (s.drawn n).ctx = s.ctx := rfl
@[simp] theorem drawn_mem (n : Nat) (s : State) : (s.drawn n).mem = s.mem := rfl
@[simp] theorem drawn_plat (n : Nat) (s : State) : (s.drawn n).plat = s.plat := rfl
@[simp] theorem drawn_inputs (n : Nat) (s : State) : (s.drawn n).inputs = s.inputs := rfl
@[simp] theorem drawn_rdata (n : Nat) (s : State) : (s.drawn n).rdata = s.rdata := rfl
@[simp] theorem drawn_draws (n : Nat) (s : State) : (s.drawn n).draws = s.draws + n := rfl
@[simp] theorem drawn_upset (n : Nat) (s : State) : (s.drawn n).upset = s.upset := rfl

@[simp] theorem consumed_ie (n : Nat) (s : State) : (s.consumed n).ie = s.ie := rfl
@[simp] theorem consumed_done (n : Nat) (s : State) : (s.consumed n).done = s.done := rfl
@[simp] theorem consumed_werr (n : Nat) (s : State) : (s.consumed n).werr = s.werr := rfl
@[simp] theorem consumed_err (n : Nat) (s : State) : (s.consumed n).err = s.err := rfl
@[simp] theorem consumed_seq (n : Nat) (s : State) : (s.consumed n).seq = s.seq := rfl
@[simp] theorem consumed_cur (n : Nat) (s : State) : (s.consumed n).cur = s.cur := rfl
@[simp] theorem consumed_src (n : Nat) (s : State) : (s.consumed n).src = s.src := rfl
@[simp] theorem consumed_dst (n : Nat) (s : State) : (s.consumed n).dst = s.dst := rfl
@[simp] theorem consumed_len (n : Nat) (s : State) : (s.consumed n).len = s.len := rfl
@[simp] theorem consumed_ivaddr (n : Nat) (s : State) : (s.consumed n).ivaddr = s.ivaddr := rfl
@[simp] theorem consumed_ivlen (n : Nat) (s : State) : (s.consumed n).ivlen = s.ivlen := rfl
@[simp] theorem consumed_adaddr (n : Nat) (s : State) : (s.consumed n).adaddr = s.adaddr := rfl
@[simp] theorem consumed_adlen (n : Nat) (s : State) : (s.consumed n).adlen = s.adlen := rfl
@[simp] theorem consumed_tagaddr (n : Nat) (s : State) : (s.consumed n).tagaddr = s.tagaddr := rfl
@[simp] theorem consumed_din (n : Nat) (s : State) : (s.consumed n).din = s.din := rfl
@[simp] theorem consumed_dinb (n : Nat) (s : State) : (s.consumed n).dinb = s.dinb := rfl
@[simp] theorem consumed_dout (n : Nat) (s : State) : (s.consumed n).dout = s.dout := rfl
@[simp] theorem consumed_doutb (n : Nat) (s : State) : (s.consumed n).doutb = s.doutb := rfl
@[simp] theorem consumed_ctx (n : Nat) (s : State) :
    (s.consumed n).ctx = { s.ctx with res := s.ctx.res - BitVec.ofNat 32 n } := rfl
@[simp] theorem consumed_mem (n : Nat) (s : State) : (s.consumed n).mem = s.mem := rfl
@[simp] theorem consumed_plat (n : Nat) (s : State) : (s.consumed n).plat = s.plat := rfl
@[simp] theorem consumed_inputs (n : Nat) (s : State) : (s.consumed n).inputs = s.inputs := rfl
@[simp] theorem consumed_rdata (n : Nat) (s : State) : (s.consumed n).rdata = s.rdata := rfl
@[simp] theorem consumed_draws (n : Nat) (s : State) : (s.consumed n).draws = s.draws := rfl
@[simp] theorem consumed_upset (n : Nat) (s : State) : (s.consumed n).upset = s.upset := rfl

@[simp] theorem produced_ie (p : Product) (s : State) : (s.produced p).ie = s.ie := rfl
@[simp] theorem produced_done (p : Product) (s : State) : (s.produced p).done = s.done := rfl
@[simp] theorem produced_werr (p : Product) (s : State) : (s.produced p).werr = s.werr := rfl
@[simp] theorem produced_err (p : Product) (s : State) : (s.produced p).err = s.err := rfl
@[simp] theorem produced_seq (p : Product) (s : State) : (s.produced p).seq = s.seq := rfl
@[simp] theorem produced_cur (p : Product) (s : State) : (s.produced p).cur = s.cur := rfl
@[simp] theorem produced_src (p : Product) (s : State) : (s.produced p).src = s.src := rfl
@[simp] theorem produced_dst (p : Product) (s : State) : (s.produced p).dst = s.dst := rfl
@[simp] theorem produced_len (p : Product) (s : State) : (s.produced p).len = s.len := rfl
@[simp] theorem produced_ivaddr (p : Product) (s : State) : (s.produced p).ivaddr = s.ivaddr := rfl
@[simp] theorem produced_ivlen (p : Product) (s : State) : (s.produced p).ivlen = s.ivlen := rfl
@[simp] theorem produced_adaddr (p : Product) (s : State) : (s.produced p).adaddr = s.adaddr := rfl
@[simp] theorem produced_adlen (p : Product) (s : State) : (s.produced p).adlen = s.adlen := rfl
@[simp] theorem produced_tagaddr (p : Product) (s : State) : (s.produced p).tagaddr = s.tagaddr := rfl
@[simp] theorem produced_din (p : Product) (s : State) : (s.produced p).din = s.din := rfl
@[simp] theorem produced_dinb (p : Product) (s : State) : (s.produced p).dinb = s.dinb := rfl
@[simp] theorem produced_dout (p : Product) (s : State) : (s.produced p).dout = written s.dout p.dout := rfl
@[simp] theorem produced_doutb (p : Product) (s : State) : (s.produced p).doutb = written s.doutb p.doutb := rfl
@[simp] theorem produced_ctx (p : Product) (s : State) : (s.produced p).ctx = s.ctx := rfl
@[simp] theorem produced_mem (p : Product) (s : State) : (s.produced p).mem = storeAll s.mem p.stores := rfl
@[simp] theorem produced_plat (p : Product) (s : State) : (s.produced p).plat = s.plat := rfl
@[simp] theorem produced_inputs (p : Product) (s : State) : (s.produced p).inputs = s.inputs := rfl
@[simp] theorem produced_rdata (p : Product) (s : State) : (s.produced p).rdata = s.rdata := rfl
@[simp] theorem produced_draws (p : Product) (s : State) : (s.produced p).draws = s.draws := rfl
@[simp] theorem produced_upset (p : Product) (s : State) : (s.produced p).upset = s.upset := rfl

@[simp] theorem consumedIfCovered_ie (n : Nat) (s : State) : (s.consumedIfCovered n).ie = s.ie := rfl
@[simp] theorem consumedIfCovered_done (n : Nat) (s : State) : (s.consumedIfCovered n).done = s.done := rfl
@[simp] theorem consumedIfCovered_werr (n : Nat) (s : State) : (s.consumedIfCovered n).werr = s.werr := rfl
@[simp] theorem consumedIfCovered_err (n : Nat) (s : State) : (s.consumedIfCovered n).err = s.err := rfl
@[simp] theorem consumedIfCovered_seq (n : Nat) (s : State) : (s.consumedIfCovered n).seq = s.seq := rfl
@[simp] theorem consumedIfCovered_cur (n : Nat) (s : State) : (s.consumedIfCovered n).cur = s.cur := rfl
@[simp] theorem consumedIfCovered_src (n : Nat) (s : State) : (s.consumedIfCovered n).src = s.src := rfl
@[simp] theorem consumedIfCovered_dst (n : Nat) (s : State) : (s.consumedIfCovered n).dst = s.dst := rfl
@[simp] theorem consumedIfCovered_len (n : Nat) (s : State) : (s.consumedIfCovered n).len = s.len := rfl
@[simp] theorem consumedIfCovered_ivaddr (n : Nat) (s : State) : (s.consumedIfCovered n).ivaddr = s.ivaddr := rfl
@[simp] theorem consumedIfCovered_ivlen (n : Nat) (s : State) : (s.consumedIfCovered n).ivlen = s.ivlen := rfl
@[simp] theorem consumedIfCovered_adaddr (n : Nat) (s : State) : (s.consumedIfCovered n).adaddr = s.adaddr := rfl
@[simp] theorem consumedIfCovered_adlen (n : Nat) (s : State) : (s.consumedIfCovered n).adlen = s.adlen := rfl
@[simp] theorem consumedIfCovered_tagaddr (n : Nat) (s : State) : (s.consumedIfCovered n).tagaddr = s.tagaddr := rfl
@[simp] theorem consumedIfCovered_din (n : Nat) (s : State) : (s.consumedIfCovered n).din = s.din := rfl
@[simp] theorem consumedIfCovered_dinb (n : Nat) (s : State) : (s.consumedIfCovered n).dinb = s.dinb := rfl
@[simp] theorem consumedIfCovered_dout (n : Nat) (s : State) : (s.consumedIfCovered n).dout = s.dout := rfl
@[simp] theorem consumedIfCovered_doutb (n : Nat) (s : State) : (s.consumedIfCovered n).doutb = s.doutb := rfl
@[simp] theorem consumedIfCovered_ctx (n : Nat) (s : State) :
    (s.consumedIfCovered n).ctx = { s.ctx with
      res := if s.ctx.res.toNat < n then s.ctx.res else s.ctx.res - BitVec.ofNat 32 n } := rfl
@[simp] theorem consumedIfCovered_mem (n : Nat) (s : State) : (s.consumedIfCovered n).mem = s.mem := rfl
@[simp] theorem consumedIfCovered_plat (n : Nat) (s : State) : (s.consumedIfCovered n).plat = s.plat := rfl
@[simp] theorem consumedIfCovered_inputs (n : Nat) (s : State) : (s.consumedIfCovered n).inputs = s.inputs := rfl
@[simp] theorem consumedIfCovered_rdata (n : Nat) (s : State) : (s.consumedIfCovered n).rdata = s.rdata := rfl
@[simp] theorem consumedIfCovered_draws (n : Nat) (s : State) : (s.consumedIfCovered n).draws = s.draws := rfl
@[simp] theorem consumedIfCovered_upset (n : Nat) (s : State) : (s.consumedIfCovered n).upset = s.upset := rfl

@[simp] theorem scrambled_ie (i : Instr) (p : Product) (s : State) : (s.scrambled i p).ie = s.ie := rfl
@[simp] theorem scrambled_done (i : Instr) (p : Product) (s : State) : (s.scrambled i p).done = s.done := rfl
@[simp] theorem scrambled_werr (i : Instr) (p : Product) (s : State) : (s.scrambled i p).werr = s.werr := rfl
@[simp] theorem scrambled_err (i : Instr) (p : Product) (s : State) : (s.scrambled i p).err = s.err := rfl
@[simp] theorem scrambled_seq (i : Instr) (p : Product) (s : State) : (s.scrambled i p).seq = s.seq := rfl
@[simp] theorem scrambled_cur (i : Instr) (p : Product) (s : State) : (s.scrambled i p).cur = s.cur := rfl
@[simp] theorem scrambled_src (i : Instr) (p : Product) (s : State) : (s.scrambled i p).src = s.src := rfl
@[simp] theorem scrambled_dst (i : Instr) (p : Product) (s : State) : (s.scrambled i p).dst = s.dst := rfl
@[simp] theorem scrambled_len (i : Instr) (p : Product) (s : State) : (s.scrambled i p).len = s.len := rfl
@[simp] theorem scrambled_ivaddr (i : Instr) (p : Product) (s : State) : (s.scrambled i p).ivaddr = s.ivaddr := rfl
@[simp] theorem scrambled_ivlen (i : Instr) (p : Product) (s : State) : (s.scrambled i p).ivlen = s.ivlen := rfl
@[simp] theorem scrambled_adaddr (i : Instr) (p : Product) (s : State) : (s.scrambled i p).adaddr = s.adaddr := rfl
@[simp] theorem scrambled_adlen (i : Instr) (p : Product) (s : State) : (s.scrambled i p).adlen = s.adlen := rfl
@[simp] theorem scrambled_tagaddr (i : Instr) (p : Product) (s : State) : (s.scrambled i p).tagaddr = s.tagaddr := rfl
@[simp] theorem scrambled_din (i : Instr) (p : Product) (s : State) : (s.scrambled i p).din = s.din := rfl
@[simp] theorem scrambled_dinb (i : Instr) (p : Product) (s : State) : (s.scrambled i p).dinb = s.dinb := rfl
@[simp] theorem scrambled_dout (i : Instr) (p : Product) (s : State) :
    (s.scrambled i p).dout = written s.dout (p.dout.map fun _ => blockOf (anyBytes (freeRegions s.plat s.mem s.draws (writtenRegions i s)).2 16)) := rfl
@[simp] theorem scrambled_doutb (i : Instr) (p : Product) (s : State) :
    (s.scrambled i p).doutb = written s.doutb (p.doutb.map fun _ => blockOf (anyBytes ((freeRegions s.plat s.mem s.draws (writtenRegions i s)).2 + 16) 16)) := rfl
@[simp] theorem scrambled_ctx (i : Instr) (p : Product) (s : State) : (s.scrambled i p).ctx = s.ctx := rfl
@[simp] theorem scrambled_mem (i : Instr) (p : Product) (s : State) :
    (s.scrambled i p).mem = (freeRegions s.plat s.mem s.draws (writtenRegions i s)).1 := rfl
@[simp] theorem scrambled_plat (i : Instr) (p : Product) (s : State) : (s.scrambled i p).plat = s.plat := rfl
@[simp] theorem scrambled_inputs (i : Instr) (p : Product) (s : State) : (s.scrambled i p).inputs = s.inputs := rfl
@[simp] theorem scrambled_rdata (i : Instr) (p : Product) (s : State) : (s.scrambled i p).rdata = s.rdata := rfl
@[simp] theorem scrambled_draws (i : Instr) (p : Product) (s : State) :
    (s.scrambled i p).draws = (freeRegions s.plat s.mem s.draws (writtenRegions i s)).2 + 32 := rfl
@[simp] theorem scrambled_upset (i : Instr) (p : Product) (s : State) : (s.scrambled i p).upset = s.upset := rfl

@[simp] theorem resetStep_ie (s : State) : (resetStep s).ie = State.reset.ie := rfl
@[simp] theorem resetStep_done (s : State) : (resetStep s).done = State.reset.done := rfl
@[simp] theorem resetStep_werr (s : State) : (resetStep s).werr = State.reset.werr := rfl
@[simp] theorem resetStep_err (s : State) : (resetStep s).err = State.reset.err := rfl
@[simp] theorem resetStep_seq (s : State) : (resetStep s).seq = State.reset.seq := rfl
@[simp] theorem resetStep_cur (s : State) : (resetStep s).cur = State.reset.cur := rfl
@[simp] theorem resetStep_src (s : State) : (resetStep s).src = State.reset.src := rfl
@[simp] theorem resetStep_dst (s : State) : (resetStep s).dst = State.reset.dst := rfl
@[simp] theorem resetStep_len (s : State) : (resetStep s).len = State.reset.len := rfl
@[simp] theorem resetStep_ivaddr (s : State) : (resetStep s).ivaddr = State.reset.ivaddr := rfl
@[simp] theorem resetStep_ivlen (s : State) : (resetStep s).ivlen = State.reset.ivlen := rfl
@[simp] theorem resetStep_adaddr (s : State) : (resetStep s).adaddr = State.reset.adaddr := rfl
@[simp] theorem resetStep_adlen (s : State) : (resetStep s).adlen = State.reset.adlen := rfl
@[simp] theorem resetStep_tagaddr (s : State) : (resetStep s).tagaddr = State.reset.tagaddr := rfl
@[simp] theorem resetStep_din (s : State) : (resetStep s).din = State.reset.din := rfl
@[simp] theorem resetStep_dinb (s : State) : (resetStep s).dinb = State.reset.dinb := rfl
@[simp] theorem resetStep_dout (s : State) : (resetStep s).dout = State.reset.dout := rfl
@[simp] theorem resetStep_doutb (s : State) : (resetStep s).doutb = State.reset.doutb := rfl
@[simp] theorem resetStep_ctx (s : State) : (resetStep s).ctx = State.reset.ctx := rfl
@[simp] theorem resetStep_mem (s : State) :
    (resetStep s).mem = (freeRegions s.plat s.mem s.draws ((regionsInFlight s).filter (·.written))).1 := rfl
@[simp] theorem resetStep_plat (s : State) : (resetStep s).plat = s.plat := rfl
@[simp] theorem resetStep_inputs (s : State) : (resetStep s).inputs = s.inputs := rfl
@[simp] theorem resetStep_rdata (s : State) : (resetStep s).rdata = s.rdata := rfl
@[simp] theorem resetStep_draws (s : State) :
    (resetStep s).draws = (freeRegions s.plat s.mem s.draws ((regionsInFlight s).filter (·.written))).2 := rfl
@[simp] theorem resetStep_upset (s : State) : (resetStep s).upset = State.reset.upset := rfl

@[simp] theorem KeyContext.wipe_alg (c : KeyContext) : (c.wipe).alg = c.alg := rfl
@[simp] theorem KeyContext.wipe_compat (c : KeyContext) : (c.wipe).compat = c.compat := rfl
@[simp] theorem KeyContext.wipe_keyed (c : KeyContext) : (c.wipe).keyed = false := rfl
@[simp] theorem KeyContext.wipe_k (c : KeyContext) : (c.wipe).k = Vector.replicate 8 0 := rfl
@[simp] theorem KeyContext.wipe_s (c : KeyContext) : (c.wipe).s = Vector.replicate 44 0 := rfl
@[simp] theorem KeyContext.wipe_ic (c : KeyContext) : (c.wipe).ic = 0 := rfl
@[simp] theorem KeyContext.wipe_res (c : KeyContext) : (c.wipe).res = 0 := rfl

@[simp] theorem KeyContext.load_alg (p : Config.Platform) (k : Vector Word 8) (c : KeyContext) : (c.load p k).alg = c.alg := rfl
@[simp] theorem KeyContext.load_compat (p : Config.Platform) (k : Vector Word 8) (c : KeyContext) : (c.load p k).compat = c.compat := rfl
@[simp] theorem KeyContext.load_keyed (p : Config.Platform) (k : Vector Word 8) (c : KeyContext) : (c.load p k).keyed = true := rfl
@[simp] theorem KeyContext.load_k (p : Config.Platform) (k : Vector Word 8) (c : KeyContext) : (c.load p k).k = k := rfl
@[simp] theorem KeyContext.load_s (p : Config.Platform) (k : Vector Word 8) (c : KeyContext) : (c.load p k).s = rc6Schedule k := rfl
@[simp] theorem KeyContext.load_ic (p : Config.Platform) (k : Vector Word 8) (c : KeyContext) : (c.load p k).ic = integrityCode p k (rc6Schedule k) := rfl
@[simp] theorem KeyContext.load_res (p : Config.Platform) (k : Vector Word 8) (c : KeyContext) : (c.load p k).res = p.resourceMax := rfl

end Sys2Proof.Machine
end

