-- ==== Sys2Proof/Laws/Ops.lean ====
section
/-!
SUPPORT. What each shared operation can do, said once: checks, buffers, the keyed prologue and its end.
-/

namespace Sys2Proof.Machine

@[simp] theorem complete_eq_ended (code : ErrCode) (s : State) : complete code s = s.ended code := rfl

@[simp] theorem raise_eq_ended (code : ErrCode) (s : State) : raise code s = s.ended code := rfl

/-! ### Checks -/

@[simp] theorem firstError_nil : firstError [] = none := rfl

@[simp] theorem firstError_cons (fails : Bool) (code : ErrCode) (rest : List (Bool × ErrCode)) :
    firstError ((fails, code) :: rest) = if fails then some code else firstError rest := rfl

/-- No check fails exactly where every condition is false. -/
theorem firstError_none (checks : List (Bool × ErrCode)) :
    firstError checks = none ↔ ∀ c ∈ checks, c.1 = false := by
  induction checks with
  | nil => simp
  | cons c rest ih =>
    obtain ⟨fails, code⟩ := c
    cases fails <;> simp [ih]

theorem firstError_append (xs ys : List (Bool × ErrCode)) :
    firstError (xs ++ ys) = (firstError xs).orElse fun _ => firstError ys := by
  induction xs with
  | nil => simp
  | cons c xs ih =>
    obtain ⟨fails, code⟩ := c
    cases fails <;> simp [ih]

/-! ### Buffers -/

/-- Where every byte of a command's regions exists, its COMPLETE is enabled (R69). -/
theorem unlessStuck_admitted {i : Instr} {s t : State} (h : regionsAdmitted i s = true) : unlessStuck i s t = t := by
  simp [unlessStuck, h]

/-- Where one does not, nothing changes (R69). -/
theorem unlessStuck_absent {i : Instr} {s t : State} (h : regionsAdmitted i s = false) : unlessStuck i s t = s := by
  simp [unlessStuck, h]

/-- Everything a command that reaches its buffers can answer: stuck, or its run. -/
theorem accessBuffers_next {i : Instr} {run : State → State} {s t : State} (h : accessBuffers i s run = .next t) :
    (regionsAdmitted i s = false ∧ t = s) ∨ (BuffersOk i s ∧ t = run s) := by
  unfold accessBuffers at h
  split at h
  · cases h
  · rename_i hw
    split at h
    · cases h
    · rename_i ho
      cases h
      cases hr : regionsAdmitted i s
      · exact .inl ⟨rfl, unlessStuck_absent hr⟩
      · exact .inr ⟨⟨by simpa using hw, by simpa using ho, hr⟩, unlessStuck_admitted hr⟩

/-- Where the buffers can be reached, the command runs. -/
theorem accessBuffers_run {i : Instr} {run : State → State} {s : State} (h : BuffersOk i s) :
    accessBuffers i s run = .next (run s) := by
  obtain ⟨hw, ho, hr⟩ := h
  simp [accessBuffers, hw, ho, unlessStuck_admitted hr]

/-- Everything a command can answer from its checks on: stuck, an error code, or its run. -/
theorem checked_next {i : Instr} {checks : List (Bool × ErrCode)} {run : State → State} {s t : State}
    (h : checked i checks run s = .next t) :
    (regionsAdmitted i s = false ∧ t = s)
      ∨ (regionsAdmitted i s = true ∧ ∃ code, firstError checks = some code ∧ t = s.ended code)
      ∨ (firstError checks = none ∧ BuffersOk i s ∧ t = run s) := by
  unfold checked at h
  split at h
  · rename_i code hc
    cases h
    cases hr : regionsAdmitted i s
    · exact .inl ⟨rfl, unlessStuck_absent hr⟩
    · exact .inr (.inl ⟨rfl, code, hc, unlessStuck_admitted hr⟩)
  · rename_i hc
    rcases accessBuffers_next h with h | h
    · exact .inl h
    · exact .inr (.inr ⟨hc, h⟩)

/-- A failing check ends the command with its code (R304), where its bytes exist (R69). -/
theorem checked_error {i : Instr} {checks : List (Bool × ErrCode)} {run : State → State} {s : State} {code : ErrCode}
    (hr : regionsAdmitted i s = true) (h : firstError checks = some code) :
    checked i checks run s = .next (s.ended code) := by
  simp [checked, h, unlessStuck_admitted hr]

/-- Where no check fails and the buffers can be reached, the command runs. -/
theorem checked_run {i : Instr} {checks : List (Bool × ErrCode)} {run : State → State} {s : State}
    (h : firstError checks = none) (hb : BuffersOk i s) : checked i checks run s = .next (run s) := by
  simp [checked, h, accessBuffers_run hb]

/-! ### Keyed commands -/

/-- What a product does to the state when its command ends (R174, R251). -/
theorem commit_eq (n : Nat) (p : Product) (s : State) :
    commit n p s =
      if p.verified then ((s.charged n).produced p).ended .ok else (s.charged n).ended .authenticationFailed := rfl

/-- Everything the keyed prologue and the command after it can do (R174). -/
theorem keyedPrologue_cases (n : Nat) (p : State → Product) (s : State) :
    (keyOk s = false ∧ keyedPrologue n p s = s.ended .keyIntegrityViolation)
      ∨ (keyOk s = true ∧ s.ctx.res.toNat < n ∧ keyedPrologue n p s = s.ended .resourceExhausted)
      ∨ (keyOk s = true ∧ n ≤ s.ctx.res.toNat ∧ keyedPrologue n p s = commit n (p s) s) := by
  unfold keyedPrologue
  cases keyOk s
  · simp
  · by_cases hr : s.ctx.res.toNat < n
    · simp [hr]
    · simp [hr, Nat.le_of_not_lt hr]

/-- With the key ready, a keyed command ends as its product says. -/
theorem keyedPrologue_ready {n : Nat} {p : State → Product} {s : State} (h : KeyReady n s) :
    keyedPrologue n p s = commit n (p s) s := by
  obtain ⟨_, hk, hr⟩ := h
  simp [keyedPrologue, hk, Nat.not_lt.mpr hr]

/-- Everything a keyed command with an upset in flight can do (R45). -/
theorem keyedAfterUpset_cases (i : Instr) (n : Nat) (p : State → Product) (s : State) :
    keyedAfterUpset i n p s = (s.drawn 1).ended .keyIntegrityViolation
      ∨ keyedAfterUpset i n p s = (((s.drawn 1).consumedIfCovered n).scrambled i (p s)).ended .ok := by
  unfold keyedAfterUpset
  cases Config.anyBool s.draws
  · exact .inl rfl
  · exact .inr rfl

/-! ### The keyed commands in one form -/

/-- The argument checks of each keyed command. -/
def argChecks (i : Instr) (s : State) : List (Bool × ErrCode) :=
  match i with
  | .ecbE | .ecbD => ecbChecks s
  | .cbcE | .cbcD => cbcChecks s
  | .cfbE | .cfbD | .ofb _ => streamChecks s
  | .ctr _ => ctrChecks s
  | .mgmE l | .mgmD l => mgmChecks l s
  | .cmac l => cmacChecks l s
  | .nop | .create _ _ | .setkey | .destroy | .gfmul | .gfdbl | .encb | .decb | .cmackeys => []

/-- The product of each keyed command. -/
def productOf (i : Instr) (s : State) : Product :=
  match i with
  | .encb => ⟨[], some (rc6Encrypt s.ctx.s s.din.block), none, true⟩
  | .decb => ⟨[], some (rc6Decrypt s.ctx.s s.din.block), none, true⟩
  | .ecbE => modeProduct (ecbText (rc6Encrypt s.ctx.s) (inputText s)) s
  | .ecbD => modeProduct (ecbText (rc6Decrypt s.ctx.s) (inputText s)) s
  | .cbcE => modeProduct (chainText (cbcEncryptStep s.ctx.s) (ivBytes s) (inputText s)) s
  | .cbcD => modeProduct (chainText (cbcDecryptStep s.ctx.s) (ivBytes s) (inputText s)) s
  | .cfbE => modeProduct (chainText (cfbEncryptStep s.ctx.s) (ivBytes s) (inputText s)) s
  | .cfbD => modeProduct (chainText (cfbDecryptStep s.ctx.s) (ivBytes s) (inputText s)) s
  | .ofb _ => modeProduct (chainText (ofbStep s.ctx.s) (ivBytes s) (inputText s)) s
  | .ctr _ => modeProduct (ctrText s.ctx.s (ivBytes s) (inputText s)) s
  | .mgmE l => mgmEncryptProduct l s
  | .mgmD l => mgmDecryptProduct l s
  | .cmac l => ⟨[(s.tagaddr.toNat, trunc (cmacTag s.ctx.s (inputText s)) l)], none, none, true⟩
  | .cmackeys => ⟨[], some (cmacSubkeys s.ctx.s).1, some (cmacSubkeys s.ctx.s).2, true⟩
  | .nop | .create _ _ | .setkey | .destroy | .gfmul | .gfdbl => ⟨[], none, none, true⟩

theorem mgmCount_eq (s : State) (l : Nat) :
    mgmCount s.plat s.adlen.toNat s.len.toNat = invocations (.mgmE l) s := by
  unfold mgmCount invocations
  cases s.plat.mgmDerive <;> simp [blocksFor]

/-- Every keyed command is its checks, its buffers, its N and its product, run by one operation. -/
theorem exec_keyed (i : Instr) (s : State) (h : isKeyed i = true) :
    exec i s = keyedCommand i (argChecks i s) (invocations i s) (productOf i) s := by
  cases i with
  | mgmE l => exact congrArg (keyedCommand _ _ · _ _) (mgmCount_eq s l)
  | mgmD l => exact congrArg (keyedCommand _ _ · _ _) (mgmCount_eq s l)
  | _ => first | rfl | exact Bool.noConfusion h

/-- Everything a keyed command can answer (R45, R69, R174, R304): it is stuck; a check fails; it runs; or it ends as R45
says of a command with an upset in flight. -/
theorem exec_keyed_next {i : Instr} {s t : State} (hi : isKeyed i = true) (h : exec i s = .next t) :
    (regionsAdmitted i s = false ∧ t = s)
      ∨ (s.upset = false ∧ regionsAdmitted i s = true
          ∧ ∃ code, firstError (argChecks i s) = some code ∧ t = s.ended code)
      ∨ (s.upset = false ∧ firstError (argChecks i s) = none ∧ BuffersOk i s
          ∧ t = keyedPrologue (invocations i s) (productOf i) s)
      ∨ (s.upset = true ∧ BuffersOk i s ∧ t = keyedAfterUpset i (invocations i s) (productOf i) s) := by
  rw [exec_keyed i s hi, keyedCommand] at h
  cases hu : s.upset
  · rcases checked_next (by simpa [hu] using h) with h | h | h
    · exact .inl h
    · exact .inr (.inl ⟨rfl, h⟩)
    · exact .inr (.inr (.inl ⟨rfl, h⟩))
  · rcases accessBuffers_next (by simpa [hu] using h) with h | h
    · exact .inl h
    · exact .inr (.inr (.inr ⟨rfl, h⟩))

/-- A failing argument check ends a keyed command with its code (R304). -/
theorem exec_keyed_error {i : Instr} {s : State} {code : ErrCode} (hi : isKeyed i = true) (hu : s.upset = false)
    (hr : regionsAdmitted i s = true) (hc : firstError (argChecks i s) = some code) :
    exec i s = .next (s.ended code) := by
  rw [exec_keyed i s hi, keyedCommand, hu]
  exact checked_error hr hc

/-- Where the checks pass and the buffers can be reached, a keyed command runs its prologue (R174). -/
theorem exec_keyed_run {i : Instr} {s : State} (hi : isKeyed i = true) (hu : s.upset = false)
    (hc : firstError (argChecks i s) = none) (hb : BuffersOk i s) :
    exec i s = .next (keyedPrologue (invocations i s) (productOf i) s) := by
  rw [exec_keyed i s hi, keyedCommand, hu]
  exact checked_run hc hb

/-- With an upset in flight, a keyed command whose buffers can be reached ends as R45 says. -/
theorem exec_keyed_upset {i : Instr} {s : State} (hi : isKeyed i = true) (hu : s.upset = true) (hb : BuffersOk i s) :
    exec i s = .next (keyedAfterUpset i (invocations i s) (productOf i) s) := by
  rw [exec_keyed i s hi, keyedCommand, hu]
  exact accessBuffers_run hb

/-- Where the checks pass, the buffers can be reached and the key is ready, a keyed command commits its product. -/
theorem exec_keyed_commit {i : Instr} {s : State} (hi : isKeyed i = true) (hc : firstError (argChecks i s) = none)
    (hb : BuffersOk i s) (hk : KeyReady (invocations i s) s) :
    exec i s = .next (commit (invocations i s) (productOf i s) s) := by
  rw [exec_keyed_run hi hk.1 hc hb, keyedPrologue_ready hk]

/-- The checks of a keyed command pass exactly where its operands are in order (R202, R249, R272). -/
theorem argChecks_none (i : Instr) (s : State) (h : isKeyed i = true) :
    firstError (argChecks i s) = none ↔ ArgsOk i s := by
  cases i with
  | nop | create _ _ | setkey | destroy | gfmul | gfdbl => exact Bool.noConfusion h
  | encb | decb | cmackeys => simp [argChecks, ArgsOk]
  | ctr _ =>
    have h8 : (8#32).toNat = 8 := rfl
    simp only [firstError_none, argChecks, ArgsOk, ctrChecks, dataChecks, ivBufferCheck, ctrIvChecks, TextOk, CtrIvOk]
    simp
    constructor
    · rintro ⟨hi, hl, hs, hd, hr⟩
      rw [hi, h8] at hr
      exact ⟨⟨hi, hr⟩, hl, hs, hd⟩
    · rintro ⟨⟨hi, hr⟩, hl, hs, hd⟩
      rw [hi, h8]
      exact ⟨rfl, hl, hs, hd, hr⟩
  | ecbE | ecbD | cbcE | cbcD | cfbE | cfbD | ofb _ | mgmE _ | mgmD _ | cmac _ =>
    simp only [firstError_none, argChecks, ArgsOk, ecbChecks, cbcChecks, streamChecks, mgmChecks,
      cmacChecks, wholeBlocksCheck, dataChecks, multiBlockIvChecks, ivBufferCheck, WholeBlocks, TextOk,
      ChainIvOk, MgmOk, CmacOk, TagLenOk]
    first
      | (simp; done)
      | (simp; intros; omega)
      | (simp; constructor <;> (intro hs; simp_all; try omega))

/-- The code that a list of checks reports is the code of one of them. -/
theorem firstError_mem {checks : List (Bool × ErrCode)} {code : ErrCode} (h : firstError checks = some code) :
    ∃ c ∈ checks, c.2 = code := by
  induction checks with
  | nil => simp at h
  | cons c rest ih =>
    obtain ⟨fails, e⟩ := c
    rw [firstError_cons] at h
    split at h
    · exact ⟨(fails, e), by simp, by simpa using h⟩
    · obtain ⟨d, hd, he⟩ := ih h
      exact ⟨d, by simp [hd], he⟩

/-- No argument check of a keyed command reports OK or a code of the key or of the tag (R304). -/
theorem argChecks_code {i : Instr} {s : State} {code : ErrCode} (h : firstError (argChecks i s) = some code) :
    code ≠ .ok ∧ code ≠ .authenticationFailed ∧ code ≠ .keyIntegrityViolation ∧ code ≠ .resourceExhausted := by
  have table : ∀ c ∈ argChecks i s, c.2 ≠ .ok ∧ c.2 ≠ .authenticationFailed ∧ c.2 ≠ .keyIntegrityViolation
      ∧ c.2 ≠ .resourceExhausted := by
    cases i <;> simp [argChecks, ecbChecks, cbcChecks, streamChecks, ctrChecks, mgmChecks, cmacChecks,
      wholeBlocksCheck, dataChecks, multiBlockIvChecks, ivBufferCheck, ctrIvChecks]
  obtain ⟨c, hc, rfl⟩ := firstError_mem h
  exact table c hc

/-- Where the counter covers N, taking N off is exact: it never wraps (R173). -/
theorem toNat_res_sub {n : Nat} {r : Word} (h : n ≤ r.toNat) : (r - BitVec.ofNat 32 n).toNat + n = r.toNat := by
  have := r.isLt
  rw [BitVec.toNat_sub, BitVec.toNat_ofNat, Nat.mod_eq_of_lt (a := n) (by omega)]
  omega

/-- All that the end of a keyed command can change (R174). -/
theorem commit_frame (n : Nat) (p : Product) (s : State) :
    commit n p s = { s with
      err := (commit n p s).err, done := true, seq := .idle, upset := false
      ctx := { s.ctx with res := s.ctx.res - BitVec.ofNat 32 n }
      mem := (commit n p s).mem, dout := (commit n p s).dout, doutb := (commit n p s).doutb } := by
  unfold commit
  split <;> rfl

/-- All that the prologue and the command after it can change (R174). -/
theorem keyedPrologue_frame (n : Nat) (p : State → Product) (s : State) :
    keyedPrologue n p s = { s with
      err := (keyedPrologue n p s).err, done := true, seq := .idle, upset := false
      ctx := { s.ctx with res := (keyedPrologue n p s).ctx.res }
      mem := (keyedPrologue n p s).mem, dout := (keyedPrologue n p s).dout
      doutb := (keyedPrologue n p s).doutb } := by
  rcases keyedPrologue_cases n p s with ⟨_, e⟩ | ⟨_, _, e⟩ | ⟨_, _, e⟩
  · rw [e]; rfl
  · rw [e]; rfl
  · rw [e, commit_frame]

/-- All that a keyed command with an upset in flight can change (R45). -/
theorem keyedAfterUpset_frame (i : Instr) (n : Nat) (p : State → Product) (s : State) :
    keyedAfterUpset i n p s = { s with
      err := (keyedAfterUpset i n p s).err, done := true, seq := .idle, upset := false
      draws := (keyedAfterUpset i n p s).draws
      ctx := { s.ctx with res := (keyedAfterUpset i n p s).ctx.res }
      mem := (keyedAfterUpset i n p s).mem, dout := (keyedAfterUpset i n p s).dout
      doutb := (keyedAfterUpset i n p s).doutb } := by
  rcases keyedAfterUpset_cases i n p s with e | e <;> rw [e] <;> rfl

/-- All that a keyed command can change, the step included that leaves it stuck. -/
theorem exec_keyed_frame {i : Instr} {s t : State} (hi : isKeyed i = true) (h : exec i s = .next t) :
    t = { s with err := t.err, done := t.done, seq := t.seq, upset := t.upset, draws := t.draws
                 ctx := { s.ctx with res := t.ctx.res }, mem := t.mem, dout := t.dout, doutb := t.doutb } := by
  rcases exec_keyed_next hi h with ⟨_, rfl⟩ | ⟨_, _, code, _, rfl⟩ | ⟨_, _, _, rfl⟩ | ⟨_, _, rfl⟩
  · rfl
  · rfl
  · rw [keyedPrologue_frame]
  · rw [keyedAfterUpset_frame]

/-! ### The other commands -/

/-- Everything SETKEY can answer (R182, R69). -/
theorem setkey_next {s t : State} (h : exec .setkey s = .next t) :
    t = s.ended .wrongKeyLength ∨ t = s.ended .invalidArgument ∨ t = s
      ∨ t = ({ s with ctx := s.ctx.load s.plat (keyWords (s.mem.readBytes s.src.toNat 32)) } : State).ended .ok := by
  rcases checked_next h with ⟨_, rfl⟩ | ⟨_, code, hc, rfl⟩ | ⟨_, _, rfl⟩
  · simp
  · obtain ⟨c, hm, rfl⟩ := firstError_mem hc
    simp only [List.mem_cons, List.not_mem_nil, or_false] at hm
    rcases hm with rfl | rfl <;> simp
  · simp

/-- Everything CREATE can answer (R181). -/
theorem create_next {compat : Bool} {alg : Nat} {s t : State} (h : exec (.create compat alg) s = .next t) :
    t = s.ended .unsupportedPrimitive
      ∨ (alg = 0 ∧ t = ({ s with ctx := { s.ctx.wipe with alg := 0, compat := compat } } : State).ended .ok) := by
  by_cases ha : alg = 0
  · subst ha
    simp only [exec, execCreate, bne_self_eq_false, firstError_cons, firstError_nil] at h
    exact .inr ⟨rfl, by simpa using h.symm⟩
  · have : (alg != 0) = true := by simp [ha]
    simp only [exec, execCreate, this, firstError_cons, if_true] at h
    exact .inl (by simpa using h.symm)

/-- A command without buffers reaches them always. -/
theorem buffersOk_nil {i : Instr} {s : State} (h : regions i s = []) : BuffersOk i s := by
  simp [BuffersOk, windowHazard, overlapHazard, regionsAdmitted, h, allCompatible]

end Sys2Proof.Machine
end

