-- ==== Sys2Proof/Laws/HostBus.lean ====
section
/-!
SUPPORT. What a window access does, said once: the register at each offset, reads, writes, ISSUE.
-/

namespace Sys2Proof.Machine

open Sys2Proof.Config

/-! ### The register map -/

/-- The register map read backwards: an offset holds a register exactly where the map lists the pair (R21). -/
theorem regAt_eq_some (off : BitVec 8) (r : Reg) : regAt off = some r ↔ (off, r) ∈ registerMap := by
  constructor
  · intro h
    obtain ⟨⟨o, q⟩, hf, hq⟩ := Option.map_eq_some_iff.mp h
    have hm := List.mem_of_find?_eq_some hf
    have ho := List.find?_some hf
    simp only [beq_iff_eq] at ho
    simp only at hq
    exact ho ▸ hq ▸ hm
  · intro h
    have table : ∀ c ∈ registerMap, regAt c.1 = some c.2 := by decide
    exact table (off, r) h

/-- Two offsets never hold one register (R21). -/
theorem regAt_inj {off off' : BitVec 8} {r : Reg} (h : regAt off = some r) (h' : regAt off' = some r) : off = off' := by
  have table : ∀ c ∈ registerMap, ∀ d ∈ registerMap, c.2 = d.2 → c.1 = d.1 := by decide
  exact table _ ((regAt_eq_some _ _).mp h) _ ((regAt_eq_some _ _).mp h') rfl

/-! ### STATUS -/

/-- Every field of STATUS, read back from the word (R24, R31). -/
theorem statusWord_fields (busy done keyed werr compat : Bool) (err : BitVec 8) (alg : BitVec 4) :
    let r := statusWord busy done keyed werr compat err alg
    r.getLsbD 0 = busy ∧ r.getLsbD 1 = done ∧ r.getLsbD 2 = keyed ∧ r.getLsbD 3 = werr ∧ r.getLsbD 4 = compat
      ∧ r.extractLsb' 5 3 = 0 ∧ r.extractLsb' 8 8 = err ∧ r.extractLsb' 16 4 = alg ∧ r.extractLsb' 20 12 = 0 := by
  refine ⟨?_, ?_, ?_, ?_, ?_, ?_, ?_, ?_, ?_⟩
  any_goals
    simp only [statusWord, BitVec.getLsbD_append]
    simp
    done
  all_goals
    apply BitVec.eq_of_getLsbD_eq
    intro k hk
    simp only [statusWord, BitVec.getLsbD_extractLsb', BitVec.getLsbD_append]
    interval_cases k <;> simp

/-! ### Reads -/

/-- A read of a whole register (R62). -/
theorem windowRead_whole {off : BitVec 8} {r : Reg} (s : State) (ha : off.toNat % 4 = 0) (hr : regAt off = some r) :
    windowRead .bits32 off s = readReg r s := by
  simp [windowRead, wholeRegister, ha, hr]

/-- A read of a reserved offset (R39). -/
theorem windowRead_reserved {off : BitVec 8} (s : State) (size : AccessSize) (hr : regAt off = none) :
    windowRead size off s = { s with rdata := 0 } := by
  simp [windowRead, hr]

/-- A read that is not of a whole register (R63). -/
theorem windowRead_partial {off : BitVec 8} {size : AccessSize} (s : State) (h : wholeRegister size off = false) :
    windowRead size off s = { s with rdata := 0 } := by
  simp [windowRead, h]

/-- What the HOST gets from an idle CORE (R21). -/
theorem readReg_idle {s : State} (r : Reg) (h : s.seq = .idle) : readReg r s = { s with rdata := regValue r s } := by
  simp [readReg, h]

/-- What the HOST gets while BUSY: the exact value or the free word of this read (R39). -/
theorem readReg_busy {s : State} (r : Reg) (h : s.seq = .busy) :
    readReg r s = { s with
      rdata := (regValueBusy r (anyWord s.draws) s).1
      draws := s.draws + if (regValueBusy r (anyWord s.draws) s).2 then 1 else 0 } := by
  simp [readReg, h, State.drawn]

/-- Everything a read can do: it gives the HOST a value and may draw a free one (R62). -/
theorem windowRead_next (size : AccessSize) (off : BitVec 8) (s : State) :
    windowRead size off s
      = { s with rdata := (windowRead size off s).rdata, draws := (windowRead size off s).draws } := by
  have hreg : ∀ r, readReg r s = { s with rdata := (readReg r s).rdata, draws := (readReg r s).draws } := by
    intro r
    unfold readReg
    split <;> rfl
  unfold windowRead
  split
  · split
    · exact hreg _
    · rfl
  · rfl

/-! ### Writes -/

/-- A write of a whole register (R62). -/
theorem windowWrite_whole {off : BitVec 8} {r : Reg} (v : Word) (s : State) (ha : off.toNat % 4 = 0)
    (hr : regAt off = some r) : windowWrite .bits32 off v s = writeReg r v s := by
  simp [windowWrite, wholeRegister, ha, hr]

/-- A write of a reserved offset (R39). -/
theorem windowWrite_reserved {off : BitVec 8} (v : Word) (s : State) (ha : off.toNat % 4 = 0)
    (hr : regAt off = none) : windowWrite .bits32 off v s = .next s := by
  simp [windowWrite, wholeRegister, ha, hr]

/-- A write that is not of a whole register (R63). -/
theorem windowWrite_partial {off : BitVec 8} {size : AccessSize} (v : Word) (s : State)
    (h : wholeRegister size off = false) : windowWrite size off v s = .next { s with werr := true } := by
  simp [windowWrite, h, refuseWrite]

/-- Everything an ISSUE can answer (R40, R354). -/
theorem issue_next {w : Word} {s t : State} (h : issue w s = .next t) :
    t = issued w s ∧ ∀ i, decode w = .ok i → windowHazard i s = false ∧ overlapHazard i s = false := by
  unfold issue at h
  split at h
  · rename_i e hd
    exact ⟨by simpa using h.symm, fun i hi => by simp [hd] at hi⟩
  · rename_i i hd
    split at h
    · cases h
    · split at h
      · cases h
      · rename_i hw ho
        refine ⟨by simpa using h.symm, fun j hj => ?_⟩
        obtain rfl : i = j := by simpa [hd] using hj
        exact ⟨by simpa using hw, by simpa using ho⟩

/-- The registers that a HOST write can change, and ISSUE's (R62): a step of the window leaves all else alone. -/
theorem windowWrite_next {size : AccessSize} {off : BitVec 8} {v : Word} {s t : State}
    (h : windowWrite size off v s = .next t) :
    (t = issued v s ∧ s.seq = .idle
        ∧ ∀ i, decode v = .ok i → windowHazard i s = false ∧ overlapHazard i s = false)
      ∨ (s.seq = .idle ∧ t = { s with
          src := t.src, dst := t.dst, len := t.len, ivaddr := t.ivaddr, ivlen := t.ivlen, adaddr := t.adaddr,
          adlen := t.adlen, tagaddr := t.tagaddr, din := t.din, dinb := t.dinb })
      ∨ t = writeCtrl v s ∨ t = writeStatus v s ∨ t = refuseWrite s ∨ t = s := by
  unfold windowWrite at h
  split at h
  · split at h
    · rename_i r hr
      cases hs : s.seq <;> cases r <;> simp only [writeReg, writeIdle, hs, Host.Outcome.next.injEq] at h
      case idle.cmd =>
        have := issue_next h
        exact .inl ⟨this.1, rfl, this.2⟩
      all_goals subst h; simp
    · simp only [Host.Outcome.next.injEq] at h
      simp [h]
  · simp only [Host.Outcome.next.injEq] at h
    simp [← h]

end Sys2Proof.Machine
end

