-- ==== Sys2Proof/Laws/PerInstr.lean ====
section
/-!
SUPPORT. A statement made of every command: its encoding keeps the reserved bits of R91 at 0 (R95).
-/

namespace Sys2Proof.Laws.ReservedBitsZero

/-- Bits 15:10, 23:21 and 31:28 of the command's word are 0 (R91, R95). -/
def Statement (i : Instr) : Prop :=
  (encode i).extractLsb' 10 6 = 0 ∧ (encode i).extractLsb' 21 3 = 0 ∧ (encode i).extractLsb' 28 4 = 0

/-- Whatever the fields, a command word has its reserved bits at 0 (R91). -/
theorem commandWord_reserved (opc : BitVec 8) (dir compat : Bool) (tagLen alg : Nat) :
    (commandWord opc dir compat tagLen alg).extractLsb' 10 6 = 0
      ∧ (commandWord opc dir compat tagLen alg).extractLsb' 21 3 = 0
      ∧ (commandWord opc dir compat tagLen alg).extractLsb' 28 4 = 0 := by
  refine ⟨?_, ?_, ?_⟩
  all_goals
    apply BitVec.eq_of_getLsbD_eq
    intro k hk
    simp only [commandWord, BitVec.getLsbD_extractLsb', BitVec.getLsbD_append, BitVec.getLsbD_ofNat]
    interval_cases k <;> simp

theorem nop : Statement .nop := commandWord_reserved _ _ _ _ _
theorem create (compat : Bool) (alg : Nat) : Statement (.create compat alg) := commandWord_reserved _ _ _ _ _
theorem setkey : Statement .setkey := commandWord_reserved _ _ _ _ _
theorem destroy : Statement .destroy := commandWord_reserved _ _ _ _ _
theorem encb : Statement .encb := commandWord_reserved _ _ _ _ _
theorem decb : Statement .decb := commandWord_reserved _ _ _ _ _
theorem ecbE : Statement .ecbE := commandWord_reserved _ _ _ _ _
theorem ecbD : Statement .ecbD := commandWord_reserved _ _ _ _ _
theorem cbcE : Statement .cbcE := commandWord_reserved _ _ _ _ _
theorem cbcD : Statement .cbcD := commandWord_reserved _ _ _ _ _
theorem cfbE : Statement .cfbE := commandWord_reserved _ _ _ _ _
theorem cfbD : Statement .cfbD := commandWord_reserved _ _ _ _ _
theorem ofb (dir : Bool) : Statement (.ofb dir) := commandWord_reserved _ _ _ _ _
theorem ctr (dir : Bool) : Statement (.ctr dir) := commandWord_reserved _ _ _ _ _
theorem mgmE (tagLen : Nat) : Statement (.mgmE tagLen) := commandWord_reserved _ _ _ _ _
theorem mgmD (tagLen : Nat) : Statement (.mgmD tagLen) := commandWord_reserved _ _ _ _ _
theorem cmac (tagLen : Nat) : Statement (.cmac tagLen) := commandWord_reserved _ _ _ _ _
theorem cmackeys : Statement .cmackeys := commandWord_reserved _ _ _ _ _
theorem gfmul : Statement .gfmul := commandWord_reserved _ _ _ _ _
theorem gfdbl : Statement .gfdbl := commandWord_reserved _ _ _ _ _

end Sys2Proof.Laws.ReservedBitsZero
end

