-- ==== Sys2Proof/Laws/Text.lean ====
section
/-!
SUPPORT. Byte strings, blocks and the lengths of what the modes and the tags produce.
-/

namespace Sys2Proof.Machine

/-! ### Blocks and bytes -/

@[simp] theorem length_bytesOf (b : Block) : (bytesOf b).length = 16 := by simp [bytesOf]

theorem getD_bytesOf (b : Block) (k : Nat) (h : k < 16) : (bytesOf b).getD k 0 = byteOf b k := by
  simp [bytesOf, List.getD_eq_getElem?_getD, h]

@[simp] theorem length_trunc (b : Block) (l : Nat) : (trunc b l).length = min l 16 := by simp [trunc]

@[simp] theorem length_xorBytes (x s : Bytes) : (xorBytes x s).length = min x.length s.length := by
  simp [xorBytes]

theorem getD_xorBytes (x s : Bytes) (k : Nat) (hx : k < x.length) (hs : k < s.length) :
    (xorBytes x s).getD k 0 = x.getD k 0 ^^^ s.getD k 0 := by
  simp [xorBytes, List.getD_eq_getElem?_getD, hx, hs]

/-- Byte `k` of the block of a string: the string's byte, or zero past its end (R10). -/
theorem byteOf_blockOf (bs : Bytes) (k : Nat) (hk : k < 16) : byteOf (blockOf bs) k = bs.getD k 0 := by
  induction bs generalizing k with
  | nil => simp [blockOf, byteOf]
  | cons b bs ih =>
    apply BitVec.eq_of_getLsbD_eq
    intro j hj
    cases k with
    | zero =>
      simp only [byteOf, blockOf, BitVec.getLsbD_extractLsb', BitVec.getLsbD_or, BitVec.getLsbD_shiftLeft,
        BitVec.getLsbD_setWidth, List.getD_cons_zero]
      have h1 : j < 128 := by omega
      simp [hj, h1]
    | succ k =>
      have := congrArg (fun v : Byte => v.getLsbD j) (ih k (by omega))
      simp only [byteOf, BitVec.getLsbD_extractLsb', List.getD_cons_succ, hj, decide_true, Bool.true_and] at this ⊢
      rw [← this]
      simp only [blockOf, BitVec.getLsbD_or, BitVec.getLsbD_shiftLeft, BitVec.getLsbD_setWidth]
      have h1 : 8 * (k + 1) + j < 128 := by omega
      have h2 : ¬8 * (k + 1) + j < 8 := by omega
      have h3 : 8 * (k + 1) + j - 8 = 8 * k + j := by omega
      have h4 : b.getLsbD (8 * (k + 1) + j) = false := BitVec.getLsbD_of_ge _ _ (by omega)
      simp [h1, h2, h3, h4]

/-- Two blocks with the same bytes are equal. -/
theorem block_ext {a b : Block} (h : ∀ k, k < 16 → byteOf a k = byteOf b k) : a = b := by
  apply BitVec.eq_of_getLsbD_eq
  intro i hi
  have := congrArg (fun v : Byte => v.getLsbD (i % 8)) (h (i / 8) (by omega))
  simp only [byteOf, BitVec.getLsbD_extractLsb', Nat.mod_lt i (by omega : 8 > 0), decide_true, Bool.true_and,
    Nat.div_add_mod] at this
  exact this

/-- `blk(val(b)) = b` (R10). -/
theorem blockOf_bytesOf (b : Block) : blockOf (bytesOf b) = b :=
  block_ext fun k hk => by rw [byteOf_blockOf _ _ hk, getD_bytesOf _ _ hk]

/-- `val(blk(v)) = v` for a string of sixteen bytes (R10). -/
theorem bytesOf_blockOf (bs : Bytes) (h : bs.length = 16) : bytesOf (blockOf bs) = bs := by
  apply List.ext_getElem
  · simp [h]
  · intro k h1 h2
    have hk : k < 16 := by omega
    have := byteOf_blockOf bs k hk
    rw [← getD_bytesOf _ _ hk, List.getD_eq_getElem _ _ h1, List.getD_eq_getElem _ _ h2] at this
    exact this

/-- Four registers that hold a block read back as it (R37, R38). -/
theorem blockReg_block (b : Block) : (blockReg b).block = b := by
  apply BitVec.eq_of_getLsbD_eq
  intro i hi
  simp only [blockReg, BlockReg.block, blk32, wordOf, BitVec.getLsbD_append, BitVec.getLsbD_extractLsb']
  by_cases h1 : i < 32
  · simp [h1]
  · by_cases h2 : i < 64
    · simp [h1, show i - 32 < 32 by omega]
      congr 1
      omega
    · by_cases h3 : i < 96
      · simp [h1, show ¬ i - 32 < 32 by omega, show i - 32 - 32 < 32 by omega]
        congr 1
        omega
      · simp [h1, show ¬ i - 32 < 32 by omega, show ¬ i - 32 - 32 < 32 by omega, show i - 32 - 32 - 32 < 32 by omega]
        congr 1
        omega

/-- Register `k` of four holds bytes `4k` to `4k+3` of the block, the first in bits 7:0 (R37). -/
theorem byteOf_block (r : BlockReg) (k : Fin 4) (b : Nat) (hb : b < 4) :
    byteOf r.block (4 * k.val + b) = (r.get k).extractLsb' (8 * b) 8 := by
  apply BitVec.eq_of_getLsbD_eq
  intro i hi
  simp only [byteOf, BlockReg.block, blk32, BitVec.getLsbD_extractLsb', BitVec.getLsbD_append, hi, decide_true,
    Bool.true_and]
  have e : ∀ n, 8 * (4 * n + b) + i = 32 * n + (8 * b + i) := fun n => by omega
  have h : 8 * b + i < 32 := by omega
  rw [e]
  generalize 8 * b + i = j at h
  fin_cases k
  · simp [BlockReg.get, h]
  · simp [BlockReg.get, h, show ¬32 + j < 32 by omega, show 32 + j - 32 = j by omega]
  · simp [BlockReg.get, h, show ¬64 + j < 32 by omega, show ¬64 + j - 32 < 32 by omega,
      show 64 + j - 32 - 32 = j by omega]
  · simp [BlockReg.get, show ¬96 + j < 32 by omega, show ¬96 + j - 32 < 32 by omega,
      show ¬96 + j - 32 - 32 < 32 by omega, show 96 + j - 32 - 32 - 32 = j by omega]

/-- Exclusive-or with one string twice gives the text back, where the string covers it. -/
theorem xorBytes_xorBytes (x s : Bytes) (h : x.length ≤ s.length) : xorBytes (xorBytes x s) s = x := by
  induction x generalizing s with
  | nil => simp [xorBytes]
  | cons a x ih =>
    cases s with
    | nil => simp at h
    | cons b s =>
      have := ih s (by simpa using h)
      simp only [xorBytes, List.zipWith_cons_cons] at this ⊢
      rw [this, BitVec.xor_assoc, BitVec.xor_self, BitVec.xor_zero]

/-! ### Pieces of a message -/

/-- The pieces of a message, joined, are the message. -/
theorem flatten_pieces (n : Nat) (bs : Bytes) (h : bs.length ≤ 16 * n) : (pieces n bs).flatten = bs := by
  induction n generalizing bs with
  | zero => simp at h; simp [pieces, h]
  | succ n ih =>
    rw [pieces, List.flatten_cons, ih _ (by rw [List.length_drop]; omega), List.take_append_drop]

theorem flatten_messageBlocks (bs : Bytes) : (messageBlocks bs).flatten = bs :=
  flatten_pieces _ _ (by unfold blocksFor; omega)

@[simp] theorem length_messageBlocks (bs : Bytes) : (messageBlocks bs).length = blocksFor bs.length := by
  have : ∀ n (bs : Bytes), (pieces n bs).length = n := by
    intro n
    induction n with
    | zero => intro bs; rfl
    | succ n ih => intro bs; simp [pieces, ih]
  exact this _ _

theorem getElem_pieces (n : Nat) (bs : Bytes) (i : Nat) (h : i < n) :
    (pieces n bs)[i]? = some ((bs.drop (16 * i)).take 16) := by
  induction n generalizing bs i with
  | zero => omega
  | succ n ih =>
    cases i with
    | zero => simp [pieces]
    | succ i => rw [pieces, List.getElem?_cons_succ, ih _ _ (by omega), List.drop_drop]; congr 3; omega

/-- Block `i` of a message (R100). -/
theorem getElem_messageBlocks (bs : Bytes) (i : Nat) (h : i < blocksFor bs.length) :
    (messageBlocks bs)[i]? = some ((bs.drop (16 * i)).take 16) :=
  getElem_pieces _ _ _ h

theorem messageBlocks_nil : messageBlocks [] = [] := rfl

/-- A message of at least one byte begins with its first block. -/
theorem messageBlocks_cons (bs : Bytes) (h : 0 < bs.length) :
    messageBlocks bs = bs.take 16 :: messageBlocks (bs.drop 16) := by
  unfold messageBlocks blocksFor
  obtain ⟨n, hn⟩ : ∃ n, (bs.length + 15) / 16 = n + 1 := ⟨(bs.length + 15) / 16 - 1, by omega⟩
  have : ((bs.drop 16).length + 15) / 16 = n := by rw [List.length_drop]; omega
  rw [hn, this, pieces]

/-- A message that begins with a whole block has that as its first piece. -/
theorem messageBlocks_append (b bs : Bytes) (h : b.length = 16) : messageBlocks (b ++ bs) = b :: messageBlocks bs := by
  rw [messageBlocks_cons _ (by simp [h]), ← h, List.take_left, List.drop_left]

/-- Every block of a message has at most sixteen bytes. -/
theorem length_le_of_mem_messageBlocks {bs b : Bytes} (h : b ∈ messageBlocks bs) : b.length ≤ 16 := by
  obtain ⟨i, hi, rfl⟩ := List.getElem_of_mem h
  have hi' : i < blocksFor bs.length := by simpa using hi
  have := getElem_messageBlocks bs i hi'
  rw [List.getElem?_eq_getElem hi, Option.some_inj] at this
  rw [this]
  simp

/-- Every block of a message of whole blocks has sixteen bytes. -/
theorem length_eq_of_mem_messageBlocks {bs b : Bytes} (hw : bs.length % 16 = 0) (h : b ∈ messageBlocks bs) :
    b.length = 16 := by
  obtain ⟨i, hi, rfl⟩ := List.getElem_of_mem h
  have hi' : i < blocksFor bs.length := by simpa using hi
  have := getElem_messageBlocks bs i hi'
  rw [List.getElem?_eq_getElem hi, Option.some_inj] at this
  rw [this]
  unfold blocksFor at hi'
  simp
  omega

/-! ### Lengths of the modes' outputs -/

/-- A step whose output is as long as its block gives a text as long as the blocks. -/
theorem length_chainLoop (f : Bytes → Block → Bytes × Block) (bs : List Bytes)
    (hf : ∀ b ∈ bs, ∀ r, (f b r).1.length = b.length) (i : Nat) (r : List Block) :
    (chainLoop f i r bs).length = bs.flatten.length := by
  induction bs generalizing i r with
  | nil => rfl
  | cons b bs ih =>
    rw [chainLoop, List.length_append, ih (fun c hc => hf c (by simp [hc])), hf b (by simp), List.flatten_cons,
      List.length_append]

theorem length_chainText (f : Bytes → Block → Bytes × Block) (iv text : Bytes)
    (hf : ∀ b ∈ messageBlocks text, ∀ r, (f b r).1.length = b.length) : (chainText f iv text).length = text.length := by
  rw [chainText, length_chainLoop f _ hf, flatten_messageBlocks]

theorem length_counterLoop (s : Vector Word 44) (next : Block → Block) (bs : List Bytes) (c : Block)
    (h : ∀ b ∈ bs, b.length ≤ 16) : (counterLoop s next c bs).length = bs.flatten.length := by
  induction bs generalizing c with
  | nil => rfl
  | cons b bs ih =>
    have := h b (by simp)
    rw [counterLoop, List.length_append, ih _ (fun d hd => h d (by simp [hd])), List.flatten_cons, List.length_append,
      length_xorBytes, length_bytesOf, Nat.min_eq_left this]

@[simp] theorem length_ctrText (s : Vector Word 44) (iv text : Bytes) : (ctrText s iv text).length = text.length := by
  rw [ctrText, length_counterLoop _ _ _ _ fun b hb => length_le_of_mem_messageBlocks hb, flatten_messageBlocks]

@[simp] theorem length_mgmText (p : Config.Platform) (s : Vector Word 44) (nu : Block) (text : Bytes) :
    (mgmText p s nu text).length = text.length := by
  rw [mgmText, length_counterLoop _ _ _ _ fun b hb => length_le_of_mem_messageBlocks hb, flatten_messageBlocks]

@[simp] theorem length_cfbEncrypt (s : Vector Word 44) (iv text : Bytes) :
    (chainText (cfbEncryptStep s) iv text).length = text.length :=
  length_chainText _ _ _ fun b hb r => by
    have := length_le_of_mem_messageBlocks hb
    simp [cfbEncryptStep, this]

@[simp] theorem length_cfbDecrypt (s : Vector Word 44) (iv text : Bytes) :
    (chainText (cfbDecryptStep s) iv text).length = text.length :=
  length_chainText _ _ _ fun b hb r => by
    have := length_le_of_mem_messageBlocks hb
    simp [cfbDecryptStep, this]

@[simp] theorem length_ofb (s : Vector Word 44) (iv text : Bytes) :
    (chainText (ofbStep s) iv text).length = text.length :=
  length_chainText _ _ _ fun b hb r => by
    have := length_le_of_mem_messageBlocks hb
    simp [ofbStep, this]

theorem length_cbcEncrypt (s : Vector Word 44) (iv text : Bytes) (h : text.length % 16 = 0) :
    (chainText (cbcEncryptStep s) iv text).length = text.length :=
  length_chainText _ _ _ fun b hb r => by simp [cbcEncryptStep, length_eq_of_mem_messageBlocks h hb]

theorem length_cbcDecrypt (s : Vector Word 44) (iv text : Bytes) (h : text.length % 16 = 0) :
    (chainText (cbcDecryptStep s) iv text).length = text.length :=
  length_chainText _ _ _ fun b hb r => by simp [cbcDecryptStep, length_eq_of_mem_messageBlocks h hb]

theorem length_ecbText (f : Block → Block) (text : Bytes) (h : text.length % 16 = 0) :
    (ecbText f text).length = text.length := by
  unfold ecbText
  have : ∀ bs : List Bytes, (∀ b ∈ bs, b.length = 16) →
      (bs.flatMap fun b => bytesOf (f (blockOf b))).length = bs.flatten.length := by
    intro bs
    induction bs with
    | nil => intro _; rfl
    | cons b bs ih =>
      intro hb
      simp only [List.flatMap_cons, List.length_append, List.flatten_cons, length_bytesOf, hb b (by simp)]
      rw [ih fun c hc => hb c (by simp [hc])]
  rw [this _ fun b hb => length_eq_of_mem_messageBlocks h hb, flatten_messageBlocks]

end Sys2Proof.Machine
end

