-- ==== Sys2Proof/Laws/Products.lean ====
section
/-!
SUPPORT. What a keyed command stores: where, how much, and what memory holds after it.
-/

namespace Sys2Proof.Machine

open Sys2Proof.Config

/-! ### Stores -/

@[simp] theorem storeAll_nil (m : Memory) : storeAll m [] = m := rfl

theorem storeAll_cons (m : Memory) (a : Nat) (bs : Bytes) (rest : List (Nat × Bytes)) :
    storeAll m ((a, bs) :: rest) = storeAll (m.writeBytes a bs) rest := rfl

/-- A byte outside every store is as before (R70). -/
theorem read_storeAll_outside (stores : List (Nat × Bytes)) (m : Memory) (a : Nat)
    (h : ∀ st ∈ stores, ¬(st.1 ≤ a ∧ a < st.1 + st.2.length)) : (storeAll m stores).read a = m.read a := by
  induction stores generalizing m with
  | nil => rfl
  | cons st rest ih =>
    obtain ⟨b, bs⟩ := st
    rw [storeAll_cons, ih _ fun st hst => h st (by simp [hst]), Memory.read_writeBytes,
      if_neg (h (b, bs) (by simp))]

/-- One store, read back. -/
theorem holdsAt_writeBytes (m : Memory) (base : Nat) (bs : Bytes) : HoldsAt (m.writeBytes base bs) m base bs :=
  fun a => Memory.read_writeBytes bs m base a

/-- Stores inside the address space keep the canonical form. -/
theorem storeAll_wf (stores : List (Nat × Bytes)) (m : Memory) (hm : m.wf = true)
    (h : ∀ st ∈ stores, st.1 + st.2.length ≤ 2 ^ 32) : (storeAll m stores).wf = true := by
  induction stores generalizing m with
  | nil => exact hm
  | cons st rest ih =>
    rw [storeAll_cons]
    exact ih _ (m.writeBytes_wf _ _ hm (h st (by simp))) fun st hst => h st (by simp [hst])

/-- Stores list no address but those they store to. -/
theorem mem_storeAll (stores : List (Nat × Bytes)) (m : Memory) (c : Host.Cell) (hc : c ∈ storeAll m stores) :
    (∃ st ∈ stores, st.1 ≤ c.1 ∧ c.1 < st.1 + st.2.length) ∨ c ∈ m := by
  induction stores generalizing m with
  | nil => exact .inr hc
  | cons st rest ih =>
    rw [storeAll_cons] at hc
    rcases ih _ hc with ⟨st', h', hr⟩ | h
    · exact .inl ⟨st', by simp [h'], hr⟩
    · rcases Memory.mem_writeBytes _ _ _ _ h with h | h
      · exact .inl ⟨st, by simp, h⟩
      · exact .inr h

@[simp] theorem length_anyBytes (d n : Nat) : (anyBytes d n).length = n := by simp [anyBytes]

/-! ### Stores and regions -/

/-- A store that fills a written buffer of the command. -/
def FillsBuffer (i : Instr) (s : State) (st : Nat × Bytes) : Prop :=
  ∃ r ∈ buffers i s, r.written = true ∧ r.base = st.1 ∧ r.len = st.2.length

/-- Where its checks pass, every store of a keyed command fills one of its written buffers (R61). -/
theorem productOf_fills (i : Instr) (s : State) (hc : firstError (argChecks i s) = none) :
    ∀ st ∈ (productOf i s).stores, FillsBuffer i s st := by
  have hin : (inputText s).length = s.len.toNat := by simp [inputText]
  have whole : firstError (wholeBlocksCheck s) = none → (inputText s).length % 16 = 0 := by
    intro h
    simpa [wholeBlocksCheck, hin] using h
  have tag : ∀ l, firstError [(l == 0 || decide (16 < l), ErrCode.invalidTagLength)] = none → min l 16 = l := by
    intro l h
    simp at h
    omega
  have split : ∀ xs ys : List (Bool × ErrCode), firstError (xs ++ ys) = none →
      firstError xs = none ∧ firstError ys = none := by
    intro xs ys h
    simp only [firstError_none, List.mem_append] at h ⊢
    exact ⟨fun c hc => h c (.inl hc), fun c hc => h c (.inr hc)⟩
  have head : ∀ (x : Bool × ErrCode) (xs : List (Bool × ErrCode)), firstError (x :: xs) = none →
      firstError [x] = none := fun x xs h => (split [x] xs h).1
  cases i with
  | ecbE | ecbD =>
    have := whole (split _ _ hc).1
    simp [productOf, modeProduct, FillsBuffer, buffers]
    rw [length_ecbText _ _ this, hin]
  | cbcE | cbcD =>
    have := whole (split _ _ (split _ _ (split _ _ hc).1).1).2
    simp [productOf, modeProduct, FillsBuffer, buffers]
    first
      | rw [length_cbcEncrypt _ _ _ this, hin]
      | rw [length_cbcDecrypt _ _ _ this, hin]
  | cfbE | cfbD | ofb _ | ctr _ => simp [productOf, modeProduct, FillsBuffer, buffers, hin]
  | mgmE l | mgmD l | cmac l =>
    have := tag l (head _ _ hc)
    simp [productOf, mgmEncryptProduct, mgmDecryptProduct, FillsBuffer, buffers, hin, this]
  | nop | create _ _ | setkey | destroy | gfmul | gfdbl | encb | decb | cmackeys => simp [productOf]

/-- A store that fills a buffer lies in a written region of the command wherever it stores a byte (R67). -/
theorem FillsBuffer.region {i : Instr} {s : State} {st : Nat × Bytes} (h : FillsBuffer i s st) {a : Nat}
    (ha : st.1 ≤ a ∧ a < st.1 + st.2.length) : ∃ r ∈ regions i s, r.written = true ∧ r.holds a = true := by
  obtain ⟨r, hr, hw, hb, hl⟩ := h
  refine ⟨r, List.mem_filter.mpr ⟨hr, ?_⟩, hw, ?_⟩
  · simp; omega
  · simp [Region.holds]; omega

/-! ### Bytes that exist -/

/-- Every byte of an admitted run exists (R69). -/
theorem memAdmits_of_bytesAdmitted {p : Platform} {base n : Nat} (h : bytesAdmitted p base n = true) {a : Nat}
    (ha : base ≤ a ∧ a < base + n) (hu : a < 2 ^ 32) : memAdmits p a = true := by
  induction n generalizing base with
  | zero => omega
  | succ n ih =>
    simp only [bytesAdmitted, Bool.and_eq_true, Bool.or_eq_true, decide_eq_true_eq] at h
    by_cases hb : a = base
    · exact h.1.resolve_left (by omega) |> (hb ▸ ·)
    · exact ih h.2 (by omega)

/-- Every byte of an admitted region exists (R69). -/
theorem memAdmits_of_region {i : Instr} {s : State} (h : regionsAdmitted i s = true) {r : Region}
    (hr : r ∈ regions i s) {a : Nat} (ha : r.holds a = true) (hu : a < 2 ^ 32) : memAdmits s.plat a = true := by
  have := List.all_eq_true.mp h r hr
  simp only [Region.holds, Bool.and_eq_true, decide_eq_true_eq] at ha
  exact memAdmits_of_bytesAdmitted this ha hu

/-- The regions of a keyed command whose operands are in order lie in the address space (R66). -/
theorem region_within {i : Instr} {s : State} (hi : isKeyed i = true) (ha : ArgsOk i s) {r : Region}
    (hr : r ∈ regions i s) : r.base + r.len ≤ 2 ^ 32 := by
  have ok : ∀ (a : Word) (n : Nat), regionOk a n = true → n ≠ 0 → a.toNat + n ≤ 2 ^ 32 := by
    intro a n h hn
    simp only [regionOk, Bool.or_eq_true, beq_iff_eq, Bool.and_eq_true, decide_eq_true_eq] at h
    exact (h.resolve_left hn).2
  obtain ⟨hb, hl⟩ := List.mem_filter.mp hr
  have hl : r.len ≠ 0 := by simpa using hl
  cases i with
  | nop | create _ _ | setkey | destroy | gfmul | gfdbl => exact Bool.noConfusion hi
  | encb | decb | cmackeys => simp [buffers] at hb
  | ecbE | ecbD | cbcE | cbcD | cfbE | cfbD | ofb _ | ctr _ | mgmE _ | mgmD _ | cmac _ =>
    simp only [ArgsOk, TextOk, ChainIvOk, CtrIvOk, MgmOk, CmacOk] at ha
    simp only [buffers, List.mem_cons, List.not_mem_nil, or_false] at hb
    first
      | (rcases hb with rfl | rfl <;> exact ok _ _ (by simp_all) hl)
      | (rcases hb with rfl | rfl | rfl <;> exact ok _ _ (by simp_all) hl)
      | (rcases hb with rfl | rfl | rfl | rfl | rfl <;> exact ok _ _ (by simp_all) hl)

/-- An address that exists is a u32 (R60). -/
theorem lt_of_memAdmits {p : Platform} {a : Nat} (h : memAdmits p a = true) : a < 2 ^ 32 := by
  simp only [memAdmits, Bool.and_eq_true, decide_eq_true_eq] at h
  exact h.1

/-- Writing bytes that exist keeps the canonical form and the existence of every listed byte. -/
theorem writeBytes_kept (p : Platform) (bs : Bytes) (m : Memory) (base : Nat) (hm : m.wf = true)
    (hl : ∀ c ∈ m, memAdmits p c.1 = true) (h : ∀ a, base ≤ a ∧ a < base + bs.length → memAdmits p a = true) :
    (m.writeBytes base bs).wf = true ∧ ∀ c ∈ m.writeBytes base bs, memAdmits p c.1 = true := by
  induction bs generalizing m base with
  | nil => exact ⟨hm, hl⟩
  | cons b bs ih =>
    rw [List.length_cons] at h
    rw [Memory.writeBytes]
    have hb := h base (by omega)
    refine ih _ _ (m.write_wf base b hm (lt_of_memAdmits hb)) (fun c hc => ?_) fun a ha => h a (by omega)
    rcases m.mem_write base b c hc with hc | hc
    · exact hc ▸ hb
    · exact hl c hc

/-- Storing bytes that exist keeps the canonical form and the existence of every listed byte. -/
theorem storeAll_kept (p : Platform) (stores : List (Nat × Bytes)) (m : Memory) (hm : m.wf = true)
    (hl : ∀ c ∈ m, memAdmits p c.1 = true)
    (h : ∀ st ∈ stores, ∀ a, st.1 ≤ a ∧ a < st.1 + st.2.length → memAdmits p a = true) :
    (storeAll m stores).wf = true ∧ ∀ c ∈ storeAll m stores, memAdmits p c.1 = true := by
  induction stores generalizing m with
  | nil => exact ⟨hm, hl⟩
  | cons st rest ih =>
    obtain ⟨a, bs⟩ := st
    have := writeBytes_kept p bs m a hm hl (h (a, bs) (by simp))
    exact ih _ this.1 this.2 fun st hst => h st (by simp [hst])

/-! ### Free bytes -/

/-- Bytes made any value change nothing outside them (R45, R341). -/
theorem read_freeBytes (p : Platform) (n : Nat) (m : Memory) (a d x : Nat) (h : ¬(a ≤ x ∧ x < a + n)) :
    (freeBytes p m a d n).read x = m.read x := by
  induction n generalizing m a d with
  | zero => rfl
  | succ n ih =>
    rw [freeBytes, ih _ _ _ (by omega)]
    split
    · rw [Memory.read_write, if_neg (by omega)]
    · rfl

/-- Regions made any value change nothing outside them (R45, R341). -/
theorem read_freeRegions (p : Platform) (rs : List Region) (m : Memory) (d x : Nat)
    (h : ∀ r ∈ rs, r.holds x = false) : (freeRegions p m d rs).1.read x = m.read x := by
  induction rs generalizing m d with
  | nil => rfl
  | cons r rs ih =>
    rw [freeRegions, ih _ _ fun q hq => h q (by simp [hq]), read_freeBytes]
    have := h r (by simp)
    simp [Region.holds] at this
    omega

/-- A byte that exists and is made any value is a free byte, drawn then (R45, R341). -/
theorem read_freeBytes_inside (p : Platform) (n : Nat) (m : Memory) (a d x : Nat) (h : a ≤ x ∧ x < a + n)
    (hx : memAdmits p x = true) : ∃ k, d ≤ k ∧ k < d + n ∧ (freeBytes p m a d n).read x = anyByte k := by
  induction n generalizing m a d with
  | zero => omega
  | succ n ih =>
    rw [freeBytes]
    by_cases hxa : x = a
    · refine ⟨d, by omega, by omega, ?_⟩
      rw [read_freeBytes _ _ _ _ _ _ (by omega), if_pos (hxa ▸ hx), Memory.read_write, if_pos hxa]
    · obtain ⟨k, h1, h2, h3⟩ := ih (if memAdmits p a then m.write a (anyByte d) else m) (a + 1) (d + 1) (by omega)
      exact ⟨k, by omega, by omega, h3⟩

/-- The draws only go on. -/
theorem freeRegions_draws (p : Platform) (rs : List Region) (m : Memory) (d : Nat) : d ≤ (freeRegions p m d rs).2 := by
  induction rs generalizing m d with
  | nil => exact Nat.le_refl d
  | cons r rs ih =>
    have := ih (freeBytes p m r.base d r.len) (d + r.len)
    rw [freeRegions]
    omega

/-- A byte that exists, in a region that is made any value, is a free byte, drawn then (R45, R341). -/
theorem read_freeRegions_inside (p : Platform) (rs : List Region) (m : Memory) (d x : Nat)
    (h : ∃ r ∈ rs, r.holds x = true) (hx : memAdmits p x = true) :
    ∃ k, d ≤ k ∧ k < (freeRegions p m d rs).2 ∧ (freeRegions p m d rs).1.read x = anyByte k := by
  induction rs generalizing m d with
  | nil => simp at h
  | cons r rs ih =>
    rw [freeRegions]
    by_cases hrs : ∃ q ∈ rs, q.holds x = true
    · obtain ⟨k, h1, h2, h3⟩ := ih (freeBytes p m r.base d r.len) (d + r.len) hrs
      exact ⟨k, by omega, h2, h3⟩
    · have hr : r.holds x = true := by
        obtain ⟨q, hq, hqx⟩ := h
        rcases List.mem_cons.mp hq with rfl | hq
        · exact hqx
        · exact absurd ⟨q, hq, hqx⟩ hrs
      simp only [Region.holds, Bool.and_eq_true, decide_eq_true_eq] at hr
      obtain ⟨k, h1, h2, h3⟩ := read_freeBytes_inside p r.len m r.base d x hr hx
      have hd := freeRegions_draws p rs (freeBytes p m r.base d r.len) (d + r.len)
      refine ⟨k, h1, by omega, ?_⟩
      rw [read_freeRegions, h3]
      intro q hq
      cases hqx : q.holds x
      · rfl
      · exact absurd ⟨q, hq, hqx⟩ hrs

/-- Bytes made any value keep the canonical form and the existence of every listed byte. -/
theorem freeBytes_kept (p : Platform) (n : Nat) (m : Memory) (a d : Nat) (hm : m.wf = true)
    (hl : ∀ c ∈ m, memAdmits p c.1 = true) :
    (freeBytes p m a d n).wf = true ∧ ∀ c ∈ freeBytes p m a d n, memAdmits p c.1 = true := by
  induction n generalizing m a d with
  | zero => exact ⟨hm, hl⟩
  | succ n ih =>
    rw [freeBytes]
    split
    · rename_i ha
      refine ih _ _ _ (m.write_wf a _ hm (lt_of_memAdmits ha)) fun c hc => ?_
      rcases m.mem_write a _ c hc with hc | hc
      · exact hc ▸ ha
      · exact hl c hc
    · exact ih _ _ _ hm hl

/-- Regions made any value keep the canonical form and the existence of every listed byte. -/
theorem freeRegions_kept (p : Platform) (rs : List Region) (m : Memory) (d : Nat) (hm : m.wf = true)
    (hl : ∀ c ∈ m, memAdmits p c.1 = true) :
    (freeRegions p m d rs).1.wf = true ∧ ∀ c ∈ (freeRegions p m d rs).1, memAdmits p c.1 = true := by
  induction rs generalizing m d with
  | nil => exact ⟨hm, hl⟩
  | cons r rs ih =>
    have := freeBytes_kept p r.len m r.base d hm hl
    exact ih _ _ this.1 this.2

/-- Memory after reset lists nothing, so it is canonical. -/
theorem reset_mem_wf : State.reset.mem.wf = true := rfl

end Sys2Proof.Machine
end

