-- ==== Sys2Proof/Tests/Slice0.lean ====
section
/-!
SUPPORT. The model's own tests: WellFormed's smoke tests, written-out command words, the vectors of
95_test_vectors.md, and for every obligation with hypotheses a state and operands that meet them.
-/

namespace Sys2Proof.Tests

open Sys2Proof Sys2Proof.Machine Sys2Proof.Config

/- One theorem at a time: the kernel's evaluations would else wait on more threads than fit the memory. -/
set_option Elab.async false

/-! ### Small states -/

/-- The platform instance of 95_test_vectors.md section 4, with ENV allowed. -/
def demoPlatform : Platform where
  coreBasePage := 0x400000
  memMap       := [(0x1000, 0x7fff)]
  resourceMax  := 1000
  zMax         := 4
  allowUpset   := true
  mgmDerive    := .direct
  mgmIncrement := .full
  mgmFinal     := .encryptAcc
  mgmMaxAd     := 4294967295
  mgmMaxText   := 4294967295
  integrity    := .rotateXor

/-- The same where every byte exists: the vectors of section 3 name no MEM_ADMITS. -/
def wholePlatform : Platform := { demoPlatform with memMap := [(0, 0xFFFFFFFF)] }

/-- `n` bytes counting up from `a`. -/
def counting (a n : Nat) : Bytes := (List.range n).map fun i => BitVec.ofNat 8 (a + i)

/-- KEYX of 95_test_vectors.md. -/
def keyx : Vector Word 8 := keyWords (counting 0 32)

/-- The round keys of KEYX; test_schedule says that they are, and its values at 0 to 3, 42 and 43 stand in
95_test_vectors.md section 3.3. -/
def keyxRoundKeys : Vector Word 44 := #v[
  0xb78a5d75, 0x6c9fc93b, 0x133a70d4, 0xb8e1bba8, 0xc51fee60, 0x9c13b2b5, 0x2fcfde01, 0x8df033ca,
  0x517024df, 0x35d07c81, 0x83a9ac88, 0xf40b004a, 0xedd5a702, 0x8d2bca96, 0xee7685ff, 0x3fcf3629,
  0x3ab94c14, 0xd74eb331, 0x8a9c8c99, 0x59d3d094, 0x7cee977f, 0xd04df6e4, 0x67c729b6, 0x4472ac15,
  0x814472c0, 0xe4971e9a, 0x31ec3125, 0x372c4e12, 0x9a62fffd, 0x4c804eec, 0x81acf412, 0x5b201a4a,
  0xf90a032e, 0x6757acd8, 0x3ddff4e3, 0x01a0b36e, 0x999f5a57, 0x28381358, 0x13d59ad1, 0x2da1543a,
  0xf893ea0a, 0xace05693, 0x3005e053, 0x92d058b0]

/-- An idle CORE after reset on that platform. -/
def idleCore : State := { State.reset with plat := demoPlatform }

/-- A command in flight on a CORE without a key. -/
def busyCore : State := { idleCore with seq := .busy }

/-- A command in flight on a CORE with KEYX: P48 at 0x1000, the IV bytes at 0x2000, AD24 at 0x3000. -/
def keyedCore (iv : Bytes) : State :=
  { busyCore with
    ctx := { KeyContext.reset with
      keyed := true, k := keyx, s := keyxRoundKeys, ic := 0x4460804a, res := 1000 }
    src := 0x1000, dst := 0x1100, len := 48
    ivaddr := 0x2000, ivlen := BitVec.ofNat 32 iv.length
    adaddr := 0x3000, adlen := 24, tagaddr := 0x4000
    mem := ((Memory.writeBytes [] 0x1000 (counting 0x20 48)).writeBytes 0x2000 iv).writeBytes 0x3000 (counting 0x80 24) }

def iv16 : Bytes := counting 0xf0 16
def iv32 : Bytes := iv16 ++ counting 0x40 16
def iv8 : Bytes := counting 0xa0 8
def nonce : Bytes := counting 0x60 16

/-- The code an outcome ends with and `n` bytes of its memory from `a` on. -/
def result (a n : Nat) : Host.Outcome State Fault Refusal → Option (ErrCode × Bytes)
  | .next t => some (t.err, t.mem.readBytes a n)
  | .fault _ => none
  | .refused _ => none

/-- What a test looks at in the next state of an outcome. -/
def seen {α : Type} (f : State → α) : Host.Outcome State Fault Refusal → Option α
  | .next t => some (f t)
  | .fault _ => none
  | .refused _ => none

/-! ### WellFormed refuses what no word encodes (R92, R94) -/

theorem test_wf_refuses_alg : (Instr.create true 16).wf = false := by decide
theorem test_wf_refuses_mgmE : (Instr.mgmE 32).wf = false := by decide
theorem test_wf_refuses_mgmD : (Instr.mgmD 32).wf = false := by decide
theorem test_wf_refuses_cmac : (Instr.cmac 32).wf = false := by decide

/-! ### Command words written out from R91 and R96: reserved, ALG, reserved, TAGLEN, reserved, COMPAT, DIR, OPC -/

theorem test_word_nop : decode 0b00000000000000000000000000000000#32 = .ok .nop := by decide
theorem test_word_create : decode 0b00000101000000000000001000000001#32 = .ok (.create true 5) := by decide
theorem test_word_setkey : decode 0b00000000000000000000000000000010#32 = .ok .setkey := by decide
theorem test_word_destroy : decode 0b00000000000000000000000000000011#32 = .ok .destroy := by decide
theorem test_word_encb : decode 0b00000000000000000000000000000100#32 = .ok .encb := by decide
theorem test_word_decb : decode 0b00000000000000000000000000000101#32 = .ok .decb := by decide
theorem test_word_ecbE : decode 0b00000000000000000000000000000110#32 = .ok .ecbE := by decide
theorem test_word_ecbD : decode 0b00000000000000000000000100000110#32 = .ok .ecbD := by decide
theorem test_word_cbcE : decode 0b00000000000000000000000000000111#32 = .ok .cbcE := by decide
theorem test_word_cbcD : decode 0b00000000000000000000000100000111#32 = .ok .cbcD := by decide
theorem test_word_cfbE : decode 0b00000000000000000000000000001000#32 = .ok .cfbE := by decide
theorem test_word_cfbD : decode 0b00000000000000000000000100001000#32 = .ok .cfbD := by decide
theorem test_word_ofb : decode 0b00000000000000000000000100001001#32 = .ok (.ofb true) := by decide
theorem test_word_ctr : decode 0b00000000000000000000000000001010#32 = .ok (.ctr false) := by decide
theorem test_word_mgmE : decode 0b00000000000100000000000000001011#32 = .ok (.mgmE 16) := by decide
theorem test_word_mgmD : decode 0b00000000000010000000000100001011#32 = .ok (.mgmD 8) := by decide
theorem test_word_cmac : decode 0b00000000000111110000000000001100#32 = .ok (.cmac 31) := by decide
theorem test_word_cmackeys : decode 0b00000000000000000000000000001101#32 = .ok .cmackeys := by decide
theorem test_word_gfmul : decode 0b00000000000000000000000000001110#32 = .ok .gfmul := by decide
theorem test_word_gfdbl : decode 0b00000000000000000000000000001111#32 = .ok .gfdbl := by decide

/-- The illegal words of 95_test_vectors.md section 3.1. -/
theorem test_words_illegal :
    [0x00000104#32, 0x00000010#32, 0x000000FF#32, 0x00000400#32, 0x80000000#32, 0x00040006#32, 0x0020000C#32].map
      (fun w => decodeTableWord 32 w.toNat) = List.replicate 7 none := by decide

theorem test_table_word : decodeTableWord 32 0x0010010B = some (.mgmD 16) := by decide

/-- A word placed where the CORE takes its command runs as the next step (log entry 16). -/
theorem test_fetch_word_runs : seen (·.ctx.compat) (step (State.reset.withFetchWord 32 0x00000201)) = some true := by
  decide

/-! ### The vectors of 95_test_vectors.md section 3 -/

/-- GFMUL: x^127 times x^127. -/
theorem test_gfmul : seen (·.dout.block)
    (exec .gfmul { busyCore with din := blockReg (1 <<< 127), dinb := blockReg (1 <<< 127) })
      = some 0xc0000000000000000000000000001067 := by decide +kernel

theorem test_gfdbl : seen (·.dout.block) (exec .gfdbl { busyCore with din := blockReg (1 <<< 127) }) = some 0x87 := by
  decide +kernel

/-- NOP with IE = 1: STATUS reads DONE, the IRQ is up. -/
theorem test_nop : seen (fun t => (t.status, t.irq)) (exec .nop { busyCore with ie := true }) = some (2, true) := by
  decide

theorem test_create_unsupported : seen (·.err) (exec (.create false 1) busyCore) = some .unsupportedPrimitive := by decide

/-- SETKEY of KEYX: ICODE, RESOURCE and STATUS. -/
theorem test_setkey : seen (fun t => (t.ctx.ic, t.ctx.res, t.status))
    (exec .setkey { busyCore with src := 0x1000, len := 32, mem := Memory.writeBytes [] 0x1000 (counting 0 32) })
      = some (0x4460804a, 1000, 6) := by decide +kernel

/-- The key schedule of KEYX. -/
theorem test_schedule : rc6Schedule keyx = keyxRoundKeys := by decide +kernel

/-- SETKEY that would wrap past 2^32, where all bytes below exist. -/
theorem test_setkey_wrap : seen (·.err) (exec .setkey { busyCore with plat := wholePlatform, src := 0xFFFFFFF0, len := 32 })
    = some .invalidArgument := by decide

theorem test_destroy : seen (fun t => (t.ctx.keyed, t.ctx.res, t.ctx.ic)) (exec .destroy (keyedCore iv16))
    = some (false, 0, 0) := by decide +kernel

theorem test_encb : seen (fun t => (t.dout.block, t.ctx.res)) (exec .encb (keyedCore iv16))
    = some (0x4b07a797ef73f4617c7de0f44b00ec6c, 999) := by decide +kernel

/-- Integrity before resource: without a key ENCB reports KeyIntegrityViolation. -/
theorem test_encb_no_key : seen (·.err) (exec .encb busyCore) = some .keyIntegrityViolation := by decide

theorem test_decb : seen (·.dout.block) (exec .decb (keyedCore iv16))
    = some 0x38195ac7f215d890ced9875969767a2f := by decide +kernel

theorem test_ecbE : result 0x1100 8 (exec .ecbE (keyedCore iv16))
    = some (.ok, [0xbc, 0x33, 0x5d, 0x54, 0x89, 0x52, 0x22, 0xce]) := by decide +kernel

theorem test_ecbE_length : seen (·.err) (exec .ecbE { keyedCore iv16 with len := 8 }) = some .invalidDataLength := by
  decide

/-- `text` at SRC = DST in place of P48. -/
def inPlace (iv text : Bytes) : State :=
  { keyedCore iv with
    dst := 0x1000
    len := BitVec.ofNat 32 text.length
    mem := (Memory.writeBytes [] 0x2000 iv).writeBytes 0x1000 text }

/-- ECB.D in place of the first block of ECB.E's output. -/
theorem test_ecbD : result 0x1000 16 (exec .ecbD (inPlace iv16
    [0xbc, 0x33, 0x5d, 0x54, 0x89, 0x52, 0x22, 0xce, 0x94, 0x44, 0xc7, 0xc8, 0xf9, 0x2d, 0xd2, 0xdd]))
      = some (.ok, counting 0x20 16) := by decide +kernel

/-- CBC.E of P48 under IV32: the second and the third block. -/
theorem test_cbcE : result 0x1110 32 (exec .cbcE (keyedCore iv32))
    = some (.ok, [0x5a, 0x21, 0x8e, 0x0f, 0xe2, 0x42, 0x85, 0x81, 0xea, 0x73, 0x33, 0xe1, 0xb8, 0x83, 0x89, 0x17,
        0x46, 0xb6, 0x23, 0x2a, 0xbe, 0xf5, 0xa5, 0x4e, 0x10, 0x92, 0x82, 0x8f, 0x95, 0x12, 0x6e, 0x1f]) := by
  decide +kernel

/-- CBC.E with five IV blocks and a bad length: the IV's capacity comes first. -/
theorem test_cbcE_order : seen (·.err) (exec .cbcE { keyedCore iv16 with ivlen := 80, len := 20 })
    = some .allocationFailure := by decide

/-- CBC.D in place on the ciphertext of the first 32 bytes. -/
theorem test_cbcD : result 0x1000 32 (exec .cbcD (inPlace iv16
    [0x2a, 0x41, 0x0e, 0x3e, 0x33, 0x63, 0x4a, 0xea, 0x16, 0xb8, 0x89, 0xf3, 0xc9, 0xb3, 0x54, 0xac,
     0x07, 0xcb, 0x76, 0x9a, 0xa4, 0x58, 0x6a, 0xd4, 0x8e, 0x7f, 0xda, 0x06, 0x45, 0x16, 0xfd, 0x1b]))
      = some (.ok, counting 0x20 32) := by decide +kernel

/-- CFB.E of 20 bytes: the last four. -/
theorem test_cfbE : result 0x1110 5 (exec .cfbE { keyedCore iv16 with len := 20 })
    = some (.ok, [0x67, 0x96, 0x03, 0x7a, 0x00]) := by decide +kernel

/-- CFB.E of P48 under IV32: the third block starts 17 e6 73 0a. -/
theorem test_cfbE_two_chains : result 0x1120 4 (exec .cfbE (keyedCore iv32)) = some (.ok, [0x17, 0xe6, 0x73, 0x0a]) := by
  decide +kernel

theorem test_cfbD : result 0x1000 20 (exec .cfbD (inPlace iv16
    [0x84, 0xe9, 0x88, 0x13, 0x31, 0x2c, 0x60, 0x5c, 0xde, 0x4c, 0xd0, 0x4f, 0x92, 0x8f, 0xb7, 0xab,
     0x67, 0x96, 0x03, 0x7a])) = some (.ok, counting 0x20 20) := by decide +kernel

/-- OFB of P48 under IV32: the third block starts eb 62 77 76. -/
theorem test_ofb : result 0x1120 4 (exec (.ofb true) (keyedCore iv32)) = some (.ok, [0xeb, 0x62, 0x77, 0x76]) := by
  decide +kernel

theorem test_ofb_null : seen (·.err) (exec (.ofb false) { keyedCore iv16 with plat := wholePlatform, dst := 0, len := 16 })
    = some .invalidArgument := by decide

/-- CTR of 20 bytes: the last four. -/
theorem test_ctr : result 0x1110 5 (exec (.ctr false) { keyedCore iv8 with len := 20 })
    = some (.ok, [0xc5, 0x54, 0x13, 0x4e, 0x00]) := by decide +kernel

theorem test_ctr_iv : seen (·.err) (exec (.ctr true) (keyedCore iv16)) = some .invalidIVLength := by decide

/-- MGM.E of R250: the tag. -/
theorem test_mgmE_tag : result 0x4000 16 (exec (.mgmE 16) { keyedCore nonce with len := 20 })
    = some (.ok, [0x60, 0x38, 0xf8, 0x82, 0xc2, 0x06, 0xad, 0x24, 0x94, 0xf3, 0xe8, 0x4b, 0xdd, 0x2a, 0x72, 0x69]) := by
  decide +kernel

/-- MGM.E of R250: the last four ciphertext bytes, and N = 8. -/
theorem test_mgmE_text : seen (fun t => (t.mem.readBytes 0x1110 5, t.ctx.res))
    (exec (.mgmE 16) { keyedCore nonce with len := 20 }) = some ([0x98, 0x78, 0xb6, 0x30, 0x00], 992) := by
  decide +kernel

/-- The ciphertext of R250. -/
def mgmCipher : Bytes :=
  [0x88, 0x5a, 0x77, 0x20, 0xaf, 0xf3, 0x77, 0x73, 0x61, 0x8f, 0xde, 0xef, 0x42, 0xa6, 0xb8, 0x0e, 0x98, 0x78, 0xb6,
   0x30]

/-- The tags of R254 for XOR_ENC_COUNTER, and for ENCRYPTED with HALVES (whose C starts 59 34 32 cf). -/
theorem test_mgm_variants :
    let tag (p : Platform) (c : Bytes) := bytesOf (mgmTag p keyxRoundKeys (blockOf nonce) (counting 0x80 24) c)
    let halves := { demoPlatform with mgmDerive := .encrypted, mgmIncrement := .halves }
    let cipher := mgmText halves keyxRoundKeys (blockOf nonce) (counting 0x20 20)
    (tag { demoPlatform with mgmFinal := .xorEncCounter } mgmCipher).take 4 = [0x56, 0xf5, 0x4f, 0x53]
      ∧ cipher.take 4 = [0x59, 0x34, 0x32, 0xcf] ∧ (tag halves cipher).take 4 = [0xb3, 0xdf, 0x30, 0x31] := by
  decide +kernel

/-- The ciphertext and eight bytes of the tag of R250, ready for MGM.D in place; byte 0 of the tag is `tag0`. -/
def received (tag0 : Byte) : State :=
  { inPlace nonce mgmCipher with
    mem := ((inPlace nonce mgmCipher).mem.writeBytes 0x3000 (counting 0x80 24)).writeBytes 0x4000
      (tag0 :: counting 0x38 1 ++ [0xf8, 0x82, 0xc2, 0x06, 0xad, 0x24]) }

theorem test_mgmD : result 0x1000 20 (exec (.mgmD 8) (received 0x60)) = some (.ok, counting 0x20 20) := by
  decide +kernel

/-- A tampered tag: nothing stored, N consumed. -/
theorem test_mgmD_tampered : seen (fun t => (t.err, t.mem.read 0x1000, t.ctx.res)) (exec (.mgmD 8) (received 0x61))
    = some (.authenticationFailed, 0x88, 992) := by decide +kernel

/-- CMAC of the empty message with SRC = 0. -/
theorem test_cmac_empty : result 0x4000 5 (exec (.cmac 4) { keyedCore iv16 with src := 0, len := 0 })
    = some (.ok, [0xe7, 0x19, 0x1c, 0x64, 0x00]) := by decide +kernel

/-- CMAC of 20 bytes. -/
theorem test_cmac_partial : result 0x4000 5 (exec (.cmac 4) { keyedCore iv16 with len := 20 })
    = some (.ok, [0xb6, 0x96, 0xd6, 0x0d, 0x00]) := by decide +kernel

theorem test_cmackeys : seen (fun t => (t.dout.block, t.doutb.block)) (exec .cmackeys (keyedCore iv16))
    = some (0x960f4f2fdee7e8c2f8fbc1e89601d8d8, 0x2c1e9e5fbdcfd185f1f783d12c03b137) := by decide +kernel

/-- R69: a malformed command with a byte that does not exist gets no code. -/
theorem test_absent_malformed : seen (fun t => (t.seq, t.done)) (exec .ecbD { keyedCore iv16 with len := 20, dst := 0x8000 })
    = some (.busy, false) := by decide +kernel

/-- R45: with an upset in flight the malformed CBC.D reports none of its own codes; which of the two it does is free. -/
theorem test_upset_codes : ∀ e, seen (·.err) (exec .cbcD { keyedCore iv16 with len := 8, upset := true }) = some e →
    e = .ok ∨ e = .keyIntegrityViolation := by
  intro e h
  have hb : BuffersOk .cbcD { keyedCore iv16 with len := 8, upset := true } := by unfold BuffersOk; decide +kernel
  rw [exec_keyed_upset rfl rfl hb] at h
  rcases keyedAfterUpset_cases .cbcD _ _ _ with c | c
  · rw [c] at h
    exact .inr (by cases h; rfl)
  · rw [c] at h
    exact .inl (by cases h; rfl)

/-- An upset between commands is detected (95_test_vectors.md section 3.3). -/
theorem test_upset_detected :
    seen (·.err) (exec .encb (upsetStep [(.roundKey 5, 0)] { keyedCore iv16 with seq := .idle })) = some .keyIntegrityViolation := by
  decide +kernel

/-! ### States and operands that meet the hypotheses of the obligations -/

theorem witness_DecodeOfEncode :
    (Instr.create true 15).wf = true ∧ (Instr.mgmD 31).wf = true ∧ (Instr.cmac 0).wf = true := by decide

theorem witness_EncodeOfDecode : decode 0x0F000201 = .ok (.create true 15) := by decide

theorem witness_StepRunsDecodedCommand :
    (CoreTurn busyCore ∧ busyCore.seq = .busy ∧ decode busyCore.cur = .ok .nop)
      ∧ (CoreTurn { busyCore with cur := 0x10, inputs := [.core] }
          ∧ decode ({ busyCore with cur := 0x10 } : State).cur = .error .illegalCommand)
      ∧ (CoreTurn idleCore ∧ idleCore.seq = .idle) := by
  exact ⟨⟨.inl rfl, rfl, by decide⟩, ⟨.inr ⟨[], rfl⟩, by decide⟩, .inl rfl, rfl⟩

/-- A command whose DST runs into the window by one byte, one whose IV overlaps DST by one byte, one in order. -/
theorem witness_CmdWriteIssues :
    (windowHazard .ecbE { idleCore with src := 0x1000, dst := 0x3FFFFFF1, len := 16 } = true)
      ∧ (windowHazard .cbcE { keyedCore iv16 with seq := .idle, ivaddr := 0x112F } = false
          ∧ overlapHazard .cbcE { keyedCore iv16 with seq := .idle, ivaddr := 0x112F } = true)
      ∧ (windowHazard .cbcE { keyedCore iv16 with seq := .idle, ivaddr := 0x1130 } = false
          ∧ overlapHazard .cbcE { keyedCore iv16 with seq := .idle, ivaddr := 0x1130 } = false)
      ∧ busyCore.seq = .busy ∧ idleCore.seq = .idle
      ∧ decode 0x06 = .ok .ecbE ∧ decode 0x07 = .ok .cbcE := by decide +kernel

theorem witness_OperandRegistersReadBack :
    idleCore.seq = .idle ∧ (0x4C#8).toNat = 0x40 + 4 * 3 ∧ ∀ off ∈ [0x10#8, 0x2C#8, 0x40#8, 0x4C#8, 0x50#8, 0x5C#8], off.toNat % 4 = 0
      ∧ ((0x10 ≤ off.toNat ∧ off.toNat ≤ 0x2C) ∨ (0x40 ≤ off.toNat ∧ off.toNat ≤ 0x5C)) := by decide

/-- Each clause of R39 at the ends of its offsets. -/
theorem witness_WindowAccessRules :
    busyCore.seq = .busy ∧ idleCore.seq = .idle
      ∧ [0x00, 0x08, 0x0C, 0x2C, 0x30, 0x34, 0x38, 0x3C, 0x40, 0x5C, 0x60, 0x7C, 0x80, 0xFC].all (· % 4 == 0) = true := by
  decide

theorem witness_PartialWindowAccess :
    (AccessSize.bits8 ≠ .bits32 ∨ (0x00#8).toNat % 4 ≠ 0) ∧ (AccessSize.bits16 ≠ .bits32 ∨ (0xFC#8).toNat % 4 ≠ 0)
      ∧ (AccessSize.bits32 ≠ .bits32 ∨ (0x03#8).toNat % 4 ≠ 0) := by decide

theorem witness_StatusRegister : idleCore.seq = .idle := rfl

theorem witness_IrqLevel :
    (∃ t, busyCore.seq = .busy ∧ exec .nop busyCore = .next t ∧ t.seq = .idle)
      ∧ (∃ t, windowWrite .bits32 0x04 1 idleCore = .next t)
      ∧ (∃ t, windowWrite .bits32 0x08 2 idleCore = .next t ∧ (2#32).getLsbD 1 = true)
      ∧ (∃ t, idleCore.seq = .idle ∧ windowWrite .bits32 0x0C 0 idleCore = .next t) := by
  exact ⟨⟨_, rfl, rfl, rfl⟩, ⟨_, rfl⟩, ⟨_, rfl, by decide⟩, ⟨_, rfl, rfl⟩⟩

theorem witness_HostAccessFrame :
    (∃ v, seen (·.rdata) (hostStep (.memRead 0x1000) (keyedCore iv16)) = some v)
      ∧ (∃ t, hostStep (.windowWrite .bits32 0x10 7) idleCore = .next t) := by
  exact ⟨⟨0x20, by decide +kernel⟩, ⟨_, rfl⟩⟩

theorem witness_KeyStorageUnreadable : ∃ t, hostStep (.windowRead .bits32 0x34) idleCore = .next t := ⟨_, rfl⟩

/-- The last byte before the window and its first, an absent byte; and, with CBC.E in flight, a byte outside its regions,
the last byte of a read region and the first of a written one. -/
theorem witness_HostMemoryAccess :
    inWindow demoPlatform 0x40000000 = true ∧ inWindow demoPlatform 0x400000FF = true
      ∧ (inWindow demoPlatform 0x3FFFFFFF = false ∧ memAdmits demoPlatform 0x3FFFFFFF = false)
      ∧ (inWindow demoPlatform 0x7fff = false ∧ memAdmits demoPlatform 0x7fff = true)
      ∧ (∀ r ∈ regionsInFlight { keyedCore iv16 with cur := 7 }, r.holds 0x1030 = false)
      ∧ (∃ r ∈ regions .cbcE (keyedCore iv16), r.holds 0x102f = true
          ∧ ∀ q ∈ regions .cbcE (keyedCore iv16), q.written = true → q.holds 0x102f = false)
      ∧ (∃ r ∈ regions .cbcE (keyedCore iv16), r.holds 0x1100 = true ∧ r.written = true) := by decide +kernel

theorem witness_UpsetChangesOnlyKeyStorage :
    idleCore.plat.allowUpset = true
      ∧ ({ idleCore with plat := { demoPlatform with allowUpset := false } } : State).plat.allowUpset = false
      ∧ seen (·.ctx.k[7]) (.next (upsetStep [(.key 7, 1), (.key 0, 3), (.key 7, 2)] idleCore)) = some 2 := by decide

theorem witness_SingleWordTamperDetected :
    (keyedCore iv16).plat.integrity = .rotateXor ∧ (keyedCore iv16).plat.allowUpset = true
      ∧ keyOk (keyedCore iv16) = true
      ∧ (upsetStep [(.roundKey 43, 0)] (keyedCore iv16)).ctx ≠ (keyedCore iv16).ctx
      ∧ (upsetStep [(.integrityCode, 0)] (keyedCore iv16)).ctx ≠ (keyedCore iv16).ctx
      ∧ (upsetStep [(.key 0, 0)] (keyedCore iv16)).ctx ≠ (keyedCore iv16).ctx := by decide +kernel

theorem witness_ResetGivesResetState :
    ∀ r ∈ regionsInFlight { keyedCore iv16 with cur := 7 }, r.written = true → r.holds 0x1130 = false := by
  decide +kernel

theorem witness_ResetValues : ∃ s0 : State, resetStep busyCore = resetStep s0 ∧ idleCore.seq = .idle := ⟨_, rfl, rfl⟩

theorem witness_ControlCommandsComplete : (15 : Nat) ≠ 0 := by decide

/-- SETKEY: LEN one off, SRC null, and a key that ends at the last byte there is. -/
theorem witness_SetkeyLoadsKey :
    (regionsAdmitted .setkey { busyCore with plat := wholePlatform, len := 33 } = true
        ∧ ({ busyCore with plat := wholePlatform, len := 33 } : State).len ≠ 32)
      ∧ (regionsAdmitted .setkey { busyCore with plat := wholePlatform, len := 32 } = true
        ∧ regionOk ({ busyCore with plat := wholePlatform, len := 32 } : State).src 32 = false)
      ∧ (regionOk 0x7fe0 32 = true ∧ windowHazard .setkey { busyCore with len := 32, src := 0x7fe0 } = false
        ∧ overlapHazard .setkey { busyCore with len := 32, src := 0x7fe0 } = false
        ∧ regionsAdmitted .setkey { busyCore with len := 32, src := 0x7fe0 } = true) := by decide

/-- The key ready for exactly one invocation. -/
theorem witness_BlockCommandsComplete :
    let s := { keyedCore iv16 with ctx := { (keyedCore iv16).ctx with res := 1 } }
    s.upset = false ∧ keyOk s = true ∧ 1 ≤ s.ctx.res.toNat := by decide +kernel

theorem witness_CompatHasNoEffect :
    (∀ d a, Instr.nop ≠ .create d a) ∧ ∃ t, exec .nop (keyedCore iv16) = .next t :=
  ⟨fun _ _ => Instr.noConfusion, _, rfl⟩

/-- A key with no invocation left. -/
def emptyCounter : State := { keyedCore iv16 with ctx := { (keyedCore iv16).ctx with res := 0 } }

/-- ENCB without a key, with a wrong integrity code, and with an empty counter. -/
theorem witness_KeyedPrologueErrors :
    isKeyed .encb = true ∧ ArgsOk .encb busyCore ∧ BuffersOk .encb busyCore ∧ busyCore.upset = false
      ∧ busyCore.ctx.keyed = false
      ∧ integrityCode demoPlatform keyx (keyedCore iv16).ctx.s ≠ 0
      ∧ (emptyCounter.ctx.keyed = true
          ∧ integrityCode emptyCounter.plat emptyCounter.ctx.k emptyCounter.ctx.s = emptyCounter.ctx.ic
          ∧ emptyCounter.ctx.res.toNat < invocations .encb emptyCounter) := by
  refine ⟨rfl, trivial, ⟨rfl, rfl, rfl⟩, rfl, rfl, ?_⟩
  decide +kernel

/-- CMACKEYS, and CBC.E with a written region and an argument out of order. -/
theorem witness_UpsetInFlightOutcomes :
    (isKeyed .cmackeys = true ∧ BuffersOk .cmackeys { keyedCore iv16 with upset := true })
      ∧ (isKeyed .cbcE = true ∧ BuffersOk .cbcE { keyedCore iv16 with len := 20, upset := true }
        ∧ ∃ r ∈ regions .cbcE { keyedCore iv16 with len := 20, upset := true }, r.written = true ∧ r.holds 0x1113 = true)
      ∧ (∀ r ∈ regions .cbcE { keyedCore iv16 with len := 20, upset := true }, r.written = true → r.holds 0x1114 = false)
      ∧ writesDout .cbcE = false ∧ Instr.cbcE ≠ .cmackeys ∧ writesDout .cmackeys = true := by
  unfold BuffersOk
  decide +kernel

/-- SETKEY of a key that ends one byte past the last there is. -/
theorem witness_AbsentByteSticksUntilReset :
    let s := { busyCore with cur := 2, len := 32, src := 0x7fe1 }
    Stuck s ∧ (∀ rest, s.inputs ≠ .reset :: rest) ∧ seen (·.seq) (step s) = some .busy := by
  refine ⟨⟨rfl, .setkey, by decide, by decide, by decide, by decide +kernel⟩, ?_, ?_⟩
  · intro rest h
    cases h
  · decide +kernel

/-- One state in which the chaining commands are in order, with four IV blocks. -/
theorem witness_EcbCbcComplete :
    let s := { keyedCore iv16 with ivlen := 64 }
    WholeBlocks s ∧ TextOk s ∧ KeyReady (s.len.toNat / 16) s ∧ ChainIvOk s
      ∧ BuffersOk .ecbE s ∧ BuffersOk .ecbD s ∧ BuffersOk .cbcE s ∧ BuffersOk .cbcD s := by
  unfold WholeBlocks TextOk KeyReady ChainIvOk BuffersOk
  decide +kernel

/-- In place and one byte long. -/
theorem witness_StreamModesComplete :
    let s := { keyedCore iv16 with dst := 0x1000, len := 1 }
    TextOk s ∧ KeyReady ((s.len.toNat + 15) / 16) s ∧ ChainIvOk s ∧ BuffersOk .cfbE s ∧ BuffersOk .cfbD s
      ∧ BuffersOk (.ofb true) s := by
  unfold TextOk KeyReady ChainIvOk BuffersOk
  decide +kernel

theorem witness_StreamModesComplete_ctr :
    let s := { keyedCore iv8 with len := 20 }
    TextOk s ∧ KeyReady ((s.len.toNat + 15) / 16) s ∧ CtrIvOk s ∧ BuffersOk (.ctr false) s := by
  unfold TextOk KeyReady CtrIvOk BuffersOk
  decide +kernel

theorem witness_EcbCbcBlockEquations :
    iv32.length = 16 * 2 ∧ 0 < 2 ∧ (counting 0 48).length % 16 = 0 ∧ 1 < (counting 0 48).length / 16
      ∧ 2 < (counting 0 48).length / 16 := by decide

theorem witness_StreamByteEquations :
    iv32.length = 16 * 2 ∧ 0 < 2 ∧ 0 < (counting 0 33).length ∧ 32 < (counting 0 33).length ∧ iv8.length = 8 := by decide

theorem witness_ModesRoundTrip : iv16.length = 16 * 1 ∧ 0 < 1 ∧ (counting 0 48).length % 16 = 0 := by decide

/-- MGM with associated data only. -/
theorem witness_MgmEncryptCompletes :
    let s := { keyedCore nonce with len := 0 }
    MgmOk 1 s ∧ BuffersOk (.mgmE 1) s ∧ KeyReady (invocations (.mgmE 1) s) s := by
  unfold MgmOk TagLenOk KeyReady BuffersOk
  decide +kernel

/-- A matching tag and a tampered one. -/
theorem witness_MgmDecryptVerifies :
    let tag := (bytesOf (mgmTag demoPlatform (received 0x60).ctx.s (sourceNonce (received 0x60)) (sourceAd (received 0x60))
      (sourceText (received 0x60)))).take 8
    (MgmOk 8 (received 0x60) ∧ BuffersOk (.mgmD 8) (received 0x60)
        ∧ KeyReady (invocations (.mgmD 8) (received 0x60)) (received 0x60))
      ∧ tag = (received 0x60).mem.readBytes 0x4000 8 ∧ tag ≠ (received 0x61).mem.readBytes 0x4000 8
      ∧ KeyReady (invocations (.mgmD 8) (received 0x61)) (received 0x61) := by
  unfold MgmOk TagLenOk KeyReady BuffersOk
  decide +kernel

theorem witness_MgmDecryptUndoesEncrypt :
    let s := { keyedCore nonce with len := 20 }
    MgmOk 16 s ∧ BuffersOk (.mgmE 16) s ∧ KeyReady (2 * invocations (.mgmE 16) s) s := by
  unfold MgmOk TagLenOk KeyReady BuffersOk
  decide +kernel

theorem witness_NonceTopBitIgnored :
    (0 : Block) ≠ 1 <<< 127 ∧ (0 : Block).extractLsb' 0 127 = (1 <<< 127 : Block).extractLsb' 0 127 := by decide

theorem witness_MgmAccumulator :
    (0 : Nat) < (16 + 15) / 16 ∧ iv32.length < 2 ^ 32 ∧ (counting 0 33).length < 2 ^ 32
      ∧ demoPlatform.mgmFinal = .encryptAcc
      ∧ ({ demoPlatform with mgmFinal := .xorEncCounter } : Platform).mgmFinal = .xorEncCounter := by
  decide

/-- CMAC of the empty message. -/
theorem witness_CmacCompletes :
    let s := { keyedCore iv16 with src := 0, len := 0 }
    CmacOk 16 s ∧ BuffersOk (.cmac 16) s ∧ KeyReady (invocations (.cmac 16) s) s := by
  unfold CmacOk TagLenOk KeyReady BuffersOk
  decide +kernel

/-- CMAC of a message that ends where memory does. -/
theorem witness_CmacCompletes_last :
    let s := { keyedCore iv16 with src := 0x7fec, len := 20 }
    CmacOk 1 s ∧ BuffersOk (.cmac 1) s ∧ KeyReady (invocations (.cmac 1) s) s := by
  unfold CmacOk TagLenOk KeyReady BuffersOk
  decide +kernel

theorem witness_CmacEquation :
    ((counting 0 16).length % 16 = 0 ∧ (counting 0 16).length ≤ 16 ∧ (counting 0 16 = [] → counting 0 16 = []))
      ∧ (([] : Bytes).length % 16 = 0 ∧ ([] : Bytes).length ≤ 16 ∧ (([] : Bytes) = [] → ([] : Bytes) = [])) := by decide

/-- One state for each code of R202, in the order of its checks, then one with none. -/
theorem witness_ModeCheckOrder :
    (keyedCore iv8).ivlen.toNat % 16 ≠ 0 ∧ (keyedCore iv16).ivlen ≠ 8
      ∧ demoPlatform.zMax < ({ keyedCore iv16 with ivlen := 80 } : State).ivlen.toNat / 16
      ∧ ({ keyedCore iv16 with len := 20 } : State).len.toNat % 16 ≠ 0
      ∧ ({ keyedCore iv16 with len := 0 } : State).len = 0
      ∧ (regionOk ({ keyedCore iv16 with plat := wholePlatform, ivaddr := 0xFFFFFFF1 } : State).ivaddr 16 = false
        ∧ regionsAdmitted .cbcE { keyedCore iv16 with plat := wholePlatform, ivaddr := 0xFFFFFFF1 } = true)
      ∧ (keyedCore iv16).upset = false
      ∧ [keyedCore iv8, { keyedCore iv16 with ivlen := 80 }, { keyedCore iv16 with len := 20 },
          { keyedCore iv16 with len := 0 }].all (regionsAdmitted .cbcE) = true
      ∧ regionsAdmitted (.ctr true) (keyedCore iv16) = true
      ∧ ArgsOk .cbcE (keyedCore iv16) := by
  unfold ArgsOk ChainIvOk WholeBlocks TextOk
  decide +kernel

/-- MGM limits below the operands. -/
def smallMgm : State := { keyedCore nonce with plat := { demoPlatform with mgmMaxAd := 16, mgmMaxText := 16 } }

/-- One state for each code of R249 and R272. -/
theorem witness_MacCheckOrder :
    (16 < 17) ∧ (keyedCore iv8).ivlen ≠ 16
      ∧ smallMgm.plat.mgmMaxAd < smallMgm.adlen.toNat ∧ smallMgm.plat.mgmMaxText < smallMgm.len.toNat
      ∧ ({ keyedCore nonce with adlen := 0, len := 0 } : State).adlen.toNat = 0
      ∧ (regionOk ({ keyedCore nonce with plat := wholePlatform, tagaddr := 0 } : State).tagaddr 1 = false
        ∧ regionsAdmitted (.cmac 1) { keyedCore nonce with plat := wholePlatform, tagaddr := 0 } = true)
      ∧ (keyedCore nonce).upset = false
      ∧ [keyedCore iv8, smallMgm, { keyedCore nonce with adlen := 0, len := 0 }].all
          (fun s => regionsAdmitted (.mgmE 17) s && regionsAdmitted (.mgmD 17) s && regionsAdmitted (.cmac 17) s
            && regionsAdmitted (.mgmE 1) s && regionsAdmitted (.mgmD 1) s) = true := by
  decide +kernel

/-- An unsupported CREATE, an illegal word and a tampered MGM.D. -/
theorem witness_ErrorsLeaveNoTrace :
    busyCore.seq = .busy
      ∧ seen (fun t => (t.seq, t.err)) (coreStep { busyCore with cur := 0x01000001 }) = some (.idle, .unsupportedPrimitive)
      ∧ seen (fun t => (t.seq, t.err)) (coreStep { busyCore with cur := 0x10 }) = some (.idle, .illegalCommand)
      ∧ seen (fun t => (t.seq, t.err)) (coreStep { received 0x61 with cur := 0x0008010B })
          = some (.idle, .authenticationFailed) := by
  decide +kernel

theorem witness_CommandFrame :
    (∃ t, exec .nop busyCore = .next t) ∧ writesDout .ecbE = false ∧ Instr.encb ≠ .cmackeys :=
  ⟨⟨_, rfl⟩, rfl, by decide⟩

theorem witness_CommandMemoryFrame :
    seen (fun _ => true) (exec .cbcE (keyedCore iv16)) = some true
      ∧ ∀ r ∈ regions .cbcE (keyedCore iv16), r.written = true → r.holds 0x10ff = false := by decide +kernel

theorem witness_ContextFrame :
    seen (fun t => (t.seq, t.err)) (exec .cbcE (keyedCore iv16)) = some (.idle, .ok)
      ∧ (keyedCore iv16).seq = .busy ∧ (∀ c a, Instr.cbcE ≠ .create c a) ∧ Instr.cbcE ≠ .setkey
      ∧ Instr.cbcE ≠ .destroy := by
  refine ⟨by decide +kernel, rfl, fun _ _ => Instr.noConfusion, by decide, by decide⟩

theorem witness_StepKeepsMemory :
    (keyedCore iv16).mem.wf = true ∧ (∀ c ∈ (keyedCore iv16).mem, memAdmits (keyedCore iv16).plat c.1 = true)
      ∧ seen (fun _ => true) (step { keyedCore iv16 with cur := 7 }) = some true := by decide +kernel

theorem witness_StepKeepsKeyContext : KeyInv busyCore ∧ ∃ t, step busyCore = .next t := by
  refine ⟨?_, _, rfl⟩
  unfold KeyInv
  decide

theorem witness_StepKeepsSequencer : SeqInv busyCore ∧ ∃ t, step busyCore = .next t := by
  refine ⟨⟨fun _ => rfl, fun h => Bool.noConfusion h, fun _ i h => ?_⟩, _, rfl⟩
  have : decode busyCore.cur = .ok .nop := by decide
  rw [this] at h
  cases h
  decide

theorem witness_OnlySetkeyRenewsResource :
    seen (·.ctx.res) (step { busyCore with cur := 2, src := 0x1000, len := 32 }) = some 1000 := by decide +kernel

theorem witness_ErrWrittenOnlyByComplete : ∃ t, step { busyCore with cur := 0x10 } = .next t ∧ t.err = .illegalCommand :=
  ⟨_, rfl, rfl⟩

theorem witness_CommandsComplete :
    CoreTurn busyCore ∧ busyCore.seq = .busy ∧ decode busyCore.cur = .ok .nop ∧ BuffersOk .nop busyCore :=
  ⟨.inl rfl, rfl, by decide, rfl, rfl, rfl⟩

/-- The region one byte long at each end, and a byte of the window. -/
theorem witness_CommandRegions :
    (∃ r ∈ regions (.mgmE 1) { keyedCore nonce with len := 1, adlen := 0 }, r.len = 1)
      ∧ (∃ r ∈ regions .setkey { busyCore with src := 0x3FFFFFE1 }, r.holds 0x40000000 = true
          ∧ inWindow demoPlatform 0x40000000 = true)
      ∧ (∃ r ∈ regions .setkey { busyCore with src := 0x7fe1 }, r.holds 0x8000 = true
          ∧ memAdmits demoPlatform 0x8000 = false) := by decide

theorem witness_MgmCounters :
    demoPlatform.mgmDerive = .direct ∧ demoPlatform.mgmIncrement = .full
      ∧ ({ demoPlatform with mgmDerive := .encrypted } : Platform).mgmDerive = .encrypted
      ∧ ({ demoPlatform with mgmIncrement := .halves } : Platform).mgmIncrement = .halves := by decide

end Sys2Proof.Tests
end

section
/-!
PROOFS. The register window at ID, CTRL and STATUS, and the values after reset (10_state.md R22 to R31, R48).
-/

namespace Sys2Proof.Machine

/-! ### Reads of a whole register -/

/-- An idle CORE answers every register exactly (R21). -/
theorem windowRead_rdata_idle {off : BitVec 8} {r : Reg} {s : State} (ha : off.toNat % 4 = 0)
    (hr : regAt off = some r) (hs : s.seq = .idle) : (windowRead .bits32 off s).rdata = regValue r s := by
  rw [windowRead_whole s ha hr, readReg_idle r hs]

/-- A register whose value BUSY does not hide reads the same at any time (R39). -/
theorem windowRead_rdata_exact {off : BitVec 8} {r : Reg} (s : State) (ha : off.toNat % 4 = 0)
    (hr : regAt off = some r) (hexact : ∀ any, regValueBusy r any s = (regValue r s, false)) :
    (windowRead .bits32 off s).rdata = regValue r s := by
  cases hs : s.seq with
  | idle => exact windowRead_rdata_idle ha hr hs
  | busy => rw [windowRead_whole s ha hr, readReg_busy r hs, hexact]

/-- ID reads its constant, idle or BUSY (R22). -/
theorem windowRead_id (s : State) : (windowRead .bits32 0x00 s).rdata = 0x52433601 :=
  windowRead_rdata_exact (r := .id) s rfl (by decide) fun _ => rfl

/-- CTRL reads IE in bit 0 and 0 elsewhere, idle or BUSY (R23). -/
theorem windowRead_ctrl (s : State) : (windowRead .bits32 0x04 s).rdata = if s.ie then 1 else 0 := by
  have hread : (windowRead .bits32 0x04 s).rdata = (BitVec.ofBool s.ie).setWidth 32 :=
    windowRead_rdata_exact (r := .ctrl) s rfl (by decide) fun _ => rfl
  rw [hread]
  cases s.ie <;> rfl

/-- STATUS reads BUSY, DONE, WERR and ERR exactly at any time; KEYED, COMPAT and ALG exactly while idle (R24, R39). -/
theorem windowRead_status (s : State) :
    ∃ keyed compat alg,
      (windowRead .bits32 0x08 s).rdata = statusWord s.busy s.done keyed s.werr compat s.err.code alg
        ∧ (s.seq = .idle → keyed = s.ctx.keyed ∧ compat = s.ctx.compat ∧ alg = s.ctx.alg) := by
  have hreg : regAt 0x08 = some .status := by decide
  cases hs : s.seq with
  | idle => exact ⟨_, _, _, windowRead_rdata_idle rfl hreg hs, fun _ => ⟨rfl, rfl, rfl⟩⟩
  | busy =>
    rw [windowRead_whole s rfl hreg, readReg_busy _ hs]
    exact ⟨_, _, _, rfl, Seq.noConfusion⟩

/-! ### The fields of STATUS -/

/-- BUSY says that a command is in flight (R25). -/
theorem State.busy_eq_decide (s : State) : s.busy = decide (s.seq = .busy) := by
  cases h : s.seq <;> simp [State.busy, h]

/-- No result code has a number above that of IllegalCommand (R300). -/
theorem ErrCode.code_le (e : ErrCode) : e.code.toNat ≤ 0x0D := by
  cases e <;> decide

/-! ### Reset -/

/-- A machine just reset: each piece of CORE state has its reset value (R48); memory and what the CORE does not hold
are free (log entry 15). -/
def CoreAtReset (s : State) : Prop :=
  ∃ mem draws plat inputs rdata,
    s = { State.reset with mem := mem, draws := draws, plat := plat, inputs := inputs, rdata := rdata }

theorem coreAtReset_reset : CoreAtReset State.reset := ⟨_, _, _, _, _, rfl⟩

theorem coreAtReset_resetStep (s : State) : CoreAtReset (resetStep s) := ⟨_, _, _, _, _, rfl⟩

/-- STATUS reads 0 where every field of it is 0 (R24). -/
theorem statusWord_zero : statusWord false false false false false 0 0 = 0 := by decide

@[simp] theorem BlockReg.block_zero : BlockReg.zero.block = 0 := by decide

/-- No command is in flight while the CORE is idle (R351). -/
theorem regionsInFlight_idle {s : State} (h : s.seq = .idle) : regionsInFlight s = [] := by
  simp [regionsInFlight, h]

/-- A reset while idle does not touch memory (R48). -/
theorem resetStep_mem_idle {s : State} (h : s.seq = .idle) : (resetStep s).mem = s.mem := by
  rw [resetStep_mem, regionsInFlight_idle h]
  rfl

end Sys2Proof.Machine

namespace Sys2Proof.Proofs

open Sys2Proof Sys2Proof.Machine

/-- Settles O11: neither register is hidden by BUSY, and neither write is refused. -/
theorem idAndCtrlRegisters : Obligations.IdAndCtrlRegisters := by
  refine ⟨rfl, fun s v => ⟨windowRead_id s, ?_, windowRead_ctrl s, ?_⟩⟩
  · exact windowWrite_whole (r := .id) v s rfl (by decide)
  · exact windowWrite_whole (r := .ctrl) v s rfl (by decide)

/-- Settles O12: the fields are those of the word that STATUS reads as. -/
theorem statusRegister : Obligations.StatusRegister := by
  refine ⟨by decide, fun s v => ?_⟩
  obtain ⟨keyed, compat, alg, hread, hidle⟩ := windowRead_status s
  obtain ⟨hbusy, hdone, hkeyed, hwerr, hcompat, hlow, herr, halg, hhigh⟩ :=
    statusWord_fields s.busy s.done keyed s.werr compat s.err.code alg
  rw [hread]
  refine ⟨hbusy.trans s.busy_eq_decide, hdone, hwerr, herr, ?_, hlow, hhigh, fun hs => ?_, ?_⟩
  · rw [herr]
    exact s.err.code_le
  · obtain ⟨rfl, rfl, rfl⟩ := hidle hs
    exact ⟨hkeyed, hcompat, halg⟩
  · exact windowWrite_whole (r := .status) v s rfl (by decide)

/-- Settles O20: both kinds of state are `CoreAtReset`, which gives every field of the CORE; the window then reads those
fields, since an idle CORE answers exactly. -/
theorem resetValues : Obligations.ResetValues := by
  refine ⟨fun s hs => ?_, fun s0 h => resetStep_mem_idle h⟩
  have hreset : CoreAtReset s := by
    rcases hs with rfl | ⟨s0, rfl⟩
    · exact coreAtReset_reset
    · exact coreAtReset_resetStep s0
  obtain ⟨mem, draws, plat, inputs, rdata, rfl⟩ := hreset
  have hkey (j : Fin 8) : KeyContext.reset.k[j] = 0 := Vector.getElem_replicate j.isLt
  have hround (j : Fin 44) : KeyContext.reset.s[j] = 0 := Vector.getElem_replicate j.isLt
  have hblock := BlockReg.block_zero
  refine ⟨rfl, rfl, rfl, rfl, rfl, rfl, rfl, rfl, rfl, rfl, rfl, rfl, rfl, rfl, hblock, hblock, hblock, hblock,
    rfl, rfl, rfl, hkey, hround, rfl, rfl, rfl, windowRead_id _, ?status, ?resource, ?icode⟩
  case status => exact (windowRead_rdata_idle (r := .status) rfl (by decide) rfl).trans statusWord_zero
  case resource => exact windowRead_rdata_idle (r := .resource) rfl (by decide) rfl
  case icode => exact windowRead_rdata_idle (r := .icode) rfl (by decide) rfl

end Sys2Proof.Proofs
end

section
/-!
PROOFS. The window accesses that are not of a whole register (20_memory.md R63).
-/

namespace Sys2Proof.Machine

/-- An access misses the whole register by its size or by its place (R63). -/
theorem wholeRegister_eq_false_iff (size : AccessSize) (off : BitVec 8) :
    wholeRegister size off = false ↔ size ≠ .bits32 ∨ off.toNat % 4 ≠ 0 := by
  rw [wholeRegister, Bool.and_eq_false_iff, beq_eq_false_iff_ne, beq_eq_false_iff_ne]

end Sys2Proof.Machine

namespace Sys2Proof.Proofs

open Sys2Proof Sys2Proof.Machine

/-- Settles O10: such an access is not of a whole register, so no register is looked up. -/
theorem partialWindowAccess : Obligations.PartialWindowAccess := by
  intro s size off v haccess
  have hpartial : wholeRegister size off = false := (wholeRegister_eq_false_iff size off).2 haccess
  exact ⟨windowWrite_partial v s hpartial, windowRead_partial s hpartial⟩

end Sys2Proof.Proofs
end

section
/-!
PROOFS. Which command words are legal: the rows of the opcode map read field by field (30_encoding.md R91 to R98).
-/

namespace Sys2Proof

/-! ### Fields of a word -/

/-- A bit of a field is a bit of the word. -/
theorem getLsbD_eq_of_extractLsb'_eq {v w : Word} {start len k : Nat}
    (h : v.extractLsb' start len = w.extractLsb' start len) (hlow : start ≤ k) (hhigh : k < start + len) :
    v.getLsbD k = w.getLsbD k := by
  have hbit := congrArg (BitVec.getLsbD · (k - start)) h
  simpa [BitVec.getLsbD_extractLsb', Nat.add_sub_cancel' hlow, show k - start < len by omega] using hbit

/-- The fields of R91 cover the word. -/
theorem word_eq_iff_fields (v w : Word) :
    v = w ↔ v.setWidth 8 = w.setWidth 8 ∧ v.getLsbD 8 = w.getLsbD 8 ∧ v.getLsbD 9 = w.getLsbD 9
      ∧ v.extractLsb' 10 6 = w.extractLsb' 10 6 ∧ v.extractLsb' 16 5 = w.extractLsb' 16 5
      ∧ v.extractLsb' 21 3 = w.extractLsb' 21 3 ∧ v.extractLsb' 24 4 = w.extractLsb' 24 4
      ∧ v.extractLsb' 28 4 = w.extractLsb' 28 4 := by
  refine ⟨fun h => by simp [h], fun ⟨hopc, hdir, hcompat, hr10, htag, hr21, halg, hr28⟩ => ?_⟩
  rw [BitVec.setWidth_eq_extractLsb' (by omega), BitVec.setWidth_eq_extractLsb' (by omega)] at hopc
  apply BitVec.eq_of_getLsbD_eq
  intro k hk
  obtain h | rfl | rfl | h | h | h | h | h :
      k < 8 ∨ k = 8 ∨ k = 9 ∨ (10 ≤ k ∧ k < 16) ∨ (16 ≤ k ∧ k < 21) ∨ (21 ≤ k ∧ k < 24) ∨ (24 ≤ k ∧ k < 28)
        ∨ (28 ≤ k ∧ k < 32) := by omega
  · exact getLsbD_eq_of_extractLsb'_eq hopc k.zero_le (by omega)
  · exact hdir
  · exact hcompat
  · exact getLsbD_eq_of_extractLsb'_eq hr10 h.1 h.2
  · exact getLsbD_eq_of_extractLsb'_eq htag h.1 h.2
  · exact getLsbD_eq_of_extractLsb'_eq hr21 h.1 h.2
  · exact getLsbD_eq_of_extractLsb'_eq halg h.1 h.2
  · exact getLsbD_eq_of_extractLsb'_eq hr28 h.1 h.2

/-- Bits 15:10, 23:21 and 31:28 are 0 (R95). -/
def ReservedZero (w : Word) : Prop := w.extractLsb' 10 6 = 0 ∧ w.extractLsb' 21 3 = 0 ∧ w.extractLsb' 28 4 = 0

/-! ### Rows of the opcode map -/

theorem OpcodeRow.selects_iff (row : OpcodeRow) (w : Word) : row.selects w = true ↔ w &&& row.mask = row.pattern := by
  simp [OpcodeRow.selects]

/-- Two rows that one word selects agree on the bits that both compare. -/
theorem OpcodeRow.pattern_and_mask_eq {a b : OpcodeRow} {w : Word} (ha : a.selects w = true)
    (hb : b.selects w = true) : a.pattern &&& b.mask = b.pattern &&& a.mask := by
  rw [a.selects_iff] at ha
  rw [b.selects_iff] at hb
  rw [← ha, ← hb, BitVec.and_assoc, BitVec.and_assoc, BitVec.and_comm a.mask]

/-- Any two rows of the map differ on a bit that both compare. -/
theorem opcodeMap_pairwise_pattern_ne :
    opcodeMap.Pairwise fun a b => a.pattern &&& b.mask ≠ b.pattern &&& a.mask := by decide

/-- R96: no word selects two rows. -/
theorem opcodeMap_pairwise_not_selects (w : Word) :
    opcodeMap.Pairwise fun a b => ¬(a.selects w = true ∧ b.selects w = true) :=
  opcodeMap_pairwise_pattern_ne.imp fun hne ⟨ha, hb⟩ => hne (OpcodeRow.pattern_and_mask_eq ha hb)

/-- R98: a word decodes exactly where it selects a row. -/
theorem decode_ok_iff (w : Word) : (∃ i, decode w = .ok i) ↔ ∃ row ∈ opcodeMap, row.selects w = true := by
  rw [← List.find?_isSome]
  unfold decode
  cases opcodeMap.find? (·.selects w) <;> simp

/-- A row that compares OPC, and the reserved bits with 0; COMPAT, TAGLEN and ALG each with 0 or not at all. -/
def OpcodeRow.ComparesFields (row : OpcodeRow) : Prop :=
  (row.mask.setWidth 8 = BitVec.allOnes 8
      ∧ row.mask.extractLsb' 10 6 = BitVec.allOnes 6 ∧ row.mask.extractLsb' 21 3 = BitVec.allOnes 3
      ∧ row.mask.extractLsb' 28 4 = BitVec.allOnes 4)
    ∧ (row.pattern.getLsbD 9 = false ∧ row.pattern.extractLsb' 10 6 = 0 ∧ row.pattern.extractLsb' 16 5 = 0
      ∧ row.pattern.extractLsb' 21 3 = 0 ∧ row.pattern.extractLsb' 24 4 = 0 ∧ row.pattern.extractLsb' 28 4 = 0)
    ∧ (row.mask.extractLsb' 16 5 = 0 ∨ row.mask.extractLsb' 16 5 = BitVec.allOnes 5)
    ∧ (row.mask.extractLsb' 24 4 = 0 ∨ row.mask.extractLsb' 24 4 = BitVec.allOnes 4)

theorem opcodeMap_comparesFields : ∀ row ∈ opcodeMap, row.ComparesFields := by
  unfold OpcodeRow.ComparesFields
  decide

/-- A field masked with all ones or all zeros is compared whole or left free. -/
theorem and_eq_zero_iff_of_mask {n : Nat} {x m : BitVec n} (hm : m = 0 ∨ m = BitVec.allOnes n) :
    x &&& m = 0 ↔ (m ≠ 0 → x = 0) := by
  rcases hm with rfl | rfl
  · simp
  · by_cases h : BitVec.allOnes n = 0
    · simp [h]
    · rw [BitVec.and_allOnes]
      exact ⟨fun hx _ => hx, fun hx => hx h⟩

/-- What a row of the map asks of a word, field by field (R91, R96). -/
theorem OpcodeRow.ComparesFields.selects_iff {row : OpcodeRow} (hrow : row.ComparesFields) (w : Word) :
    row.selects w = true ↔ w.setWidth 8 = row.pattern.setWidth 8 ∧ ReservedZero w
      ∧ (w.getLsbD 8 && row.mask.getLsbD 8) = row.pattern.getLsbD 8
      ∧ (row.mask.getLsbD 9 = true → w.getLsbD 9 = false)
      ∧ (row.mask.extractLsb' 16 5 ≠ 0 → w.extractLsb' 16 5 = 0)
      ∧ (row.mask.extractLsb' 24 4 ≠ 0 → w.extractLsb' 24 4 = 0) := by
  obtain ⟨⟨mopc, m10, m21, m28⟩, ⟨p9, p10, ptag, p21, palg, p28⟩, mtag, malg⟩ := hrow
  have compat : (w.getLsbD 9 && row.mask.getLsbD 9) = false ↔ (row.mask.getLsbD 9 = true → w.getLsbD 9 = false) := by
    cases row.mask.getLsbD 9 <;> simp
  rw [row.selects_iff, word_eq_iff_fields]
  simp only [BitVec.setWidth_and, BitVec.getLsbD_and, BitVec.extractLsb'_and, mopc, m10, m21, m28, p9, p10, ptag,
    p21, palg, p28, BitVec.and_allOnes, and_eq_zero_iff_of_mask mtag, and_eq_zero_iff_of_mask malg, compat, ReservedZero]
  tauto

/-! ### The fields each opcode uses -/

/-- A row leaves a field free, or sets DIR, only for an opcode that uses the field (R91). -/
theorem opcodeMap_free_used : ∀ row ∈ opcodeMap,
    (row.pattern.setWidth 8).toNat < 0x10
      ∧ (row.mask.getLsbD 8 = false ∨ row.pattern.getLsbD 8 = true →
          0x06 ≤ (row.pattern.setWidth 8).toNat ∧ (row.pattern.setWidth 8).toNat ≤ 0x0B)
      ∧ (row.mask.getLsbD 9 = false → row.pattern.setWidth 8 = 0x01#8)
      ∧ (row.mask.extractLsb' 16 5 = 0 → row.pattern.setWidth 8 = 0x0B#8 ∨ row.pattern.setWidth 8 = 0x0C#8)
      ∧ (row.mask.extractLsb' 24 4 = 0 → row.pattern.setWidth 8 = 0x01#8) := by decide

/-- Each opcode below 0x10, with each DIR it admits, has a row that leaves free all the other fields it uses (R96). -/
theorem opcodeMap_covers : ∀ (n : Fin 0x10) (dir : Bool), (dir = true → 0x06 ≤ n.val ∧ n.val ≤ 0x0B) →
    ∃ row ∈ opcodeMap, BitVec.ofNat 8 n = row.pattern.setWidth 8
      ∧ (dir && row.mask.getLsbD 8) = row.pattern.getLsbD 8
      ∧ (BitVec.ofNat 8 n = 0x01#8 → row.mask.getLsbD 9 = false)
      ∧ (BitVec.ofNat 8 n = 0x0B#8 ∨ BitVec.ofNat 8 n = 0x0C#8 → row.mask.extractLsb' 16 5 = 0)
      ∧ (BitVec.ofNat 8 n = 0x01#8 → row.mask.extractLsb' 24 4 = 0) := by decide

end Sys2Proof

namespace Sys2Proof.Proofs

open Sys2Proof

/-- Settles O3: a row selects a word field by field, its free fields are those its opcode uses, and every opcode below
0x10 has such a row. -/
theorem legalWords : Obligations.LegalWords := by
  refine ⟨fun w => (decode_ok_iff w).trans ⟨?selected, ?legal⟩, opcodeMap_pairwise_not_selects⟩
  case selected =>
    rintro ⟨row, hmem, hsel⟩
    obtain ⟨hopc, ⟨h10, h21, h28⟩, hdir, hcompat, htag, halg⟩ :=
      ((opcodeMap_comparesFields row hmem).selects_iff w).1 hsel
    obtain ⟨hlt, dirUsed, compatUsed, tagUsed, algUsed⟩ := opcodeMap_free_used row hmem
    rw [hopc]
    refine ⟨hlt, h10, h21, h28, fun h => dirUsed ?_, fun h => compatUsed ?_, fun h => tagUsed ?_, fun h => algUsed ?_⟩
    · rw [← hdir, h]
      cases row.mask.getLsbD 8 <;> simp
    · exact Bool.eq_false_iff.2 fun hmask => Bool.noConfusion (h.symm.trans (hcompat hmask))
    · exact not_imp_comm.1 htag h
    · exact not_imp_comm.1 halg h
  case legal =>
    rintro ⟨hlt, h10, h21, h28, hdir, hcompat, htag, halg⟩
    obtain ⟨row, hmem, hopc, rowDir, rowCompat, rowTag, rowAlg⟩ := opcodeMap_covers ⟨_, hlt⟩ _ hdir
    rw [BitVec.ofNat_toNat, BitVec.setWidth_eq] at hopc rowCompat rowTag rowAlg
    refine ⟨row, hmem, ((opcodeMap_comparesFields row hmem).selects_iff w).2
      ⟨hopc, ⟨h10, h21, h28⟩, rowDir, fun hmask => ?_, fun hmask => ?_, fun hmask => ?_⟩⟩
    · exact Bool.eq_false_iff.2 fun h => Bool.noConfusion (hmask.symm.trans (rowCompat (hcompat h)))
    · exact not_imp_comm.1 htag fun h => hmask (rowTag h)
    · exact not_imp_comm.1 halg fun h => hmask (rowAlg h)

end Sys2Proof.Proofs
end

section
/-!
PROOFS. How a COMPLETE can end, said once for every command, and what follows for the IRQ line and for errors
(60_exceptions.md R303, R311).
-/

namespace Sys2Proof.Machine

/-! ### The ends of a command -/

/-- What COMPLETE of command `i` can leave in place of `s`: the stuck CORE (R69); an end with OK; an error, which keeps
all but STATUS and the count of free values (R303); or the failed tag of MGM.D, which also takes N off RES (R251). -/
inductive CommandEnd (i : Instr) (s : State) : State → Prop where
  | stuck : CommandEnd i s s
  | ok (u : State) (hie : u.ie = s.ie) : CommandEnd i s (u.ended .ok)
  | error (n : Nat) (code : ErrCode) (hok : code ≠ .ok) (htag : code ≠ .authenticationFailed) :
      CommandEnd i s ((s.drawn n).ended code)
  | tagMismatch (l : Nat) (hi : i = .mgmD l) :
      CommandEnd i s ((s.charged (invocations i s)).ended .authenticationFailed)

/-- An error that draws no free value leaves nothing but STATUS. -/
theorem CommandEnd.raised (i : Instr) (s : State) {code : ErrCode} (hok : code ≠ .ok)
    (htag : code ≠ .authenticationFailed) : CommandEnd i s (s.ended code) :=
  .error 0 code hok htag

/-- Only MGM.D compares a tag (R251). -/
theorem productOf_verified_of_ne_mgmD {i : Instr} (s : State) (hi : ∀ l, i ≠ .mgmD l) :
    (productOf i s).verified = true := by
  cases i with
  | mgmD l => exact absurd rfl (hi l)
  | _ => rfl

/-- A command whose prologue has passed ends with OK, or is an MGM.D whose tag differs (R174, R251). -/
theorem commandEnd_commit (i : Instr) (s : State) :
    CommandEnd i s (commit (invocations i s) (productOf i s) s) := by
  rw [commit_eq]
  split
  · exact .ok _ rfl
  · rename_i hverified
    by_cases hi : ∃ l, i = .mgmD l
    · obtain ⟨l, hi⟩ := hi
      exact .tagMismatch l hi
    · exact absurd (productOf_verified_of_ne_mgmD s (not_exists.1 hi)) hverified

/-- The keyed prologue raises an error, or the command runs (R174). -/
theorem commandEnd_keyedPrologue (i : Instr) (s : State) :
    CommandEnd i s (keyedPrologue (invocations i s) (productOf i) s) := by
  rcases keyedPrologue_cases (invocations i s) (productOf i) s with ⟨_, e⟩ | ⟨_, _, e⟩ | ⟨_, _, e⟩ <;> rw [e]
  · exact .raised i s (by decide) (by decide)
  · exact .raised i s (by decide) (by decide)
  · exact commandEnd_commit i s

/-- With an upset in flight the error is KeyIntegrityViolation, after one free choice (R45). -/
theorem commandEnd_keyedAfterUpset (i : Instr) (n : Nat) (p : State → Product) (s : State) :
    CommandEnd i s (keyedAfterUpset i n p s) := by
  rcases keyedAfterUpset_cases i n p s with e | e <;> rw [e]
  · exact .error 1 _ (by decide) (by decide)
  · exact .ok _ rfl

theorem commandEnd_exec_keyed {i : Instr} {s t : State} (hi : isKeyed i = true) (h : exec i s = .next t) :
    CommandEnd i s t := by
  rcases exec_keyed_next hi h with ⟨_, rfl⟩ | ⟨_, _, code, hcode, rfl⟩ | ⟨_, _, _, rfl⟩ | ⟨_, _, rfl⟩
  · exact .stuck
  · obtain ⟨hok, htag, _⟩ := argChecks_code hcode
    exact .raised i s hok htag
  · exact commandEnd_keyedPrologue i s
  · exact commandEnd_keyedAfterUpset i _ _ s

/-- Every COMPLETE of a decoded command ends in one of these ways (R40, R69, R302, R303). -/
theorem commandEnd_exec {i : Instr} {s t : State} (h : exec i s = .next t) : CommandEnd i s t := by
  cases i with
  | nop | destroy | gfmul | gfdbl =>
    cases h
    exact .ok _ rfl
  | create compat alg =>
    rcases create_next h with rfl | ⟨_, rfl⟩
    · exact .raised _ s (by decide) (by decide)
    · exact .ok _ rfl
  | setkey =>
    rcases setkey_next h with rfl | rfl | rfl | rfl
    · exact .raised _ s (by decide) (by decide)
    · exact .raised _ s (by decide) (by decide)
    · exact .stuck
    · exact .ok _ rfl
  | _ => exact commandEnd_exec_keyed rfl h

/-- COMPLETE leaves the CORE stuck, or sets DONE; it never writes IE (R23, R302). -/
theorem CommandEnd.done_of_idle {i : Instr} {s t : State} (h : CommandEnd i s t) (hs : s.seq = .busy)
    (ht : t.seq = .idle) : t.done = true ∧ t.ie = s.ie := by
  cases h with
  | stuck => exact absurd (hs.symm.trans ht) (by decide)
  | ok u hie => exact ⟨rfl, hie⟩
  | error n code hok htag => exact ⟨rfl, rfl⟩
  | tagMismatch l hi => exact ⟨rfl, rfl⟩

/-! ### The CORE's turn -/

/-- The CORE's turn while BUSY: the end of the command that the latched word decodes to, or IllegalCommand (R40, R97). -/
theorem coreStep_busy_next {s t : State} (hs : s.seq = .busy) (h : coreStep s = .next t) :
    (∃ i, decode s.cur = .ok i ∧ CommandEnd i s t) ∨ t = s.ended .illegalCommand := by
  simp only [coreStep, hs] at h
  split at h
  · rename_i i hi
    exact .inl ⟨i, hi, commandEnd_exec h⟩
  · exact .inr (Host.Outcome.next.inj h).symm

end Sys2Proof.Machine

namespace Sys2Proof.Proofs

open Sys2Proof Sys2Proof.Machine

/-- Settles O13: the line follows IE and DONE, so each event is what it does to those two bits. -/
theorem irqLevel : Obligations.IrqLevel := by
  refine ⟨fun _ => rfl, rfl, ?complete, ?ctrlWrite, ?statusWrite, ?cmdWrite⟩
  case complete =>
    intro i s t hs h ht
    obtain ⟨hdone, hie⟩ := (commandEnd_exec h).done_of_idle hs ht
    rw [State.irq, hdone, hie, Bool.and_true]
  case ctrlWrite =>
    intro s v t h
    rw [windowWrite_whole (r := .ctrl) v s rfl (by decide)] at h
    cases h
    rfl
  case statusWrite =>
    intro s v t h hv
    rw [windowWrite_whole (r := .status) v s rfl (by decide)] at h
    cases h
    simp [State.irq, hv]
  case cmdWrite =>
    intro s v t hs h
    rw [windowWrite_whole (r := .cmd) v s rfl (by decide)] at h
    simp only [writeReg, hs] at h
    obtain ⟨rfl, _⟩ := issue_next h
    simp [State.irq]

/-- Settles O47: of the ends of a command, only an error and the failed tag of MGM.D are idle with a code other than OK;
an illegal word ends in an error too. -/
theorem errorsLeaveNoTrace : Obligations.ErrorsLeaveNoTrace := by
  intro s t hs h ht herr
  rcases coreStep_busy_next hs h with ⟨i, hi, hend⟩ | rfl
  · cases hend with
    | stuck => exact absurd (hs.symm.trans ht) (by decide)
    | ok u hie => exact absurd rfl herr
    | error n code hok htag => exact ⟨rfl, fun _ => rfl, fun hcode => absurd hcode htag⟩
    | tagMismatch l hmgm =>
      subst hmgm
      exact ⟨rfl, fun hcode => absurd rfl hcode, fun _ => ⟨l, hi, rfl⟩⟩
  · exact ⟨rfl, fun _ => rfl, ErrCode.noConfusion⟩

end Sys2Proof.Proofs
end

section
/-!
PROOFS. Decoding and encoding are inverse: the fields of a written command word, and the word that a row's command
encodes (30_encoding.md R91 to R98).
-/

namespace Sys2Proof

open Sys2Proof.Laws.ReservedBitsZero (commandWord_reserved)

/-! ### The fields of a command word -/

@[simp] theorem commandWord_opc (opc : BitVec 8) (dir compat : Bool) (tagLen alg : Nat) :
    (commandWord opc dir compat tagLen alg).setWidth 8 = opc := by
  apply BitVec.eq_of_getLsbD_eq
  intro k hk
  rw [BitVec.getLsbD_setWidth, commandWord, BitVec.getLsbD_append]
  simp [hk]

theorem commandWord_dir (opc : BitVec 8) (dir compat : Bool) (tagLen alg : Nat) :
    (commandWord opc dir compat tagLen alg).getLsbD 8 = dir := by
  simp only [commandWord, BitVec.getLsbD_append]
  simp

theorem commandWord_compat (opc : BitVec 8) (dir compat : Bool) (tagLen alg : Nat) :
    (commandWord opc dir compat tagLen alg).getLsbD 9 = compat := by
  simp only [commandWord, BitVec.getLsbD_append]
  simp

@[simp] theorem commandWord_tagLen (opc : BitVec 8) (dir compat : Bool) (tagLen alg : Nat) :
    (commandWord opc dir compat tagLen alg).extractLsb' 16 5 = BitVec.ofNat 5 tagLen := by
  apply BitVec.eq_of_getLsbD_eq
  intro k hk
  simp only [commandWord, BitVec.getLsbD_extractLsb', BitVec.getLsbD_append]
  interval_cases k <;> simp

@[simp] theorem commandWord_alg (opc : BitVec 8) (dir compat : Bool) (tagLen alg : Nat) :
    (commandWord opc dir compat tagLen alg).extractLsb' 24 4 = BitVec.ofNat 4 alg := by
  apply BitVec.eq_of_getLsbD_eq
  intro k hk
  simp only [commandWord, BitVec.getLsbD_extractLsb', BitVec.getLsbD_append]
  interval_cases k <;> simp

/-- A command word has its reserved bits at 0 (R91). -/
theorem reservedZero_commandWord (opc : BitVec 8) (dir compat : Bool) (tagLen alg : Nat) :
    ReservedZero (commandWord opc dir compat tagLen alg) := commandWord_reserved opc dir compat tagLen alg

/-- A word is the command word of its fields where its reserved bits are 0 (R91, R95). -/
theorem commandWord_eq {opc : BitVec 8} {dir compat : Bool} {tagLen alg : Nat} {w : Word} (hres : ReservedZero w)
    (hopc : opc = w.setWidth 8) (hdir : dir = w.getLsbD 8) (hcompat : compat = w.getLsbD 9)
    (htag : BitVec.ofNat 5 tagLen = w.extractLsb' 16 5) (halg : BitVec.ofNat 4 alg = w.extractLsb' 24 4) :
    commandWord opc dir compat tagLen alg = w := by
  obtain ⟨h10, h21, h28⟩ := reservedZero_commandWord opc dir compat tagLen alg
  obtain ⟨w10, w21, w28⟩ := hres
  exact (word_eq_iff_fields _ w).2 ⟨(commandWord_opc ..).trans hopc, (commandWord_dir ..).trans hdir,
    (commandWord_compat ..).trans hcompat, h10.trans w10.symm, (commandWord_tagLen ..).trans htag, h21.trans w21.symm,
    (commandWord_alg ..).trans halg, h28.trans w28.symm⟩

/-! ### Rows and command words -/

/-- In a list whose elements exclude each other, the one that fits is found wherever it stands. -/
theorem find?_eq_some_of_pairwise_not {α : Type} {p : α → Bool} {l : List α} {a : α}
    (hl : l.Pairwise fun x y => ¬(p x = true ∧ p y = true)) (hmem : a ∈ l) (ha : p a = true) :
    l.find? p = some a := by
  induction l with
  | nil => exact absurd hmem List.not_mem_nil
  | cons x l ih =>
    obtain ⟨hx, hl⟩ := List.pairwise_cons.1 hl
    rcases List.mem_cons.1 hmem with rfl | hmem
    · exact List.find?_cons_of_pos ha
    · rw [List.find?_cons_of_neg fun hpx => hx a hmem ⟨hpx, ha⟩, ih hl hmem]

/-- A word decodes to the command of the row that it selects (R96, R98). -/
theorem decode_of_selects {row : OpcodeRow} {w : Word} (hmem : row ∈ opcodeMap) (hsel : row.selects w = true) :
    decode w = .ok (row.command w) := by
  rw [decode, find?_eq_some_of_pairwise_not (opcodeMap_pairwise_not_selects w) hmem hsel]

/-- A word that decodes selects a row whose command it is (R98). -/
theorem selects_of_decode {w : Word} {i : Instr} (h : decode w = .ok i) :
    ∃ row ∈ opcodeMap, row.selects w = true ∧ row.command w = i := by
  obtain ⟨row, hmem, hsel⟩ := (decode_ok_iff w).1 ⟨i, h⟩
  exact ⟨row, hmem, hsel, Except.ok.inj ((decode_of_selects hmem hsel).symm.trans h)⟩

/-- A command word selects a row that has its opcode and DIR and that leaves free the fields that are not 0 (R96). -/
theorem selects_commandWord {row : OpcodeRow} (hmem : row ∈ opcodeMap) {dir compat : Bool} {tagLen alg : Nat}
    (hdir : (dir && row.mask.getLsbD 8) = row.pattern.getLsbD 8) (hcompat : row.mask.getLsbD 9 = true → compat = false)
    (htag : row.mask.extractLsb' 16 5 ≠ 0 → tagLen = 0) (halg : row.mask.extractLsb' 24 4 ≠ 0 → alg = 0) :
    row.selects (commandWord (row.pattern.setWidth 8) dir compat tagLen alg) = true := by
  rw [(opcodeMap_comparesFields row hmem).selects_iff, commandWord_opc, commandWord_dir, commandWord_compat,
    commandWord_tagLen, commandWord_alg]
  exact ⟨rfl, reservedZero_commandWord .., hdir, hcompat, fun h => by rw [htag h]; rfl, fun h => by rw [halg h]; rfl⟩

/-- The command of a row encodes to the row's opcode and DIR, with the fields that the row leaves free (R91, R96). -/
theorem opcodeMap_encode_command : ∀ row ∈ opcodeMap, ∀ w : Word,
    encode (row.command w) = commandWord (row.pattern.setWidth 8)
      (if row.mask.getLsbD 8 then row.pattern.getLsbD 8 else fieldDir w)
      (if row.mask.getLsbD 9 then false else fieldCompat w)
      (if row.mask.extractLsb' 16 5 = 0 then fieldTagLen w else 0)
      (if row.mask.extractLsb' 24 4 = 0 then fieldAlg w else 0) := by
  simp only [opcodeMap, List.forall_mem_cons, List.not_mem_nil, false_implies, implies_true, and_true]
  refine ⟨?_, ?_, ?_, ?_, ?_, ?_, ?_, ?_, ?_, ?_, ?_, ?_, ?_, ?_, ?_, ?_, ?_, ?_, ?_, ?_⟩ <;> intro w <;> rfl

/-- A word that selects a row is the encoding of the row's command (R95, R96). -/
theorem encode_command_of_selects {row : OpcodeRow} {w : Word} (hmem : row ∈ opcodeMap) (hsel : row.selects w = true) :
    encode (row.command w) = w := by
  obtain ⟨hopc, hres, hdir, hcompat, htag, halg⟩ := ((opcodeMap_comparesFields row hmem).selects_iff w).1 hsel
  rw [opcodeMap_encode_command row hmem]
  refine commandWord_eq hres hopc.symm ?dir ?compat ?tag ?alg
  case dir =>
    split
    · rename_i h
      rw [← hdir, h, Bool.and_true]
    · rfl
  case compat =>
    split
    · rename_i h
      exact (hcompat h).symm
    · rfl
  case tag =>
    split
    · exact (BitVec.ofNat_toNat ..).trans (BitVec.setWidth_eq _)
    · rename_i h
      exact (htag h).symm
  case alg =>
    split
    · exact (BitVec.ofNat_toNat ..).trans (BitVec.setWidth_eq _)
    · rename_i h
      exact (halg h).symm

/-- Every row gives a well-formed command: a field is no wider than its bits (R92, R94). -/
theorem opcodeMap_command_wf : ∀ row ∈ opcodeMap, ∀ w : Word, (row.command w).wf = true := by
  have htag (w : Word) : tagLenFits (fieldTagLen w) = true := decide_eq_true (w.extractLsb' 16 5).isLt
  have halg (w : Word) : algFits (fieldAlg w) = true := decide_eq_true (w.extractLsb' 24 4).isLt
  simp [opcodeMap, Instr.wf, htag, halg]

/-! ### The fields that a command has -/

theorem fieldCompat_commandWord (opc : BitVec 8) (dir compat : Bool) (tagLen alg : Nat) :
    fieldCompat (commandWord opc dir compat tagLen alg) = compat := commandWord_compat ..

theorem fieldTagLen_commandWord (opc : BitVec 8) (dir compat : Bool) {tagLen alg : Nat} (h : tagLenFits tagLen = true) :
    fieldTagLen (commandWord opc dir compat tagLen alg) = tagLen := by
  rw [fieldTagLen, commandWord_tagLen, BitVec.toNat_ofNat, Nat.mod_eq_of_lt (of_decide_eq_true h)]

theorem fieldAlg_commandWord (opc : BitVec 8) (dir compat : Bool) {tagLen alg : Nat} (h : algFits alg = true) :
    fieldAlg (commandWord opc dir compat tagLen alg) = alg := by
  rw [fieldAlg, commandWord_alg, BitVec.toNat_ofNat, Nat.mod_eq_of_lt (of_decide_eq_true h)]

/-- A row whose command has a tag length gives the tag length back (R92). -/
theorem decode_commandWord_tagLen {row : OpcodeRow} (hmem : row ∈ opcodeMap) {c : Nat → Instr}
    (hc : row.command = fun w => c (fieldTagLen w)) {dir : Bool}
    (hdir : (dir && row.mask.getLsbD 8) = row.pattern.getLsbD 8) (hmask : row.mask.extractLsb' 16 5 = 0) {l : Nat}
    (hl : tagLenFits l = true) {opc : BitVec 8} (hopc : row.pattern.setWidth 8 = opc) :
    decode (commandWord opc dir false l 0) = .ok (c l) := by
  subst hopc
  rw [decode_of_selects hmem
    (selects_commandWord hmem hdir (fun _ => rfl) (fun h => absurd hmask h) (fun _ => rfl)), hc]
  exact congrArg (Except.ok <| c ·) (fieldTagLen_commandWord _ _ _ hl)

/-- CREATE's row gives COMPAT and ALG back (R94). -/
theorem decode_commandWord_create (compat : Bool) {alg : Nat} (halg : algFits alg = true) :
    decode (commandWord 0x01#8 false compat 0 alg) = .ok (.create compat alg) := by
  have hmem : ⟨0x00000001#32, 0xF0FFFDFF#32, fun w => .create (fieldCompat w) (fieldAlg w)⟩ ∈ opcodeMap :=
    List.mem_cons_of_mem _ List.mem_cons_self
  have hfree9 : (0xF0FFFDFF#32).getLsbD 9 = true → compat = false := fun h => absurd h (by decide)
  have hfree24 : (0xF0FFFDFF#32).extractLsb' 24 4 ≠ 0 → alg = 0 := fun h => absurd (by decide) h
  have hsel := selects_commandWord hmem (dir := false) rfl hfree9 (fun _ => rfl) hfree24
  refine (decode_of_selects hmem hsel).trans ?_
  exact congrArg Except.ok (congrArg₂ Instr.create (fieldCompat_commandWord ..) (fieldAlg_commandWord _ _ _ halg))

theorem decode_encode_mgmE {l : Nat} (hl : tagLenFits l = true) : decode (encode (.mgmE l)) = .ok (.mgmE l) :=
  decode_commandWord_tagLen (row := ⟨0x0000000B#32, 0xFFE0FFFF#32, fun w => .mgmE (fieldTagLen w)⟩)
    (by simp [opcodeMap]) rfl (by decide) (by decide) hl (by decide)

theorem decode_encode_mgmD {l : Nat} (hl : tagLenFits l = true) : decode (encode (.mgmD l)) = .ok (.mgmD l) :=
  decode_commandWord_tagLen (row := ⟨0x0000010B#32, 0xFFE0FFFF#32, fun w => .mgmD (fieldTagLen w)⟩)
    (by simp [opcodeMap]) rfl (by decide) (by decide) hl (by decide)

theorem decode_encode_cmac {l : Nat} (hl : tagLenFits l = true) : decode (encode (.cmac l)) = .ok (.cmac l) :=
  decode_commandWord_tagLen (row := ⟨0x0000000C#32, 0xFFE0FFFF#32, fun w => .cmac (fieldTagLen w)⟩)
    (by simp [opcodeMap]) rfl (by decide) (by decide) hl (by decide)

end Sys2Proof

namespace Sys2Proof.Proofs

open Sys2Proof

/-- Settles O1: the word of a command with a numeric field selects its row by `selects_commandWord` and gives the field
back; the word of any other command is closed. -/
theorem decodeOfEncode : Obligations.DecodeOfEncode := by
  intro i hwf
  cases i with
  | create compat alg => exact decode_commandWord_create compat hwf
  | mgmE l => exact decode_encode_mgmE hwf
  | mgmD l => exact decode_encode_mgmD hwf
  | cmac l => exact decode_encode_cmac hwf
  | ofb dir | ctr dir => cases dir <;> decide
  | _ => decide

/-- Settles O2: the word selects a row, and both halves are said of rows. -/
theorem encodeOfDecode : Obligations.EncodeOfDecode := by
  intro w i h
  obtain ⟨row, hmem, hsel, rfl⟩ := selects_of_decode h
  exact ⟨opcodeMap_command_wf row hmem w, encode_command_of_selects hmem hsel⟩

/-- Settles O4: the words are closed, so the decoder runs on them. -/
theorem specWordsDecode : Obligations.SpecWordsDecode := by
  refine ⟨?_, ?_, ?_, ?_, ?_, ?_, ?_, ?_, ?_, ?_⟩ <;> decide

end Sys2Proof.Proofs
end

section
/-!
PROOFS. What COMPLETE of a command can leave, in one inversion lemma with every field, and what follows for the fields
that no command changes (30_encoding.md section 3, 42_key_context.md section 3, 20_memory.md section 4).
-/

namespace Sys2Proof.Machine

open Sys2Proof.Config

/-! ### The results of a command -/

/-- The key context that a command without primitive invocations leaves (R180 to R183). -/
inductive ContextChange (s : State) : Instr → KeyContext → Prop where
  | nop : ContextChange s .nop s.ctx
  | destroy : ContextChange s .destroy s.ctx.wipe
  | create (compat : Bool) : ContextChange s (.create compat 0) { s.ctx.wipe with alg := 0, compat := compat }
  | setkey : ContextChange s .setkey (s.ctx.load s.plat (keyWords (s.mem.readBytes s.src.toNat 32)))

/-- What COMPLETE of command `i` can leave in place of `s`, field by field: the stuck CORE (R69); an error; a new key
context; a field product; the product of a keyed command; its failed tag (R251); and the two ends of a keyed command
with an upset in flight (R45). -/
inductive CommandResult (i : Instr) (s : State) : State → Prop where
  | stuck (habsent : regionsAdmitted i s = false) : CommandResult i s s
  | error (code : ErrCode) (hok : code ≠ .ok) (htag : code ≠ .authenticationFailed) : CommandResult i s (s.ended code)
  | context (c : KeyContext) (hc : ContextChange s i c) : CommandResult i s (({ s with ctx := c } : State).ended .ok)
  | field (b : Block) (hi : i = .gfmul ∨ i = .gfdbl) :
      CommandResult i s (({ s with dout := blockReg b } : State).ended .ok)
  | product (hi : isKeyed i = true) (hargs : ArgsOk i s) (hb : BuffersOk i s) (hready : KeyReady (invocations i s) s) :
      CommandResult i s (((s.charged (invocations i s)).produced (productOf i s)).ended .ok)
  | tagMismatch (hi : isKeyed i = true) (hready : KeyReady (invocations i s) s) :
      CommandResult i s ((s.charged (invocations i s)).ended .authenticationFailed)
  | upsetError (hi : isKeyed i = true) (hu : s.upset = true) :
      CommandResult i s ((s.drawn 1).ended .keyIntegrityViolation)
  | upsetOk (hi : isKeyed i = true) (hu : s.upset = true) (hb : BuffersOk i s) :
      CommandResult i s
        ((((s.drawn 1).consumedIfCovered (invocations i s)).scrambled i (productOf i s)).ended .ok)

theorem commandResult_keyed {i : Instr} {s t : State} (hi : isKeyed i = true) (h : exec i s = .next t) :
    CommandResult i s t := by
  rcases exec_keyed_next hi h with ⟨ha, rfl⟩ | ⟨_, _, code, hcode, rfl⟩ | ⟨hu, hargs, hb, rfl⟩ | ⟨hu, hb, rfl⟩
  · exact .stuck ha
  · obtain ⟨hok, htag, _⟩ := argChecks_code hcode
    exact .error code hok htag
  · rcases keyedPrologue_cases (invocations i s) (productOf i) s with ⟨_, e⟩ | ⟨_, _, e⟩ | ⟨hk, hr, e⟩ <;> rw [e]
    · exact .error _ (by decide) (by decide)
    · exact .error _ (by decide) (by decide)
    · rw [commit_eq]
      split
      · exact .product hi ((argChecks_none i s hi).1 hargs) hb ⟨hu, hk, hr⟩
      · exact .tagMismatch hi ⟨hu, hk, hr⟩
  · rcases keyedAfterUpset_cases i (invocations i s) (productOf i) s with e | e <;> rw [e]
    · exact .upsetError hi hu
    · exact .upsetOk hi hu hb

/-- SETKEY sticks, reports an error or loads a key (R182, R69). -/
theorem commandResult_setkey {s t : State} (h : exec .setkey s = .next t) : CommandResult .setkey s t := by
  rcases checked_next h with ⟨ha, rfl⟩ | ⟨_, code, hcode, rfl⟩ | ⟨_, _, rfl⟩
  · exact .stuck ha
  · obtain ⟨c, hmem, rfl⟩ := firstError_mem hcode
    simp only [List.mem_cons, List.not_mem_nil, or_false] at hmem
    rcases hmem with rfl | rfl <;> exact .error _ ErrCode.noConfusion ErrCode.noConfusion
  · exact .context _ .setkey

/-- Everything that COMPLETE of a decoded command can leave (R40). -/
theorem commandResult_exec {i : Instr} {s t : State} (h : exec i s = .next t) : CommandResult i s t := by
  cases i with
  | nop =>
    cases h
    exact .context _ .nop
  | destroy =>
    cases h
    exact .context _ .destroy
  | create compat alg =>
    rcases create_next h with rfl | ⟨rfl, rfl⟩
    · exact .error _ (by decide) (by decide)
    · exact .context _ (.create compat)
  | setkey => exact commandResult_setkey h
  | gfmul =>
    cases h
    exact .field _ (.inl rfl)
  | gfdbl =>
    cases h
    exact .field _ (.inr rfl)
  | _ => exact commandResult_keyed rfl h

/-- COMPLETE leaves the state alone, or ends the command. -/
theorem CommandResult.eq_or_ended {i : Instr} {s t : State} (h : CommandResult i s t) :
    (regionsAdmitted i s = false ∧ t = s) ∨ ∃ code u, t = State.ended code u := by
  cases h with
  | stuck habsent => exact .inl ⟨habsent, rfl⟩
  | _ => exact .inr ⟨_, _, rfl⟩

/-! ### Outputs -/

theorem productOf_dout {i : Instr} (s : State) (h : writesDout i = false) : (productOf i s).dout = none := by
  cases i with
  | encb | decb | gfmul | gfdbl | cmackeys => exact Bool.noConfusion h
  | _ => rfl

theorem productOf_doutb {i : Instr} (s : State) (h : i ≠ .cmackeys) : (productOf i s).doutb = none := by
  cases i with
  | cmackeys => exact absurd rfl h
  | _ => rfl

theorem ne_cmackeys_of_writesDout {i : Instr} (h : writesDout i = false) : i ≠ .cmackeys := by
  rintro rfl
  exact Bool.noConfusion h

/-- A command without DOUT leaves DOUT alone (R38). -/
theorem CommandResult.dout_eq {i : Instr} {s t : State} (h : CommandResult i s t) (hi : writesDout i = false) :
    t.dout = s.dout := by
  cases h with
  | field b hfield => rcases hfield with rfl | rfl <;> exact Bool.noConfusion hi
  | product => exact congrArg (written s.dout) (productOf_dout s hi)
  | upsetOk => exact (scrambled_dout ..).trans (by rw [productOf_dout s hi]; rfl)
  | _ => rfl

/-- Only CMACKEYS writes DOUTB (R38). -/
theorem CommandResult.doutb_eq {i : Instr} {s t : State} (h : CommandResult i s t) (hi : i ≠ .cmackeys) :
    t.doutb = s.doutb := by
  cases h with
  | product => exact congrArg (written s.doutb) (productOf_doutb s hi)
  | upsetOk => exact (scrambled_doutb ..).trans (by rw [productOf_doutb s hi]; rfl)
  | _ => rfl

/-! ### Memory -/

/-- The stores of a product lie in written regions of the command (R61, R67). -/
theorem productOf_stores_region {i : Instr} {s : State} (hi : isKeyed i = true) (hargs : ArgsOk i s)
    {st : Nat × Bytes} (hst : st ∈ (productOf i s).stores) {a : Nat} (ha : st.1 ≤ a ∧ a < st.1 + st.2.length) :
    ∃ r ∈ regions i s, r.written = true ∧ r.holds a = true :=
  (productOf_fills i s ((argChecks_none i s hi).2 hargs) st hst).region ha

/-- A command stores only to its written regions (R61, R68). -/
theorem CommandResult.read_outside {i : Instr} {s t : State} (h : CommandResult i s t) {a : Nat}
    (ha : ∀ r ∈ regions i s, r.written = true → r.holds a = false) : t.mem.read a = s.mem.read a := by
  cases h with
  | product hi hargs =>
    refine read_storeAll_outside _ s.mem a fun st hst hin => ?_
    obtain ⟨r, hr, hw, hholds⟩ := productOf_stores_region hi hargs hst hin
    exact Bool.noConfusion (hholds.symm.trans (ha r hr hw))
  | upsetOk =>
    refine read_freeRegions s.plat _ s.mem _ a fun r hr => ?_
    obtain ⟨hr, hw⟩ := List.mem_filter.1 hr
    exact ha r hr hw
  | _ => rfl

/-! ### The resource counter -/

/-- A command other than CREATE, SETKEY and DESTROY changes nothing of the context but RES (R47). -/
theorem CommandResult.ctx_eq {i : Instr} {s t : State} (h : CommandResult i s t) (hcreate : ∀ c a, i ≠ .create c a)
    (hsetkey : i ≠ .setkey) (hdestroy : i ≠ .destroy) : t.ctx = { s.ctx with res := t.ctx.res } := by
  cases h with
  | context c hc =>
    cases hc with
    | nop => rfl
    | destroy => exact absurd rfl hdestroy
    | create compat => exact absurd rfl (hcreate _ _)
    | setkey => exact absurd rfl hsetkey
  | _ => rfl

/-- What becomes of RES on the ends of a command that does not set up or wipe the context (R173, R174). -/
theorem CommandResult.res_cases {i : Instr} {s t : State} (h : CommandResult i s t) (hcreate : ∀ c a, i ≠ .create c a)
    (hsetkey : i ≠ .setkey) (hdestroy : i ≠ .destroy) :
    (t = s ∧ t.ctx.res = s.ctx.res)
      ∨ (t.err ≠ .ok ∧ t.err ≠ .authenticationFailed ∧ t.ctx.res = s.ctx.res)
      ∨ (t.seq = .idle ∧ (t.err = .ok ∨ t.err = .authenticationFailed)
          ∧ (s.upset = true ∧ s.ctx.res.toNat < invocations i s ∧ t.ctx.res = s.ctx.res
            ∨ invocations i s ≤ s.ctx.res.toNat ∧ t.ctx.res.toNat + invocations i s = s.ctx.res.toNat)) := by
  cases h with
  | stuck => exact .inl ⟨rfl, rfl⟩
  | error code hok htag => exact .inr (.inl ⟨hok, htag, rfl⟩)
  | upsetError => exact .inr (.inl ⟨ErrCode.noConfusion, ErrCode.noConfusion, rfl⟩)
  | context c hc =>
    cases hc with
    | nop => exact .inr (.inr ⟨rfl, .inl rfl, .inr ⟨Nat.zero_le _, rfl⟩⟩)
    | destroy => exact absurd rfl hdestroy
    | create compat => exact absurd rfl (hcreate _ _)
    | setkey => exact absurd rfl hsetkey
  | field b hi => rcases hi with rfl | rfl <;> exact .inr (.inr ⟨rfl, .inl rfl, .inr ⟨Nat.zero_le _, rfl⟩⟩)
  | product _ _ _ hready =>
    obtain ⟨_, _, hcovered⟩ := hready
    exact .inr (.inr ⟨rfl, .inl rfl, .inr ⟨hcovered, toNat_res_sub hcovered⟩⟩)
  | tagMismatch _ hready =>
    obtain ⟨_, _, hcovered⟩ := hready
    exact .inr (.inr ⟨rfl, .inr rfl, .inr ⟨hcovered, toNat_res_sub hcovered⟩⟩)
  | upsetOk _ hu =>
    refine .inr (.inr ⟨rfl, .inl rfl, ?_⟩)
    by_cases hshort : s.ctx.res.toNat < invocations i s
    · exact .inl ⟨hu, hshort, if_pos hshort⟩
    · have hcovered := Nat.le_of_not_lt hshort
      exact .inr ⟨hcovered, (congrArg (BitVec.toNat · + _) (if_neg hshort)).trans (toNat_res_sub hcovered)⟩

end Sys2Proof.Machine

namespace Sys2Proof.Proofs

open Sys2Proof Sys2Proof.Machine

/-- Settles O48: every result keeps these fields; a product writes DOUT and DOUTB only where its command has them. -/
theorem commandFrame : Obligations.CommandFrame := by
  intro i s t h
  have hresult := commandResult_exec h
  refine ⟨?_, fun hi => ⟨hresult.dout_eq hi, hresult.doutb_eq (ne_cmackeys_of_writesDout hi)⟩, hresult.doutb_eq⟩
  cases hresult <;> rfl

/-- Settles O49: products and free bytes fill written regions only. -/
theorem commandMemoryFrame : Obligations.CommandMemoryFrame :=
  fun _ _ _ h _ ha => (commandResult_exec h).read_outside ha

/-- Settles O50: only the ends of a keyed command take N off RES, with an upset in flight only where RES covers it. -/
theorem contextFrame : Obligations.ContextFrame := by
  intro i s t h hbusy hcreate hsetkey hdestroy
  have hresult := commandResult_exec h
  refine ⟨hresult.ctx_eq hcreate hsetkey hdestroy, ?_⟩
  rcases hresult.res_cases hcreate hsetkey hdestroy with
    ⟨rfl, hres⟩ | ⟨hok, htag, hres⟩ | ⟨hidle, hcode, ⟨hu, hshort, hres⟩ | ⟨hcovered, hres⟩⟩
  · rw [if_neg fun hcond => absurd (hbusy.symm.trans hcond.1) (by decide)]
  · rwa [if_neg fun hcond => hcond.2.1.elim hok htag]
  · rwa [if_neg fun hcond => hcond.2.2 ⟨hu, hshort⟩]
  · rwa [if_pos ⟨hidle, hcode, fun hshort => Nat.not_lt.2 hcovered hshort.2⟩]

end Sys2Proof.Proofs
end

section
/-!
PROOFS. What one step can do, in one inversion lemma, and the invariants that every step keeps (10_state.md sections 3,
4 and 6, 20_memory.md sections 1 and 4).
-/

namespace Sys2Proof.Machine

open Sys2Proof.Config

/-! ### The HOST's turn -/

/-- What a HOST access can leave in place of `s` (R8): a read; a legal ISSUE; new operands; a write of CTRL or STATUS; a
refused write; a byte stored outside the regions in flight. -/
inductive HostResult (s : State) : State → Prop where
  | read (v : Word) (n : Nat) : HostResult s { s with rdata := v, draws := n }
  | issue (w : Word) (hidle : s.seq = .idle)
      (hsafe : ∀ i, decode w = .ok i → windowHazard i s = false ∧ overlapHazard i s = false) : HostResult s (issued w s)
  | operands (hidle : s.seq = .idle) (src dst len ivaddr ivlen adaddr adlen tagaddr : Word) (din dinb : BlockReg) :
      HostResult s { s with src := src, dst := dst, len := len, ivaddr := ivaddr, ivlen := ivlen, adaddr := adaddr,
                            adlen := adlen, tagaddr := tagaddr, din := din, dinb := dinb }
  | ctrl (v : Word) : HostResult s (writeCtrl v s)
  | status (v : Word) : HostResult s (writeStatus v s)
  | refused : HostResult s (refuseWrite s)
  | store (a : Word) (v : Byte) (hadmits : memAdmits s.plat a.toNat = true)
      (hfree : ∀ r ∈ regionsInFlight s, r.holds a.toNat = false) :
      HostResult s { s with mem := s.mem.write a.toNat v }

/-- Everything a HOST read of memory can answer (R73, R352). -/
theorem memRead_next {a : Word} {s t : State} (h : memRead a s = .next t) :
    ∃ n v, t = { s with rdata := v, draws := n } := by
  simp only [memRead] at h
  split at h
  · exact ⟨_, _, (Host.Outcome.next.inj h).symm⟩
  split at h
  · cases h
  split at h <;> exact ⟨_, _, (Host.Outcome.next.inj h).symm⟩

/-- Everything a HOST write of memory can answer (R73, R351). -/
theorem memWrite_next {a : Word} {v : Byte} {s t : State} (h : memWrite a v s = .next t) :
    t = refuseWrite s ∨ (memAdmits s.plat a.toNat = true ∧ (∀ r ∈ regionsInFlight s, r.holds a.toNat = false)
      ∧ t = { s with mem := s.mem.write a.toNat v }) := by
  simp only [memWrite] at h
  split at h
  · exact .inl (Host.Outcome.next.inj h).symm
  split at h
  · cases h
  rename_i hadmits
  split at h
  · cases h
  rename_i hfree
  refine .inr ⟨by simpa using hadmits, fun r hr => ?_, (Host.Outcome.next.inj h).symm⟩
  simpa using fun hr' => hfree (List.any_eq_true.2 ⟨r, hr, hr'⟩)

/-- Everything a HOST access can answer. -/
theorem hostResult {access : HostAccess} {s t : State} (h : hostStep access s = .next t) : HostResult s t := by
  cases access with
  | windowRead size off =>
    cases h
    rw [windowRead_next]
    exact .read _ _
  | windowWrite size off v =>
    rcases windowWrite_next h with ⟨rfl, hidle, hsafe⟩ | ⟨hidle, e⟩ | rfl | rfl | rfl | rfl
    · exact .issue v hidle hsafe
    · rw [e]
      exact .operands hidle ..
    · exact .ctrl v
    · exact .status v
    · exact .refused
    · exact .read _ _
  | memRead a =>
    obtain ⟨n, v, rfl⟩ := memRead_next h
    exact .read v n
  | memWrite a v =>
    rcases memWrite_next h with rfl | ⟨hadmits, hfree, rfl⟩
    · exact .refused
    · exact .store a v hadmits hfree

/-! ### The CORE's turn and the step -/

/-- Everything the CORE's turn can answer (R40, R97). -/
theorem coreStep_next {s t : State} (h : coreStep s = .next t) :
    (s.seq = .idle ∧ t = s) ∨ (s.seq = .busy ∧ ∃ i, decode s.cur = .ok i ∧ CommandResult i s t)
      ∨ (s.seq = .busy ∧ t = s.ended .illegalCommand) := by
  cases hs : s.seq with
  | idle =>
    simp only [coreStep, hs] at h
    exact .inl ⟨rfl, (Host.Outcome.next.inj h).symm⟩
  | busy =>
    simp only [coreStep, hs] at h
    split at h
    · rename_i i hi
      exact .inr (.inl ⟨rfl, i, hi, commandResult_exec h⟩)
    · exact .inr (.inr ⟨rfl, (Host.Outcome.next.inj h).symm⟩)

/-- At the CORE's turn the step is the CORE's (R73). -/
theorem step_coreTurn {s : State} (h : CoreTurn s) : step s = coreStep s.turnTaken := by
  rcases h with h | ⟨rest, h⟩
  · have : s.turnTaken = s := by rw [State.turnTaken, h, List.tail_nil, ← h]
    rw [this, step, h]
  · rw [State.turnTaken, step, h]
    rfl

/-- Whose turn a step is (R8, R73), and what the turn does to the state in which it is taken. -/
theorem step_next {s t : State} (h : step s = .next t) :
    (CoreTurn s ∧ coreStep s.turnTaken = .next t) ∨ HostResult s.turnTaken t
      ∨ (∃ changes, t = upsetStep changes s.turnTaken)
      ∨ ((∃ rest, s.inputs = .reset :: rest) ∧ t = resetStep s.turnTaken) := by
  cases hin : s.inputs with
  | nil => exact .inl ⟨.inl hin, (step_coreTurn (.inl hin)).symm.trans h⟩
  | cons e rest =>
    have hturn : ({ s with inputs := rest } : State) = s.turnTaken := by rw [State.turnTaken, hin, List.tail_cons]
    rw [step, hin] at h
    simp only [hturn] at h
    cases e with
    | core => exact .inl ⟨.inr ⟨rest, hin⟩, h⟩
    | host access => exact .inr (.inl (hostResult h))
    | upset changes => exact .inr (.inr (.inl ⟨changes, (Host.Outcome.next.inj h).symm⟩))
    | reset => exact .inr (.inr (.inr ⟨⟨rest, rfl⟩, (Host.Outcome.next.inj h).symm⟩))

/-- A property that the HOST's, the CORE's, the ENV's and the platform's turn each keep, and that does not depend on the
turns to come, is kept by every step. -/
theorem step_keeps {P : State → Prop} (hturn : ∀ s, P s → P s.turnTaken) (hhost : ∀ s t, P s → HostResult s t → P t)
    (hcommand : ∀ i s t, P s → s.seq = .busy → decode s.cur = .ok i → CommandResult i s t → P t)
    (hillegal : ∀ s, P s → P (s.ended .illegalCommand)) (hupset : ∀ s changes, P s → P (upsetStep changes s))
    (hreset : ∀ s, P s → P (resetStep s)) {s t : State} (hs : P s) (h : step s = .next t) : P t := by
  rcases step_next h with ⟨_, h⟩ | h | ⟨changes, rfl⟩ | ⟨_, rfl⟩
  · rcases coreStep_next h with ⟨_, rfl⟩ | ⟨hbusy, i, hi, hr⟩ | ⟨_, rfl⟩
    · exact hturn s hs
    · exact hcommand i _ t (hturn s hs) hbusy hi hr
    · exact hillegal _ (hturn s hs)
  · exact hhost _ t (hturn s hs) h
  · exact hupset _ changes (hturn s hs)
  · exact hreset _ (hturn s hs)

/-! ### Memory -/

/-- A command that stores does so to bytes that exist (R60, R69). -/
theorem CommandResult.memInv {i : Instr} {s t : State} (h : CommandResult i s t) (hs : MemInv s) : MemInv t := by
  obtain ⟨hwf, hlisted⟩ := hs
  cases h with
  | product hi hargs hb =>
    obtain ⟨_, _, hadmitted⟩ := hb
    refine storeAll_kept s.plat _ s.mem hwf hlisted fun st hst a ha => ?_
    obtain ⟨r, hr, _, hholds⟩ := productOf_stores_region hi hargs hst ha
    have hlt := region_within hi hargs hr
    have hin := hholds
    simp only [Region.holds, Bool.and_eq_true, decide_eq_true_eq] at hin
    exact memAdmits_of_region hadmitted hr hholds (by omega)
  | upsetOk => exact freeRegions_kept s.plat _ s.mem _ hwf hlisted
  | _ => exact ⟨hwf, hlisted⟩

theorem HostResult.memInv {s t : State} (h : HostResult s t) (hs : MemInv s) : MemInv t := by
  obtain ⟨hwf, hlisted⟩ := hs
  cases h with
  | store a v hadmits =>
    refine ⟨s.mem.write_wf _ v hwf a.isLt, fun c hc => ?_⟩
    rcases s.mem.mem_write _ v c hc with hc | hc
    · exact hc ▸ hadmits
    · exact hlisted c hc
  | _ => exact ⟨hwf, hlisted⟩

/-! ### The key context -/

/-- The key context after an upset (R45). -/
def KeyContext.upsetAll (c : KeyContext) (changes : List (KeyCell × Word)) : KeyContext :=
  changes.foldl (fun c change => c.upsetCell change.1 change.2) c

theorem upsetStep_allowed {s : State} (h : s.plat.allowUpset = true) (changes : List (KeyCell × Word)) :
    upsetStep changes s = { s with ctx := s.ctx.upsetAll changes, upset := s.upset || s.busy } := by
  simp [upsetStep, h, KeyContext.upsetAll]

theorem upsetStep_forbidden {s : State} (h : s.plat.allowUpset = false) (changes : List (KeyCell × Word)) :
    upsetStep changes s = s := by
  simp [upsetStep, h]

/-- An upset changes no field of the context but the key words, the round keys and the integrity code (R45). -/
theorem KeyContext.upsetAll_frame (c : KeyContext) (changes : List (KeyCell × Word)) :
    ∃ k sk ic, c.upsetAll changes = { c with k := k, s := sk, ic := ic } := by
  induction changes generalizing c with
  | nil => exact ⟨_, _, _, rfl⟩
  | cons change rest ih =>
    obtain ⟨cell, v⟩ := change
    obtain ⟨k, sk, ic, e⟩ := ih (c.upsetCell cell v)
    refine ⟨k, sk, ic, e.trans ?_⟩
    cases cell <;> rfl

/-- An upset changes nothing but these three, and the mark of the command in flight (R45). -/
theorem upsetStep_frame (changes : List (KeyCell × Word)) (s : State) :
    ∃ k sk ic u, upsetStep changes s = { s with ctx := { s.ctx with k := k, s := sk, ic := ic }, upset := u } := by
  cases hallow : s.plat.allowUpset with
  | false => exact ⟨_, _, _, _, upsetStep_forbidden hallow changes⟩
  | true =>
    obtain ⟨k, sk, ic, e⟩ := s.ctx.upsetAll_frame changes
    exact ⟨k, sk, ic, _, (upsetStep_allowed hallow changes).trans (by rw [e])⟩

/-- A context that keeps all but RES, and whose RES has not risen, keeps the invariants of R42. -/
theorem KeyInv.of_res_le {s t : State} (hs : KeyInv s) (hplat : t.plat = s.plat)
    (hctx : t.ctx = { s.ctx with res := t.ctx.res }) (hres : t.ctx.res.toNat ≤ s.ctx.res.toNat) : KeyInv t := by
  obtain ⟨halg, hunkeyed, hmax, hzero, hkey⟩ := hs
  rw [KeyInv, hplat, hctx]
  refine ⟨halg, fun hk => ?_, ?_, hzero, hkey⟩
  · have hz : s.ctx.res = 0 := hunkeyed hk
    rw [hz] at hres
    exact BitVec.eq_of_toNat_eq (Nat.le_zero.1 hres)
  · exact BitVec.le_def.2 (hres.trans (BitVec.le_def.1 hmax))

/-- A context that wipes or loads the key, or is as before, meets the invariants of R42. -/
theorem ContextChange.keyInv {i : Instr} {s : State} {c : KeyContext} (h : ContextChange s i c) (hs : KeyInv s) :
    KeyInv { s with ctx := c } := by
  obtain ⟨halg, _⟩ := id hs
  cases h with
  | nop => exact hs
  | destroy =>
    exact ⟨halg, fun _ => rfl, BitVec.le_def.2 (Nat.zero_le _), fun _ _ => ⟨rfl, rfl, rfl⟩, fun _ => Bool.noConfusion⟩
  | create =>
    exact ⟨rfl, fun _ => rfl, BitVec.le_def.2 (Nat.zero_le _), fun _ _ => ⟨rfl, rfl, rfl⟩, fun _ => Bool.noConfusion⟩
  | setkey => exact ⟨halg, Bool.noConfusion, BitVec.le_refl _, fun _ => Bool.noConfusion, fun _ _ => ⟨rfl, rfl⟩⟩

/-- Taking off what RES covers does not raise it (R173). -/
theorem toNat_res_sub_le {n : Nat} {r : Word} (h : n ≤ r.toNat) : (r - BitVec.ofNat 32 n).toNat ≤ r.toNat :=
  Nat.le.intro (toNat_res_sub h)

theorem toNat_res_consumedIfCovered_le (n : Nat) (s : State) :
    (s.consumedIfCovered n).ctx.res.toNat ≤ s.ctx.res.toNat := by
  rw [consumedIfCovered_ctx]
  dsimp only
  split
  · exact Nat.le_refl _
  · rename_i hshort
    exact toNat_res_sub_le (Nat.le_of_not_lt hshort)

/-- RES rises only where SETKEY loads a key (R42, R306). -/
theorem CommandResult.res_le {i : Instr} {s t : State} (h : CommandResult i s t) :
    t.ctx.res.toNat ≤ s.ctx.res.toNat ∨ (i = .setkey ∧ t.err = .ok ∧ t.ctx.res = s.plat.resourceMax) := by
  cases h with
  | context c hc =>
    cases hc with
    | nop => exact .inl (Nat.le_refl _)
    | destroy => exact .inl (Nat.zero_le _)
    | create => exact .inl (Nat.zero_le _)
    | setkey => exact .inr ⟨rfl, rfl, rfl⟩
  | product _ _ _ hready => exact .inl (toNat_res_sub_le hready.2.2)
  | tagMismatch _ hready => exact .inl (toNat_res_sub_le hready.2.2)
  | upsetOk => exact .inl (toNat_res_consumedIfCovered_le _ (s.drawn 1))
  | _ => exact .inl (Nat.le_refl _)

/-- A command keeps the parameters. -/
theorem CommandResult.plat_eq {i : Instr} {s t : State} (h : CommandResult i s t) : t.plat = s.plat := by
  cases h <;> rfl

theorem HostResult.plat_eq {s t : State} (h : HostResult s t) : t.plat = s.plat := by
  cases h <;> rfl

/-- No HOST access changes the key context (R36). -/
theorem HostResult.ctx_eq {s t : State} (h : HostResult s t) : t.ctx = s.ctx := by
  cases h <;> rfl

/-- No HOST access changes ERR (R32). -/
theorem HostResult.err_eq {s t : State} (h : HostResult s t) : t.err = s.err := by
  cases h <;> rfl

theorem CommandResult.keyInv {i : Instr} {s t : State} (h : CommandResult i s t) (hs : KeyInv s) : KeyInv t := by
  cases h with
  | context c hc => exact hc.keyInv hs
  | product _ _ _ hready => exact hs.of_res_le rfl rfl (toNat_res_sub_le hready.2.2)
  | tagMismatch _ hready => exact hs.of_res_le rfl rfl (toNat_res_sub_le hready.2.2)
  | upsetOk => exact hs.of_res_le rfl rfl (toNat_res_consumedIfCovered_le _ (s.drawn 1))
  | _ => exact hs

/-- Where ENV takes no steps an upset is none; else it leaves what KeyInv says of ALG, KEYED and RES (R42, R45). -/
theorem KeyInv.upsetStep {s : State} (hs : KeyInv s) (changes : List (KeyCell × Word)) :
    KeyInv (upsetStep changes s) := by
  cases hallow : s.plat.allowUpset with
  | false => rwa [upsetStep_forbidden hallow]
  | true =>
    obtain ⟨k, sk, ic, e⟩ := s.ctx.upsetAll_frame changes
    obtain ⟨halg, hunkeyed, hmax, _, _⟩ := hs
    have hnot {P : Prop} (h : s.plat.allowUpset = false) : P := Bool.noConfusion (hallow.symm.trans h)
    rw [upsetStep_allowed hallow, e]
    exact ⟨halg, hunkeyed, hmax, fun h => hnot h, fun h => hnot h⟩

/-- A context without a key is in order whatever the parameters are (R42, R48). -/
theorem keyInv_of_reset {s : State} (h : s.ctx = .reset) : KeyInv s := by
  rw [KeyInv, h]
  exact ⟨rfl, fun _ => rfl, BitVec.le_def.2 (Nat.zero_le _), fun _ _ => ⟨rfl, rfl, rfl⟩, fun _ => Bool.noConfusion⟩

/-! ### The sequencer -/

/-- An idle CORE with no upset marked is in order (R40). -/
theorem seqInv_of_idle {s : State} (hidle : s.seq = .idle) (hupset : s.upset = false) : SeqInv s := by
  have hnot {P : Prop} (h : s.seq = .busy) : P := Seq.noConfusion (hidle.symm.trans h)
  exact ⟨fun h => hnot h, fun h => Bool.noConfusion (hupset.symm.trans h), fun h => hnot h⟩

theorem CommandResult.seqInv {i : Instr} {s t : State} (h : CommandResult i s t) (hs : SeqInv s) : SeqInv t := by
  rcases h.eq_or_ended with ⟨_, rfl⟩ | ⟨code, u, rfl⟩
  · exact hs
  · exact seqInv_of_idle rfl rfl

theorem HostResult.seqInv {s t : State} (h : HostResult s t) (hs : SeqInv s) : SeqInv t := by
  obtain ⟨hdone, hupset, hsafe⟩ := id hs
  cases h with
  | issue w hidle hissue => exact ⟨fun _ => rfl, Bool.noConfusion, fun _ => hissue⟩
  | operands hidle =>
    have hnot {P : Prop} (h : s.seq = .busy) : P := Seq.noConfusion (hidle.symm.trans h)
    exact ⟨hdone, hupset, fun h => hnot h⟩
  | status v => exact ⟨fun h => by simp [hdone h], hupset, hsafe⟩
  | _ => exact hs

/-- An upset marks only a command in flight, and only where ALLOW_UPSET is true (R45). -/
theorem SeqInv.upsetStep {s : State} (hs : SeqInv s) (changes : List (KeyCell × Word)) :
    SeqInv (upsetStep changes s) := by
  cases hallow : s.plat.allowUpset with
  | false => rwa [upsetStep_forbidden hallow]
  | true =>
    obtain ⟨hdone, hupset, hsafe⟩ := hs
    rw [upsetStep_allowed hallow]
    refine ⟨hdone, fun h => ⟨?_, hallow⟩, hsafe⟩
    rcases Bool.or_eq_true_iff.1 h with h | h
    · exact (hupset h).1
    · exact beq_iff_eq.1 h

/-! ### The stuck CORE -/

/-- Where a byte of its buffers does not exist, a command changes nothing, whatever its checks say (R69). -/
theorem checked_absent {i : Instr} {checks : List (Bool × ErrCode)} {run : State → State} {s : State}
    (hw : windowHazard i s = false) (ho : overlapHazard i s = false) (ha : regionsAdmitted i s = false) :
    checked i checks run s = .next s := by
  unfold checked
  split
  · rw [unlessStuck_absent ha]
  · simp [accessBuffers, hw, ho, unlessStuck_absent ha]

theorem exec_absent {i : Instr} {s : State} (hw : windowHazard i s = false) (ho : overlapHazard i s = false)
    (ha : regionsAdmitted i s = false) : exec i s = .next s := by
  cases hi : isKeyed i with
  | true =>
    rw [exec_keyed i s hi, keyedCommand]
    split
    · simp [accessBuffers, hw, ho, unlessStuck_absent ha]
    · exact checked_absent hw ho ha
  | false =>
    cases i with
    | setkey => exact checked_absent hw ho ha
    | nop | create _ _ | destroy | gfmul | gfdbl => exact Bool.noConfusion ha
    | _ => exact Bool.noConfusion hi

/-- A stuck CORE depends on the word in flight, the operand registers and the parameters alone. -/
theorem Stuck.turnTaken {s : State} (h : Stuck s) : Stuck s.turnTaken := h

/-- While BUSY no HOST access writes the word in flight or an operand register (R39), so it does not free the CORE. -/
theorem HostResult.stuck {s t : State} (h : HostResult s t) (hs : Stuck s) : Stuck t ∧ t.cur = s.cur := by
  have hnot {P : Prop} (hidle : s.seq = .idle) : P := Seq.noConfusion (hs.1.symm.trans hidle)
  cases h with
  | issue w hidle => exact hnot hidle
  | operands hidle => exact hnot hidle
  | _ => exact ⟨hs, rfl⟩

theorem Stuck.upsetStep {s : State} (hs : Stuck s) (changes : List (KeyCell × Word)) :
    Stuck (upsetStep changes s) ∧ (upsetStep changes s).cur = s.cur ∧ (upsetStep changes s).err = s.err := by
  obtain ⟨k, sk, ic, u, e⟩ := upsetStep_frame changes s
  rw [e]
  exact ⟨hs, rfl, rfl⟩

/-- The CORE's turn does not free a stuck CORE (R69). -/
theorem Stuck.coreStep {s : State} (hs : Stuck s) : coreStep s = .next s := by
  obtain ⟨hbusy, i, hi, hw, ho, ha⟩ := hs
  simp only [Machine.coreStep, hbusy, hi]
  exact exec_absent hw ho ha

end Sys2Proof.Machine

namespace Sys2Proof.Proofs

open Sys2Proof Sys2Proof.Machine

/-- Settles O32: such a command is stuck by R69, and no turn but a reset writes what its being stuck depends on. -/
theorem absentByteSticksUntilReset : Obligations.AbsentByteSticksUntilReset := by
  refine ⟨fun i s => exec_absent, fun s t hstuck hreset h => ?_⟩
  rcases step_next h with ⟨_, h⟩ | h | ⟨changes, rfl⟩ | ⟨⟨rest, hrest⟩, _⟩
  · rw [hstuck.turnTaken.coreStep] at h
    cases h
    exact ⟨hstuck.turnTaken, rfl, rfl⟩
  · obtain ⟨ht, hcur⟩ := h.stuck hstuck.turnTaken
    exact ⟨ht, hcur, h.err_eq⟩
  · exact hstuck.turnTaken.upsetStep changes
  · exact absurd hrest (hreset rest)

/-- Settles O51: only stores, free bytes and HOST writes change memory, and all of them to bytes that exist. -/
theorem stepKeepsMemory : Obligations.StepKeepsMemory := fun _ _ hs h =>
  step_keeps (P := MemInv) (fun _ hs => hs) (fun _ _ hs h => h.memInv hs) (fun _ _ _ hs _ _ h => h.memInv hs)
    (fun _ hs => hs)
    (fun s changes hs => by
      obtain ⟨k, sk, ic, u, e⟩ := upsetStep_frame changes s
      rwa [e])
    (fun s hs => freeRegions_kept s.plat _ s.mem _ hs.1 hs.2) hs h

/-- Settles O52: a command lowers RES, wipes the context or loads a key; an upset needs ALLOW_UPSET. -/
theorem stepKeepsKeyContext : Obligations.StepKeepsKeyContext := fun _ _ hs h =>
  step_keeps (P := KeyInv) (fun _ hs => hs)
    (fun s t hs h => hs.of_res_le h.plat_eq (by rw [h.ctx_eq]) (by rw [h.ctx_eq]))
    (fun _ _ _ hs _ _ h => h.keyInv hs) (fun _ hs => hs) (fun _ changes hs => hs.upsetStep changes)
    (fun _ _ => keyInv_of_reset rfl) hs h

/-- Settles O53: only an ISSUE makes the CORE BUSY, and it checks the hazards. -/
theorem stepKeepsSequencer : Obligations.StepKeepsSequencer := fun _ _ hs h =>
  step_keeps (P := SeqInv) (fun _ hs => hs) (fun _ _ hs h => h.seqInv hs) (fun _ _ _ hs _ _ h => h.seqInv hs)
    (fun _ _ => seqInv_of_idle rfl rfl) (fun _ changes hs => hs.upsetStep changes)
    (fun _ _ => seqInv_of_idle rfl rfl) hs h

/-- Settles O55: of the turns only the CORE's can raise RES, and only as SETKEY does. -/
theorem onlySetkeyRenewsResource : Obligations.OnlySetkeyRenewsResource := by
  intro s t h
  rcases step_next h with ⟨hturn, h⟩ | h | ⟨changes, rfl⟩ | ⟨_, rfl⟩
  · rcases coreStep_next h with ⟨_, rfl⟩ | ⟨hbusy, i, hi, hr⟩ | ⟨_, rfl⟩
    · exact ⟨rfl, .inl (Nat.le_refl _)⟩
    · refine ⟨hr.plat_eq, hr.res_le.imp_right ?_⟩
      rintro ⟨rfl, hok, hres⟩
      exact ⟨hturn, hbusy, hi, hok, hres⟩
    · exact ⟨rfl, .inl (Nat.le_refl _)⟩
  · exact ⟨h.plat_eq, .inl (by rw [h.ctx_eq]; exact Nat.le_refl _)⟩
  · obtain ⟨k, sk, ic, u, e⟩ := upsetStep_frame changes s.turnTaken
    rw [e]
    exact ⟨rfl, .inl (Nat.le_refl _)⟩
  · exact ⟨rfl, .inl (Nat.zero_le _)⟩

/-- Settles O56: by the turns, and at the CORE's turn by its results. -/
theorem errWrittenOnlyByComplete : Obligations.ErrWrittenOnlyByComplete := by
  intro s t h
  rcases step_next h with ⟨hturn, h⟩ | h | ⟨changes, rfl⟩ | ⟨hreset, _⟩
  · rcases coreStep_next h with ⟨_, rfl⟩ | ⟨hbusy, i, _, hr⟩ | ⟨hbusy, rfl⟩
    · exact .inl rfl
    · rcases hr.eq_or_ended with ⟨_, rfl⟩ | ⟨code, u, rfl⟩
      · exact .inl rfl
      · exact .inr (.inr ⟨hturn, hbusy, rfl, rfl⟩)
    · exact .inr (.inr ⟨hturn, hbusy, rfl, rfl⟩)
  · exact .inl h.err_eq
  · obtain ⟨k, sk, ic, u, e⟩ := upsetStep_frame changes s.turnTaken
    exact .inl (by rw [e]; rfl)
  · exact .inr (.inl hreset)

/-- Settles O54: memory at reset lists nothing, the context has no key, the CORE is idle. -/
theorem resetMeetsInvariants : Obligations.ResetMeetsInvariants :=
  ⟨⟨reset_mem_wf, fun _ hc => absurd hc List.not_mem_nil⟩, keyInv_of_reset rfl, seqInv_of_idle rfl rfl⟩

end Sys2Proof.Proofs
end

section
/-!
PROOFS. How single commands complete: the turn and the ISSUE, the commands without a key, the prologue of the keyed
ones, an upset in flight, and that a command whose buffers are there always completes (10_state.md section 3,
42_key_context.md sections 2 to 4, 70_reset_and_hazards.md section 4).
-/

namespace Sys2Proof.Machine

open Sys2Proof.Config

/-! ### Completion -/

/-- CREATE of a primitive other than RC6 is refused (R181). -/
theorem exec_create_unsupported (compat : Bool) {alg : Nat} (s : State) (halg : alg ≠ 0) :
    exec (.create compat alg) s = .next (s.ended .unsupportedPrimitive) := by
  have hfails : (alg != 0) = true := bne_iff_ne.2 halg
  simp [exec, execCreate, hfails]

/-- A command whose buffers can be reached answers a next state (R40). -/
theorem exec_next_of_buffersOk {i : Instr} {s : State} (hb : BuffersOk i s) : ∃ t, exec i s = .next t := by
  cases hi : isKeyed i with
  | true =>
    cases hu : s.upset with
    | true => exact ⟨_, exec_keyed_upset hi hu hb⟩
    | false =>
      cases hc : firstError (argChecks i s) with
      | some code => exact ⟨_, exec_keyed_error hi hu hb.2.2 hc⟩
      | none => exact ⟨_, exec_keyed_run hi hu hc hb⟩
  | false =>
    cases i with
    | nop | destroy | gfmul | gfdbl => exact ⟨_, rfl⟩
    | create compat alg =>
      by_cases halg : alg = 0
      · subst halg
        exact ⟨_, rfl⟩
      · exact ⟨_, exec_create_unsupported compat s halg⟩
    | setkey =>
      cases hc : firstError [(s.len != 32, ErrCode.wrongKeyLength), (!regionOk s.src 32, .invalidArgument)] with
      | some code => exact ⟨_, checked_error hb.2.2 hc⟩
      | none => exact ⟨_, checked_run hc hb⟩
    | _ => exact Bool.noConfusion hi

/-! ### SETKEY -/

/-- Byte `b` of a word read from four bytes is byte `b` of the string, the first least significant (R10, R64). -/
theorem byte_wordOfBytes (bs : Bytes) {b : Nat} (hb : b < 4) :
    (wordOfBytes bs).extractLsb' (8 * b) 8 = bs.getD b 0 := by
  have hbyte : byteOf (blockOf (bs.take 4)) b = bs.getD b 0 := by
    rw [byteOf_blockOf _ _ (by omega), List.getD_eq_getElem?_getD, List.getElem?_take_of_lt hb,
      List.getD_eq_getElem?_getD]
  rw [← hbyte, wordOfBytes, byteOf]
  apply BitVec.eq_of_getLsbD_eq
  intro k hk
  simp only [BitVec.getLsbD_extractLsb', BitVec.getLsbD_setWidth]
  simp [show 8 * b + k < 32 by omega]

theorem getD_drop (bs : Bytes) (n k : Nat) : (bs.drop n).getD k 0 = bs.getD (n + k) 0 := by
  rw [List.getD_eq_getElem?_getD, List.getElem?_drop, List.getD_eq_getElem?_getD]

/-- Byte `b` of key word `j` is byte `4 j + b` of the key (R100, R182). -/
theorem byte_keyWords (m : Memory) (a : Nat) (j : Fin 8) {b : Nat} (hb : b < 4) :
    ((keyWords (m.readBytes a 32))[j]).extractLsb' (8 * b) 8 = m.read (a + 4 * j.val + b) := by
  have hj := j.isLt
  simp only [keyWords, Fin.getElem_fin, Vector.getElem_ofFn]
  rw [byte_wordOfBytes _ hb, getD_drop, Memory.getD_readBytes _ _ _ _ (by omega), Nat.add_assoc]

/-! ### An upset in flight -/

/-- The two ends of a keyed command with an upset in flight, by the free bit that chooses (R45). -/
theorem keyedAfterUpset_error {i : Instr} {n : Nat} {p : State → Product} {s : State} (h : anyBool s.draws = false) :
    keyedAfterUpset i n p s = (s.drawn 1).ended .keyIntegrityViolation := by
  simp [keyedAfterUpset, h]

theorem keyedAfterUpset_ok {i : Instr} {n : Nat} {p : State → Product} {s : State} (h : anyBool s.draws = true) :
    keyedAfterUpset i n p s = (((s.drawn 1).consumedIfCovered n).scrambled i (p s)).ended .ok := by
  simp [keyedAfterUpset, h]

theorem consumedIfCovered_short {n : Nat} {s : State} (h : s.ctx.res.toNat < n) : s.consumedIfCovered n = s := by
  rw [State.consumedIfCovered, if_pos h]

theorem consumedIfCovered_covered {n : Nat} {s : State} (h : ¬s.ctx.res.toNat < n) :
    s.consumedIfCovered n = s.charged n := by
  rw [State.consumedIfCovered, if_neg h, State.charged]

/-- Neither a free value nor RES is an operand of a command. -/
theorem regions_consumedIfCovered (i : Instr) (k n : Nat) (s : State) :
    regions i ((s.drawn k).consumedIfCovered n) = regions i s := by
  cases i <;> rfl

theorem regionsAdmitted_consumedIfCovered (i : Instr) (k n : Nat) (s : State) :
    regionsAdmitted i ((s.drawn k).consumedIfCovered n) = regionsAdmitted i s := by
  rw [regionsAdmitted, regions_consumedIfCovered]
  rfl

/-- Byte `k` of a block of sixteen free bytes (R45). -/
theorem byteOf_anyBytes (r : BlockReg) (d : Nat) {k : Nat} (hk : k < 16) :
    byteOf (written r (some (blockOf (anyBytes d 16)))).block k = anyByte (d + k) := by
  rw [written, blockReg_block, byteOf_blockOf _ _ hk, anyBytes, List.getD_eq_getElem?_getD]
  simp [hk]

/-- A byte of a written region that exists is a free byte (R45). -/
theorem read_scrambled {i : Instr} {s : State} (p : Product) (ha : regionsAdmitted i s = true) {r : Region}
    (hr : r ∈ regions i s) (hw : r.written = true) {a : Nat} (hlt : a < 2 ^ 32) (hholds : r.holds a = true) :
    ∃ n, s.draws ≤ n ∧ n < (s.scrambled i p).draws ∧ (s.scrambled i p).mem.read a = anyByte n := by
  obtain ⟨n, hlow, hhigh, hread⟩ := read_freeRegions_inside s.plat (writtenRegions i s) s.mem s.draws a
    ⟨r, List.mem_filter.2 ⟨hr, hw⟩, hholds⟩ (memAdmits_of_region ha hr hholds hlt)
  exact ⟨n, hlow, Nat.lt_add_right 32 hhigh, hread⟩

/-- DOUT after an upset in flight is sixteen free bytes, where the command writes it (R45). -/
theorem scrambled_dout_free {i : Instr} {p : Product} (s : State) (hp : p.dout.isSome = true) :
    ∃ n, s.draws ≤ n ∧ ∀ k, k < 16 → byteOf (s.scrambled i p).dout.block k = anyByte (n + k) := by
  obtain ⟨b, hb⟩ := Option.isSome_iff_exists.1 hp
  refine ⟨_, freeRegions_draws s.plat (writtenRegions i s) s.mem s.draws, fun k hk => ?_⟩
  rw [scrambled_dout, hb]
  exact byteOf_anyBytes s.dout _ hk

theorem scrambled_doutb_free {i : Instr} {p : Product} (s : State) (hp : p.doutb.isSome = true) :
    ∃ n, s.draws ≤ n ∧ ∀ k, k < 16 → byteOf (s.scrambled i p).doutb.block k = anyByte (n + k) := by
  obtain ⟨b, hb⟩ := Option.isSome_iff_exists.1 hp
  have hdraws := freeRegions_draws s.plat (writtenRegions i s) s.mem s.draws
  refine ⟨_, Nat.le_add_right_of_le (k := 16) hdraws, fun k hk => ?_⟩
  rw [scrambled_doutb, hb]
  exact byteOf_anyBytes s.doutb _ hk

theorem productOf_dout_isSome {i : Instr} (s : State) (hi : isKeyed i = true) (hw : writesDout i = true) :
    (productOf i s).dout.isSome = true := by
  cases i with
  | encb | decb | cmackeys => rfl
  | gfmul | gfdbl => exact Bool.noConfusion hi
  | _ => exact Bool.noConfusion hw

/-! ### COMPAT -/

/-- The state with another COMPAT. -/
def State.withCompat (c : Bool) (s : State) : State := { s with ctx := { s.ctx with compat := c } }

/-- The outcome with every next state changed. -/
def mapNext (f : State → State) : Host.Outcome State Fault Refusal → Host.Outcome State Fault Refusal
  | .next s => .next (f s)
  | .fault r => .fault r
  | .refused r => .refused r

/-- Where its run commutes with another COMPAT, so does a command that reaches its buffers: COMPAT is no operand. -/
theorem accessBuffers_withCompat {i : Instr} {run : State → State} {s : State} {c : Bool}
    (hrun : run (s.withCompat c) = (run s).withCompat c) :
    accessBuffers i (s.withCompat c) run = mapNext (State.withCompat c) (accessBuffers i s run) := by
  change (if windowHazard i s then Host.Outcome.fault Fault.dmaToWindow
    else if overlapHazard i s then .fault .overlapHazard
    else .next (if regionsAdmitted i s then run (s.withCompat c) else s.withCompat c)) = _
  unfold accessBuffers unlessStuck
  rw [hrun]
  split
  · rfl
  split
  · rfl
  split <;> rfl

theorem checked_withCompat {i : Instr} {checks : List (Bool × ErrCode)} {run : State → State} {s : State} {c : Bool}
    (hrun : run (s.withCompat c) = (run s).withCompat c) :
    checked i checks run (s.withCompat c) = mapNext (State.withCompat c) (checked i checks run s) := by
  unfold checked
  split
  · change Host.Outcome.next (if regionsAdmitted i s then _ else _) = _
    unfold unlessStuck
    split <;> rfl
  · exact accessBuffers_withCompat hrun

theorem productOf_withCompat (i : Instr) (s : State) (c : Bool) : productOf i (s.withCompat c) = productOf i s := by
  cases i <;> rfl

theorem argChecks_withCompat (i : Instr) (s : State) (c : Bool) : argChecks i (s.withCompat c) = argChecks i s := by
  cases i <;> rfl

theorem invocations_withCompat (i : Instr) (s : State) (c : Bool) :
    invocations i (s.withCompat c) = invocations i s := by
  cases i <;> rfl

theorem keyedPrologue_withCompat (i : Instr) (n : Nat) (s : State) (c : Bool) :
    keyedPrologue n (productOf i) (s.withCompat c) = (keyedPrologue n (productOf i) s).withCompat c := by
  change (if !keyOk s then _ else if s.ctx.res.toNat < n then _ else commit n (productOf i (s.withCompat c)) _) = _
  rw [productOf_withCompat]
  unfold keyedPrologue commit
  split
  · rfl
  split
  · rfl
  split <;> rfl

theorem keyedAfterUpset_withCompat (i : Instr) (n : Nat) (s : State) (c : Bool) :
    keyedAfterUpset i n (productOf i) (s.withCompat c) = (keyedAfterUpset i n (productOf i) s).withCompat c := by
  change (if anyBool s.draws then complete .ok (State.scrambled i (productOf i (s.withCompat c)) _) else _) = _
  rw [productOf_withCompat]
  unfold keyedAfterUpset
  split <;> rfl

/-- COMPAT is an operand of CREATE only (R148). -/
theorem exec_withCompat {i : Instr} (s : State) (c : Bool) (hi : ∀ d a, i ≠ .create d a) :
    exec i (s.withCompat c) = mapNext (State.withCompat c) (exec i s) := by
  cases hkeyed : isKeyed i with
  | true =>
    rw [exec_keyed i _ hkeyed, exec_keyed i _ hkeyed, argChecks_withCompat, invocations_withCompat]
    change (if s.upset then _ else _) = _
    unfold keyedCommand
    split
    · exact accessBuffers_withCompat (keyedAfterUpset_withCompat i _ s c)
    · exact checked_withCompat (keyedPrologue_withCompat i _ s c)
  | false =>
    cases i with
    | create d a => exact absurd rfl (hi d a)
    | setkey => exact checked_withCompat rfl
    | nop | destroy | gfmul | gfdbl => rfl
    | _ => exact Bool.noConfusion hkeyed

end Sys2Proof.Machine

namespace Sys2Proof.Proofs

open Sys2Proof Sys2Proof.Machine

/-- Settles O5: a CORE turn is a step of the CORE alone. -/
theorem stepRunsDecodedCommand : Obligations.StepRunsDecodedCommand := by
  intro s hturn
  rw [step_coreTurn hturn]
  have hseq : s.turnTaken.seq = s.seq := rfl
  have hcur : s.turnTaken.cur = s.cur := rfl
  refine ⟨fun i hbusy hi => ?_, fun hbusy hi => ?_, fun hidle => ?_⟩
  · simp only [coreStep, hseq, hcur, hbusy, hi]
  · simp only [coreStep, hseq, hcur, hbusy, hi]
    rfl
  · simp only [coreStep, hseq, hidle]

/-- Settles O6: idle, the write is an ISSUE. -/
theorem cmdWriteIssues : Obligations.CmdWriteIssues := by
  intro s w
  have hwrite : windowWrite .bits32 0x0C w s = writeReg .cmd w s := windowWrite_whole w s rfl (by decide)
  rw [hwrite]
  refine ⟨fun hs i hi hw => ?_, fun hs i hi hw ho => ?_, fun hs hsafe => ?_, fun hs => ?_⟩
  · simp [writeReg, hs, issue, hi, hw]
  · simp [writeReg, hs, issue, hi, hw, ho]
  · simp only [writeReg, hs, issue]
    split
    · rfl
    · rename_i i hi
      obtain ⟨hw, ho⟩ := hsafe i hi
      simp [hw, ho, issued]
  · simp [writeReg, hs, refuseWrite]

/-- Settles O21: none of them has buffers, so each is one update. -/
theorem controlCommandsComplete : Obligations.ControlCommandsComplete := by
  intro s compat alg
  exact ⟨rfl, rfl, rfl, exec_create_unsupported compat s⟩

/-- Settles O23: the result register holds the block that the field unit gives. -/
theorem fieldCommandsComplete : Obligations.FieldCommandsComplete :=
  fun _ => ⟨⟨_, rfl, blockReg_block _⟩, ⟨_, rfl, blockReg_block _⟩⟩

/-- Settles O22: by the first check that fails; the words of the key are read byte by byte. -/
theorem setkeyLoadsKey : Obligations.SetkeyLoadsKey := by
  intro s
  refine ⟨fun ha hlen => ?_, fun ha hlen hsrc => ?_, fun hlen hsrc hb => ?_⟩
  · exact checked_error ha (by rw [firstError_cons, if_pos (bne_iff_ne.2 hlen)])
  · exact checked_error ha (by simp [hlen, hsrc])
  · exact ⟨_, checked_run (by simp [hlen, hsrc]) hb, fun j b hb => byte_keyWords s.mem s.src.toNat j hb⟩

/-- Settles O28: without buffers or checks the prologue passes, and the product is the result registers. -/
theorem blockCommandsComplete : Obligations.BlockCommandsComplete := by
  intro s hready
  exact ⟨⟨_, exec_keyed_commit rfl rfl (buffersOk_nil rfl) hready, blockReg_block _⟩,
    ⟨_, exec_keyed_commit rfl rfl (buffersOk_nil rfl) hready, blockReg_block _⟩,
    ⟨_, _, exec_keyed_commit rfl rfl (buffersOk_nil rfl) hready, blockReg_block _,
      (blockReg_block _).trans (congrArg dbl (blockReg_block _).symm)⟩⟩

/-- Settles O29: the outcome with another COMPAT is the outcome with that COMPAT put in. -/
theorem compatHasNoEffect : Obligations.CompatHasNoEffect := by
  intro i s t c hi h
  exact (exec_withCompat s c hi).trans (congrArg (mapNext (State.withCompat c)) h)

/-- Settles O31: that the outputs are free is what `State.scrambled` writes. -/
theorem upsetInFlightOutcomes : Obligations.UpsetInFlightOutcomes := by
  intro i s hi hb hu
  have hexec := exec_keyed_upset hi hu hb
  refine ⟨_, hexec, fun hbit => ?_, fun hbit => ?_⟩
  · rw [keyedAfterUpset_error hbit]
    rfl
  have hresult := commandResult_exec hexec
  rw [keyedAfterUpset_ok hbit] at hresult ⊢
  refine ⟨?frame, fun r hr hw a hlt hholds => ?free, fun a => hresult.read_outside, hresult.dout_eq, hresult.doutb_eq,
    fun hw => ?dout, fun hcmackeys => ?doutb⟩
  case frame =>
    by_cases hshort : s.ctx.res.toNat < invocations i s
    · rw [if_pos hshort, consumedIfCovered_short (s := s.drawn 1) hshort]
      rfl
    · rw [if_neg hshort, consumedIfCovered_covered (s := s.drawn 1) hshort]
      rfl
  case free =>
    obtain ⟨n, hlow, hfree⟩ := read_scrambled (s := (s.drawn 1).consumedIfCovered (invocations i s)) (productOf i s)
      ((regionsAdmitted_consumedIfCovered ..).trans hb.2.2) (by rwa [regions_consumedIfCovered]) hw hlt hholds
    exact ⟨n, Nat.le_of_succ_le hlow, hfree⟩
  case dout =>
    obtain ⟨n, hlow, hfree⟩ := scrambled_dout_free (i := i) ((s.drawn 1).consumedIfCovered (invocations i s))
      (productOf_dout_isSome s hi hw)
    exact ⟨n, Nat.le_of_succ_le hlow, hfree⟩
  case doutb =>
    subst hcmackeys
    obtain ⟨n, hlow, hfree⟩ := scrambled_doutb_free (i := .cmackeys) (p := productOf .cmackeys s)
      ((s.drawn 1).consumedIfCovered (invocations .cmackeys s)) rfl
    exact ⟨n, Nat.le_of_succ_le hlow, hfree⟩

/-- Settles O30: with arguments and buffers in order a keyed command is its prologue, which checks integrity first. -/
theorem keyedPrologueErrors : Obligations.KeyedPrologueErrors := by
  intro i s hi hargs hb hu
  rw [exec_keyed_run hi hu ((argChecks_none i s hi).2 hargs) hb]
  refine ⟨fun hkey => ?_, fun hkeyed hic hshort => ?_⟩
  · have hbad : keyOk s = false := by
      rw [keyOk, Bool.and_eq_false_iff, beq_eq_false_iff_ne]
      exact hkey
    simp [keyedPrologue, hbad]
  · have hgood : keyOk s = true := by simp [keyOk, hkeyed, hic]
    simp [keyedPrologue, hgood, hshort]

/-- Settles O57: the step is COMPLETE of the command, whose result is not the stuck CORE. -/
theorem commandsComplete : Obligations.CommandsComplete := by
  intro s i hturn hbusy hi hb
  obtain ⟨t, ht⟩ := exec_next_of_buffersOk (s := s.turnTaken) hb
  refine ⟨t, ((stepRunsDecodedCommand s hturn).1 i hbusy hi).trans ht, ?_⟩
  rcases (commandResult_exec ht).eq_or_ended with ⟨habsent, _⟩ | ⟨code, u, rfl⟩
  · exact Bool.noConfusion (habsent.symm.trans hb.2.2)
  · exact ⟨rfl, rfl⟩

end Sys2Proof.Proofs
end

section
/-!
PROOFS. The regions of a command and its hazards in terms of bytes (20_memory.md sections 1 and 4), and the code that a
command with malformed operands reports (43_modes.md section 1, 44_mgm.md section 1, 45_cmac.md section 2).
-/

namespace Sys2Proof.Machine

open Sys2Proof.Config

/-! ### Regions in terms of bytes -/

theorem Region.holds_iff (r : Region) (a : Nat) : r.holds a = true ↔ r.base ≤ a ∧ a < r.base + r.len := by
  simp [Region.holds]

theorem mem_regions_iff (i : Instr) (s : State) (r : Region) : r ∈ regions i s ↔ 0 < r.len ∧ r ∈ buffers i s := by
  rw [regions, List.mem_filter, bne_iff_ne, Nat.pos_iff_ne_zero, and_comm]

theorem len_pos_of_mem_regions {i : Instr} {s : State} {r : Region} (h : r ∈ regions i s) : 0 < r.len :=
  ((mem_regions_iff i s r).1 h).1

/-- Two regions of nonzero length are not disjoint exactly where they share a byte. -/
theorem Region.disjoint_eq_false_iff {a b : Region} (ha : 0 < a.len) (hb : 0 < b.len) :
    a.disjoint b = false ↔ ∃ x, a.holds x = true ∧ b.holds x = true := by
  simp only [Region.disjoint, Bool.or_eq_false_iff, decide_eq_false_iff_not, Nat.not_le, Region.holds_iff]
  exact ⟨fun ⟨h1, h2⟩ => ⟨max a.base b.base, by omega, by omega⟩, fun ⟨x, h1, h2⟩ => by omega⟩

theorem Region.inPlace_iff (a b : Region) : a.inPlace b = true ↔ a.base = b.base ∧ a.len = b.len
    ∧ ((a.role = .source ∧ b.role = .destination) ∨ (a.role = .destination ∧ b.role = .source)) := by
  simp only [Region.inPlace, Bool.and_eq_true, Bool.or_eq_true, beq_iff_eq]
  tauto

/-- What two regions of nonzero length that may not stand together have in common (R67). -/
theorem Region.compatible_eq_false_iff {a b : Region} (ha : 0 < a.len) (hb : 0 < b.len) :
    a.compatible b = false ↔ (a.written = true ∨ b.written = true) ∧ (∃ x, a.holds x = true ∧ b.holds x = true)
      ∧ ¬(a.base = b.base ∧ a.len = b.len
          ∧ ((a.role = .source ∧ b.role = .destination) ∨ (a.role = .destination ∧ b.role = .source))) := by
  rw [Region.compatible, Bool.or_eq_false_iff, Bool.or_eq_false_iff, Region.disjoint_eq_false_iff ha hb,
    ← Region.inPlace_iff, Bool.not_eq_true, and_assoc]
  cases a.written <;> cases b.written <;> simp

theorem allCompatible_iff (rs : List Region) :
    allCompatible rs = true ↔ rs.Pairwise fun a b => a.compatible b = true := by
  induction rs with
  | nil => simp [allCompatible]
  | cons r rs ih => rw [allCompatible, Bool.and_eq_true, List.all_eq_true, ih, List.pairwise_cons]

/-- An overlap is a pair of regions, the first earlier in the list, that may not stand together. -/
theorem overlapHazard_iff (i : Instr) (s : State) : overlapHazard i s = true ↔
    ∃ (m n : Nat) (a b : Region), m < n ∧ (regions i s)[m]? = some a ∧ (regions i s)[n]? = some b
      ∧ a.compatible b = false := by
  rw [overlapHazard, Bool.not_eq_true', ← Bool.not_eq_true, allCompatible_iff, List.pairwise_iff_getElem]
  constructor
  · intro h
    push Not at h
    obtain ⟨m, n, hm, hn, hmn, hbad⟩ := h
    exact ⟨m, n, _, _, hmn, List.getElem?_eq_getElem hm, List.getElem?_eq_getElem hn, Bool.not_eq_true _ ▸ hbad⟩
  · rintro ⟨m, n, a, b, hmn, hm, hn, hbad⟩ h
    obtain ⟨hmlt, rfl⟩ := List.getElem?_eq_some_iff.1 hm
    obtain ⟨hnlt, rfl⟩ := List.getElem?_eq_some_iff.1 hn
    exact Bool.noConfusion (hbad.symm.trans (h m n hmlt hnlt hmn))

/-- A region of nonzero length hits the window exactly where it holds a byte of it (R60). -/
theorem Region.hitsWindow_iff {r : Region} (p : Platform) (hr : 0 < r.len) :
    r.hitsWindow p = true ↔ ∃ a, r.holds a = true ∧ inWindow p a = true := by
  simp only [Region.hitsWindow, inWindow, Region.holds_iff, Bool.and_eq_true, decide_eq_true_eq]
  exact ⟨fun h => ⟨max r.base (coreBase p), by omega, by omega⟩, fun ⟨a, h1, h2⟩ => by omega⟩

/-- A run of bytes is not admitted exactly where MEM_ADMITS is false of one of those below 2^32 (R69, log entry 6). -/
theorem bytesAdmitted_eq_false_iff (p : Platform) (base n : Nat) : bytesAdmitted p base n = false ↔
    ∃ a, a < 2 ^ 32 ∧ (base ≤ a ∧ a < base + n) ∧ memAdmits p a = false := by
  induction n generalizing base with
  | zero =>
    simp only [bytesAdmitted]
    exact ⟨Bool.noConfusion, fun ⟨a, _, h, _⟩ => by omega⟩
  | succ n ih =>
    rw [bytesAdmitted, Bool.and_eq_false_iff, Bool.or_eq_false_iff, decide_eq_false_iff_not, ih]
    constructor
    · rintro (⟨hlt, hbad⟩ | ⟨a, hlt, hin, hbad⟩)
      · exact ⟨base, by omega, by omega, hbad⟩
      · exact ⟨a, hlt, by omega, hbad⟩
    · rintro ⟨a, hlt, hin, hbad⟩
      by_cases hbase : a = base
      · subst hbase
        exact .inl ⟨by omega, hbad⟩
      · exact .inr ⟨a, hlt, by omega, hbad⟩

theorem regionsAdmitted_eq_false_iff (i : Instr) (s : State) : regionsAdmitted i s = false ↔
    ∃ r ∈ regions i s, ∃ a, a < 2 ^ 32 ∧ r.holds a = true ∧ memAdmits s.plat a = false := by
  simp only [regionsAdmitted, List.all_eq_false, Bool.not_eq_true, bytesAdmitted_eq_false_iff, Region.holds_iff]

theorem windowHazard_iff (i : Instr) (s : State) :
    windowHazard i s = true ↔ ∃ r ∈ regions i s, ∃ a, r.holds a = true ∧ inWindow s.plat a = true := by
  rw [windowHazard, List.any_eq_true]
  exact exists_congr fun r => and_congr_right fun hr => Region.hitsWindow_iff s.plat (len_pos_of_mem_regions hr)

/-- No command names a buffer of one role twice (R61). -/
theorem buffers_roles_nodup (i : Instr) (s : State) : ((buffers i s).map (·.role)).Nodup := by
  cases i <;> simp [buffers]

end Sys2Proof.Machine

namespace Sys2Proof.Proofs

open Sys2Proof Sys2Proof.Machine

/-- Settles O7: regions have nonzero length, so those not disjoint share a byte. -/
theorem overlapMeansSharedByte : Obligations.OverlapMeansSharedByte := by
  intro i s
  rw [overlapHazard_iff]
  refine exists_congr fun m => exists_congr fun n => exists_congr fun a => exists_congr fun b =>
    and_congr_right fun _ => and_congr_right fun ha => and_congr_right fun hb => ?_
  exact Region.compatible_eq_false_iff (len_pos_of_mem_regions (List.mem_of_getElem? ha))
    (len_pos_of_mem_regions (List.mem_of_getElem? hb))

/-- Settles O58: R61's table is compared with `buffers` command by command and role by role. -/
theorem commandRegions : Obligations.CommandRegions := by
  intro i s
  refine ⟨fun r => (mem_regions_iff i s r).trans (and_congr_right fun _ => ?_), ?_, windowHazard_iff i s,
    regionsAdmitted_eq_false_iff i s⟩
  · obtain ⟨role, base, len, written⟩ := r
    cases i <;> cases role <;> simp [buffers] <;> tauto
  · exact (buffers_roles_nodup i s).sublist (List.filter_sublist.map _)

/-- Settles O45: the code is what the checks of the command report first; the spec's last case joins the checks that
report InvalidArgument. -/
theorem modeCheckOrder : Obligations.ModeCheckOrder := by
  intro i s chained whole ctr hi code
  suffices hcode : isKeyed i = true ∧ firstError (argChecks i s) = code by
    obtain ⟨hkeyed, hcode⟩ := hcode
    rw [← hcode]
    exact ⟨fun e he hu ha => exec_keyed_error hkeyed hu ha he, argChecks_none i s hkeyed⟩
  cases i with
  | ecbE | ecbD =>
    obtain ⟨rfl, rfl, rfl⟩ := hi
    simp [code, isKeyed, argChecks, ecbChecks, wholeBlocksCheck, dataChecks, ite_or]
  | cbcE | cbcD =>
    obtain ⟨rfl, rfl, rfl⟩ := hi
    simp [code, isKeyed, argChecks, cbcChecks, multiBlockIvChecks, wholeBlocksCheck, dataChecks, ivBufferCheck, ite_or]
  | cfbE | cfbD | ofb _ =>
    obtain ⟨rfl, rfl, rfl⟩ := hi
    simp [code, isKeyed, argChecks, streamChecks, multiBlockIvChecks, dataChecks, ivBufferCheck, ite_or]
  | ctr _ =>
    obtain ⟨rfl, rfl, rfl⟩ := hi
    simp [code, isKeyed, argChecks, ctrChecks, ctrIvChecks, dataChecks, ivBufferCheck, ite_or]
  | _ => exact hi.elim

/-- Settles O46: as for the modes. -/
theorem macCheckOrder : Obligations.MacCheckOrder := by
  intro s l hu
  refine ⟨?mgm, ?cmac⟩
  case mgm =>
    intro code
    have hcode : firstError (mgmChecks l s) = code := by simp [code, mgmChecks, ite_or]
    rw [← hcode]
    exact fun e he => ⟨fun ha => exec_keyed_error rfl hu ha he, fun ha => exec_keyed_error rfl hu ha he⟩
  case cmac =>
    intro code
    have hcode : firstError (cmacChecks l s) = code := by simp [code, cmacChecks, ite_or]
    rw [← hcode]
    exact fun e he ha => exec_keyed_error rfl hu ha he

end Sys2Proof.Proofs
end

section
/-!
PROOFS. The register window register by register, and HOST accesses: what they leave alone, what they cannot see, and
system memory (10_state.md section 2, 20_memory.md section 6, 70_reset_and_hazards.md section 3).
-/

namespace Sys2Proof.Machine

open Sys2Proof.Config

/-! ### Kinds of registers -/

/-- A register that the HOST gives a command: an operand register, DIN or DINB (R34, R37). -/
def Reg.isOperand : Reg → Bool
  | .src | .dst | .len | .ivaddr | .ivlen | .adaddr | .adlen | .tagaddr | .din _ | .dinb _ => true
  | .id | .ctrl | .status | .cmd | .resource | .icode | .dout _ | .doutb _ => false

/-- A register that no HOST write changes (R22, R35, R36, R38). -/
def Reg.isReadOnly : Reg → Bool
  | .id | .resource | .icode | .dout _ | .doutb _ => true
  | .ctrl | .status | .cmd | .src | .dst | .len | .ivaddr | .ivlen | .adaddr | .adlen | .tagaddr | .din _ | .dinb _ =>
    false

/-- A register that BUSY hides as a whole (R39). -/
def Reg.isHidden : Reg → Bool
  | .resource | .icode | .dout _ | .doutb _ => true
  | .id | .ctrl | .status | .cmd | .src | .dst | .len | .ivaddr | .ivlen | .adaddr | .adlen | .tagaddr | .din _
  | .dinb _ => false

/-- Which offsets hold which kind of register (R21). -/
theorem regAt_operand : ∀ off : BitVec 8, off.toNat % 4 = 0 →
    (0x10 ≤ off.toNat ∧ off.toNat ≤ 0x2C) ∨ (0x40 ≤ off.toNat ∧ off.toNat ≤ 0x5C) →
    (regAt off).any Reg.isOperand = true := by decide +kernel

theorem regAt_refused : ∀ off : BitVec 8, off.toNat % 4 = 0 →
    (0x0C ≤ off.toNat ∧ off.toNat ≤ 0x2C) ∨ (0x40 ≤ off.toNat ∧ off.toNat ≤ 0x5C) →
    (regAt off).any (fun r => r.isOperand || r == .cmd) = true := by decide +kernel

theorem regAt_readOnly : ∀ off : BitVec 8, off.toNat % 4 = 0 →
    off.toNat = 0 ∨ (0x30 ≤ off.toNat ∧ off.toNat ≤ 0x3C) ∨ 0x60 ≤ off.toNat →
    (regAt off).all Reg.isReadOnly = true := by decide +kernel

theorem regAt_reserved : ∀ off : BitVec 8, off.toNat = 0x38 ∨ off.toNat = 0x3C ∨ 0x80 ≤ off.toNat →
    regAt off = none := by decide +kernel

theorem regAt_hidden : ∀ off : BitVec 8, off.toNat % 4 = 0 →
    off.toNat = 0x30 ∨ off.toNat = 0x34 ∨ (0x60 ≤ off.toNat ∧ off.toNat ≤ 0x7C) →
    (regAt off).any Reg.isHidden = true := by decide +kernel

theorem regAt_exact : ∀ off : BitVec 8, off.toNat % 4 = 0 → off.toNat ≠ 0x08 →
    off.toNat < 0x30 ∨ (0x38 ≤ off.toNat ∧ off.toNat < 0x60) ∨ 0x80 ≤ off.toNat →
    (regAt off).all (fun r => !r.isHidden && r != .status) = true := by decide +kernel

/-- Where the four registers of each block stand (R37, R38). -/
theorem regAt_blocks : ∀ k : Fin 4, regAt (BitVec.ofNat 8 (0x40 + 4 * k)) = some (.din k)
    ∧ regAt (BitVec.ofNat 8 (0x50 + 4 * k)) = some (.dinb k) ∧ regAt (BitVec.ofNat 8 (0x60 + 4 * k)) = some (.dout k)
    ∧ regAt (BitVec.ofNat 8 (0x70 + 4 * k)) = some (.doutb k) := by decide +kernel

/-! ### Operand registers -/

/-- The state with an operand register written. -/
def storeOperand (r : Reg) (v : Word) (s : State) : State :=
  match r with
  | .src => { s with src := v }
  | .dst => { s with dst := v }
  | .len => { s with len := v }
  | .ivaddr => { s with ivaddr := v }
  | .ivlen => { s with ivlen := v }
  | .adaddr => { s with adaddr := v }
  | .adlen => { s with adlen := v }
  | .tagaddr => { s with tagaddr := v }
  | .din k => { s with din := s.din.set k v }
  | .dinb k => { s with dinb := s.dinb.set k v }
  | .id | .ctrl | .status | .cmd | .resource | .icode | .dout _ | .doutb _ => s

/-- A write of an operand register while idle stores it (R34, R37). -/
theorem writeReg_operand_idle {r : Reg} (v : Word) {s : State} (hr : r.isOperand = true) (hs : s.seq = .idle) :
    writeReg r v s = .next (storeOperand r v s) := by
  cases r with
  | id | ctrl | status | cmd | resource | icode | dout _ | doutb _ => exact Bool.noConfusion hr
  | _ => simp only [writeReg, writeIdle, hs, storeOperand]

/-- While BUSY it is refused, and so is an ISSUE (R39). -/
theorem writeReg_refused {r : Reg} (v : Word) {s : State} (hr : (r.isOperand || r == .cmd) = true)
    (hs : s.seq = .busy) : writeReg r v s = .next (refuseWrite s) := by
  cases r with
  | id | ctrl | status | resource | icode | dout _ | doutb _ => exact Bool.noConfusion hr
  | _ => simp only [writeReg, writeIdle, hs]

theorem writeReg_readOnly {r : Reg} (v : Word) (s : State) (hr : r.isReadOnly = true) : writeReg r v s = .next s := by
  cases r with
  | id | resource | icode | dout _ | doutb _ => rfl
  | _ => exact Bool.noConfusion hr

@[simp] theorem BlockReg.get_set (r : BlockReg) (k j : Fin 4) (v : Word) :
    (r.set k v).get j = if j = k then v else r.get j := by
  fin_cases k <;> fin_cases j <;> rfl

/-- The block in four registers of which one has been written (R37). -/
theorem byteOf_block_set (r : BlockReg) (k : Fin 4) (v : Word) {b : Nat} (hb : b < 16) :
    byteOf (r.set k v).block b = if b / 4 = k.val then v.extractLsb' (8 * (b % 4)) 8 else byteOf r.block b := by
  have hbyte (q : BlockReg) : byteOf q.block b = (q.get ⟨b / 4, by omega⟩).extractLsb' (8 * (b % 4)) 8 := by
    rw [← byteOf_block q ⟨b / 4, by omega⟩ (b % 4) (Nat.mod_lt _ (by decide))]
    exact congrArg (byteOf q.block) (Nat.div_add_mod b 4).symm
  rw [hbyte, hbyte, BlockReg.get_set]
  simp only [Fin.ext_iff]
  split <;> rfl

/-- A stored operand reads back (R34, R37). -/
theorem regValue_storeOperand_same {r : Reg} (v : Word) (s : State) (hr : r.isOperand = true) :
    regValue r (storeOperand r v s) = v := by
  cases r with
  | din k | dinb k => simp [storeOperand, regValue]
  | src | dst | len | ivaddr | ivlen | adaddr | adlen | tagaddr => rfl
  | _ => exact Bool.noConfusion hr

/-- Storing an operand changes what no other register reads. -/
theorem regValue_storeOperand_ne {r q : Reg} (v : Word) (s : State) (hq : q ≠ r) :
    regValue q (storeOperand r v s) = regValue q s := by
  cases r with
  | din k =>
    cases q with
    | din j =>
      have hj : j ≠ k := fun h => hq (congrArg Reg.din h)
      simp [storeOperand, regValue, hj]
    | _ => rfl
  | dinb k =>
    cases q with
    | dinb j =>
      have hj : j ≠ k := fun h => hq (congrArg Reg.dinb h)
      simp [storeOperand, regValue, hj]
    | _ => rfl
  | _ => cases q <;> first | rfl | exact absurd rfl hq

/-- Storing an operand changes nothing else. -/
theorem storeOperand_frame (r : Reg) (v : Word) (s : State) :
    (storeOperand r v s).cur = s.cur ∧ (storeOperand r v s).ctx = s.ctx ∧ (storeOperand r v s).mem = s.mem
      ∧ (storeOperand r v s).seq = s.seq ∧ (storeOperand r v s).upset = s.upset := by
  cases r <;> exact ⟨rfl, rfl, rfl, rfl, rfl⟩

/-- What a window read gives an idle CORE's HOST, at any offset (R21, R39, R63). -/
theorem windowRead_rdata_of_idle (off : BitVec 8) {s : State} (hs : s.seq = .idle) :
    (windowRead .bits32 off s).rdata
      = if wholeRegister .bits32 off then ((regAt off).map (regValue · s)).getD 0 else 0 := by
  unfold windowRead
  split
  · cases regAt off with
    | none => rfl
    | some r => simp [readReg_idle r hs]
  · rfl

/-! ### Reads while BUSY -/

theorem regValueBusy_hidden {r : Reg} (any : Word) (s : State) (hr : r.isHidden = true) :
    regValueBusy r any s = (any, true) := by
  cases r with
  | resource | icode | dout _ | doutb _ => rfl
  | _ => exact Bool.noConfusion hr

theorem regValueBusy_exact {r : Reg} (any : Word) (s : State) (hr : (!r.isHidden && r != .status) = true) :
    regValueBusy r any s = (regValue r s, false) := by
  cases r with
  | status | resource | icode | dout _ | doutb _ => exact Bool.noConfusion hr
  | _ => rfl

/-- A register that BUSY does not hide does not depend on BUSY (R39). -/
theorem regValue_exact_idle {r : Reg} (s : State) (hr : (!r.isHidden && r != .status) = true) :
    regValue r { s with seq := .idle } = regValue r s := by
  cases r with
  | status | resource | icode | dout _ | doutb _ => exact Bool.noConfusion hr
  | _ => rfl

/-! ### The key words -/

/-- The state with other key words and round keys. -/
def State.withKeys (k : Vector Word 8) (sk : Vector Word 44) (s : State) : State :=
  { s with ctx := { s.ctx with k := k, s := sk } }

theorem regValue_withKeys (r : Reg) (k : Vector Word 8) (sk : Vector Word 44) (s : State) :
    regValue r (s.withKeys k sk) = regValue r s := by
  cases r <;> rfl

theorem readReg_withKeys (r : Reg) (k : Vector Word 8) (sk : Vector Word 44) (s : State) :
    readReg r (s.withKeys k sk) = (readReg r s).withKeys k sk := by
  cases hs : s.seq with
  | idle =>
    rw [readReg_idle r hs, readReg_idle (s := s.withKeys k sk) r hs, regValue_withKeys]
    rfl
  | busy =>
    rw [readReg_busy r hs, readReg_busy (s := s.withKeys k sk) r hs]
    cases r <;> rfl

theorem windowRead_withKeys (size : AccessSize) (off : BitVec 8) (k : Vector Word 8) (sk : Vector Word 44) (s : State) :
    windowRead size off (s.withKeys k sk) = (windowRead size off s).withKeys k sk := by
  unfold windowRead
  split
  · split
    · exact readReg_withKeys ..
    · rfl
  · rfl

theorem issue_withKeys (w : Word) (k : Vector Word 8) (sk : Vector Word 44) (s : State) :
    issue w (s.withKeys k sk) = mapNext (State.withKeys k sk) (issue w s) := by
  unfold issue
  split
  · rfl
  · rename_i i _
    change (if windowHazard i s then _ else if overlapHazard i s then _ else _) = _
    split
    · rfl
    split <;> rfl

theorem writeIdle_withKeys {write : State → State} {k : Vector Word 8} {sk : Vector Word 44} {s : State}
    (hwrite : write (s.withKeys k sk) = (write s).withKeys k sk) :
    writeIdle write (s.withKeys k sk) = (writeIdle write s).withKeys k sk := by
  have hseq : (s.withKeys k sk).seq = s.seq := rfl
  unfold writeIdle
  rw [hseq, hwrite]
  cases s.seq <;> rfl

theorem writeReg_withKeys (r : Reg) (v : Word) (k : Vector Word 8) (sk : Vector Word 44) (s : State) :
    writeReg r v (s.withKeys k sk) = mapNext (State.withKeys k sk) (writeReg r v s) := by
  have hseq : (s.withKeys k sk).seq = s.seq := rfl
  cases r with
  | cmd =>
    simp only [writeReg, hseq]
    cases s.seq with
    | idle => exact issue_withKeys v k sk s
    | busy => rfl
  | id | resource | icode | dout _ | doutb _ | ctrl | status => rfl
  | _ => exact congrArg Host.Outcome.next (writeIdle_withKeys rfl)

/-- What the HOST does and reads does not depend on the key words or the round keys (R36). -/
theorem hostStep_withKeys (access : HostAccess) (k : Vector Word 8) (sk : Vector Word 44) (s : State) :
    hostStep access (s.withKeys k sk) = mapNext (State.withKeys k sk) (hostStep access s) := by
  cases access with
  | windowRead size off => exact congrArg Host.Outcome.next (windowRead_withKeys size off k sk s)
  | windowWrite size off v =>
    simp only [hostStep]
    unfold windowWrite
    split
    · split
      · exact writeReg_withKeys ..
      · rfl
    · rfl
  | memRead a =>
    change (if inWindow s.plat a.toNat then _ else if !memAdmits s.plat a.toNat then _
      else if (regionsInFlight s).any _ then _ else _) = _
    simp only [hostStep, memRead]
    split
    · rfl
    split
    · rfl
    split <;> rfl
  | memWrite a v =>
    change (if inWindow s.plat a.toNat then _ else if !memAdmits s.plat a.toNat then _
      else if (regionsInFlight s).any _ then _ else _) = _
    simp only [hostStep, memWrite]
    split
    · rfl
    split
    · rfl
    split <;> rfl

/-! ### HOST memory accesses -/

/-- A load outside the window of a byte that exists and that no command in flight writes (R73). -/
theorem memRead_exact {a : Word} {t : State} (hw : inWindow t.plat a.toNat = false)
    (hadmits : memAdmits t.plat a.toNat = true)
    (hread : (regionsInFlight t).any (fun r => r.written && r.holds a.toNat) = false) :
    hostStep (.memRead a) t = .next { t with rdata := (t.mem.read a.toNat).setWidth 32 } := by
  simp [hostStep, memRead, hw, hadmits, hread]

end Sys2Proof.Machine

namespace Sys2Proof.Proofs

open Sys2Proof Sys2Proof.Machine

/-- Settles O8: the offset holds an operand register, and the write stores it. -/
theorem operandRegistersReadBack : Obligations.OperandRegistersReadBack := by
  intro s off v hs halign hrange
  obtain ⟨r, hreg, hoperand⟩ := Option.any_eq_true _ _ |>.1 (regAt_operand off halign hrange)
  obtain ⟨hcur, hctx, hmem, hseq, hupset⟩ := storeOperand_frame r v s
  have named {o : BitVec 8} {q : Reg} (ho : regAt o = some q) (h : off = o) :
      storeOperand r v s = storeOperand q v s := by
    subst h
    rw [Option.some.inj (hreg.symm.trans ho)]
  refine ⟨storeOperand r v s, (windowWrite_whole v s halign hreg).trans (writeReg_operand_idle v hoperand hs), ?_,
    fun off' hne => ?_, hcur, hctx, hmem, hseq, hupset, named (q := .src) (by decide), named (q := .dst) (by decide),
    named (q := .len) (by decide), named (q := .ivaddr) (by decide), named (q := .ivlen) (by decide),
    named (q := .adaddr) (by decide), named (q := .adlen) (by decide), named (q := .tagaddr) (by decide),
    fun k hk => ?_⟩
  · rw [windowRead_rdata_idle halign hreg (hseq.trans hs), regValue_storeOperand_same v s hoperand]
  · rw [windowRead_rdata_of_idle off' (hseq.trans hs), windowRead_rdata_of_idle off' hs]
    cases hreg' : regAt off' with
    | none => rfl
    | some q =>
      have hq : q ≠ r := fun h => hne (regAt_inj hreg' (h ▸ hreg))
      rw [Option.map_some, Option.map_some, regValue_storeOperand_ne v s hq]
  · obtain ⟨hdin, hdinb, _⟩ := regAt_blocks ⟨k, hk⟩
    refine ⟨fun h => ?_, fun h => ?_⟩
    · have hoff : off = BitVec.ofNat 8 (0x40 + 4 * k) := by rw [← h, BitVec.ofNat_toNat, BitVec.setWidth_eq]
      rw [named hdin hoff]
      exact ⟨rfl, fun b hb => byteOf_block_set s.din ⟨k, hk⟩ v hb⟩
    · have hoff : off = BitVec.ofNat 8 (0x50 + 4 * k) := by rw [← h, BitVec.ofNat_toNat, BitVec.setWidth_eq]
      rw [named hdinb hoff]
      exact ⟨rfl, fun b hb => byteOf_block_set s.dinb ⟨k, hk⟩ v hb⟩

/-- Settles O9: each range of offsets holds registers of one kind. -/
theorem windowAccessRules : Obligations.WindowAccessRules := by
  refine ⟨fun s off v halign => ⟨fun hs hrange => ?refused, fun hrange => ?readOnly, fun hrange => ?reserved,
    fun hs hrange => ?hidden, fun hs hoff => ?status, fun hs hne hrange => ?exact⟩, fun s hs => ?idle⟩
  case refused =>
    obtain ⟨r, hreg, hr⟩ := Option.any_eq_true _ _ |>.1 (regAt_refused off halign hrange)
    exact (windowWrite_whole v s halign hreg).trans (writeReg_refused v hr hs)
  case readOnly =>
    cases hreg : regAt off with
    | none => exact windowWrite_reserved v s halign hreg
    | some r =>
      have hr := Option.all_eq_true _ _ |>.1 (regAt_readOnly off halign hrange) r hreg
      exact (windowWrite_whole v s halign hreg).trans (writeReg_readOnly v s hr)
  case reserved => rw [windowRead_reserved s .bits32 (regAt_reserved off hrange)]
  case hidden =>
    obtain ⟨r, hreg, hr⟩ := Option.any_eq_true _ _ |>.1 (regAt_hidden off halign hrange)
    rw [windowRead_whole s halign hreg, readReg_busy r hs, regValueBusy_hidden _ s hr]
    rfl
  case status =>
    obtain rfl : off = 0x08 := BitVec.eq_of_toNat_eq hoff
    rw [windowRead_whole (r := .status) s rfl (by decide), readReg_busy _ hs]
    obtain ⟨_, _, hkeyed, _, hcompat, _, _, halg, _⟩ := statusWord_fields s.busy s.done
      ((Config.anyWord s.draws).getLsbD 2) s.werr ((Config.anyWord s.draws).getLsbD 4) s.err.code
      ((Config.anyWord s.draws).extractLsb' 16 4)
    exact ⟨hkeyed, hcompat, halg, rfl⟩
  case exact =>
    cases hreg : regAt off with
    | none => rw [windowRead_reserved s .bits32 hreg, windowRead_reserved _ .bits32 hreg]
    | some r =>
      have hr := Option.all_eq_true _ _ |>.1 (regAt_exact off halign hne hrange) r hreg
      rw [windowRead_whole s halign hreg, readReg_busy r hs, regValueBusy_exact _ s hr,
        windowRead_rdata_idle halign hreg rfl, regValue_exact_idle s hr]
      rfl
  case idle =>
    intro reads
    have named {n : Nat} {r : Reg} (halign : (BitVec.ofNat 8 n).toNat % 4 = 0)
        (hreg : regAt (BitVec.ofNat 8 n) = some r) : reads n = regValue r s := windowRead_rdata_idle halign hreg hs
    refine ⟨named (r := .cmd) rfl (by decide), named (r := .src) rfl (by decide), named (r := .dst) rfl (by decide),
      named (r := .len) rfl (by decide), named (r := .ivaddr) rfl (by decide), named (r := .ivlen) rfl (by decide),
      named (r := .adaddr) rfl (by decide), named (r := .adlen) rfl (by decide), named (r := .tagaddr) rfl (by decide),
      named (r := .resource) rfl (by decide), named (r := .icode) rfl (by decide), fun k b hk hb => ?_⟩
    obtain ⟨hdin, hdinb, hdout, hdoutb⟩ := regAt_blocks ⟨k, hk⟩
    have halign (base : Nat) (hbase : base % 4 = 0) : (BitVec.ofNat 8 (base + 4 * k)).toNat % 4 = 0 := by
      rw [BitVec.toNat_ofNat]
      omega
    rw [named (halign 0x40 rfl) hdin, named (halign 0x50 rfl) hdinb, named (halign 0x60 rfl) hdout,
      named (halign 0x70 rfl) hdoutb]
    exact ⟨(byteOf_block s.din ⟨k, hk⟩ b hb).symm, (byteOf_block s.dinb ⟨k, hk⟩ b hb).symm,
      (byteOf_block s.dout ⟨k, hk⟩ b hb).symm, (byteOf_block s.doutb ⟨k, hk⟩ b hb).symm⟩

/-- Settles O14: by the inversion lemmas of the reads, and of all HOST accesses. -/
theorem hostAccessFrame : Obligations.HostAccessFrame := by
  refine ⟨fun s size off => ⟨_, _, congrArg Host.Outcome.next (windowRead_next size off s)⟩,
    fun s a t => memRead_next, fun access s t h => ?_⟩
  have hresult := hostResult h
  refine ⟨hresult.ctx_eq, ?_, ?_, hresult.err_eq, hresult.plat_eq⟩ <;> cases hresult <;> rfl

/-- Settles O15: the outcome with other keys is the outcome with those keys put in. -/
theorem keyStorageUnreadable : Obligations.KeyStorageUnreadable := by
  intro access s t k sk h
  exact (hostStep_withKeys access k sk s).trans (congrArg (mapNext (State.withKeys k sk)) h)

/-- Settles O16: the cases are those of `memRead` and `memWrite`. -/
theorem hostMemoryAccess : Obligations.HostMemoryAccess := by
  intro s a v
  refine ⟨fun hw => ?window, fun hw hadmits => ?absent, fun hw hadmits =>
    ⟨fun hfree => ?free, fun i r hbusy hi hr hholds => ?race⟩⟩
  case window => simp [hostStep, memWrite, memRead, hw, refuseWrite]
  case absent => simp [hostStep, memWrite, memRead, hw, hadmits]
  case free =>
    have hwrite : (regionsInFlight s).any (fun r => r.holds a.toNat) = false := by simpa using hfree
    have hread : (regionsInFlight s).any (fun r => r.written && r.holds a.toNat) = false := by
      simpa using fun r hr _ => hfree r hr
    refine ⟨{ s with mem := s.mem.write a.toNat v }, _, ?_, memRead_exact (t := { s with mem := _ }) hw hadmits hread,
      ?_, fun b hb => ?_, rfl⟩
    · simp [hostStep, memWrite, hw, hadmits, hwrite]
    · simp [Memory.read_write]
    · simp [Memory.read_write, hb]
  case race =>
    have hflight : regionsInFlight s = regions i s := by simp [regionsInFlight, hbusy, hi]
    refine ⟨?_, fun hread => memRead_exact hw hadmits ?_, fun hwritten => ?_⟩
    · have hany : (regionsInFlight s).any (fun r => r.holds a.toNat) = true :=
        List.any_eq_true.2 ⟨r, hflight ▸ hr, hholds⟩
      simp [hostStep, memWrite, hw, hadmits, hany]
    · rw [hflight]
      simpa using hread
    · have hany : (regionsInFlight s).any (fun r => r.written && r.holds a.toNat) = true :=
        List.any_eq_true.2 ⟨r, hflight ▸ hr, by simp [hwritten, hholds]⟩
      simp only [hostStep, memRead, hw, hadmits, hany]
      exact ⟨_, _, rfl⟩

end Sys2Proof.Proofs
end

section
/-!
PROOFS. RC6-32/20/32: each direction undoes the other round by round, and the published vectors (41_rc6.md sections 2
and 3, 95_test_vectors.md section 2).
-/

namespace Sys2Proof.Machine

/-! ### Rotations -/

theorem rotateRight_rotateLeft {w : Nat} (x : BitVec w) (n : Nat) : (x.rotateLeft n).rotateRight n = x := by
  apply BitVec.eq_of_getLsbD_eq
  intro i hi
  have hn : n % w < w := Nat.mod_lt _ (by omega)
  simp only [BitVec.getLsbD_rotateRight, BitVec.getLsbD_rotateLeft, hi, decide_true, Bool.true_and, Bool.cond_decide]
  by_cases hlow : i < w - n % w
  · simp [hlow, show ¬n % w + i < n % w by omega, show n % w + i < w by omega]
  · simp [hlow, show i - (w - n % w) < n % w by omega, show w - n % w + (i - (w - n % w)) = i by omega]

theorem rotateLeft_rotateRight {w : Nat} (x : BitVec w) (n : Nat) : (x.rotateRight n).rotateLeft n = x := by
  apply BitVec.eq_of_getLsbD_eq
  intro i hi
  have hn : n % w < w := Nat.mod_lt _ (by omega)
  simp only [BitVec.getLsbD_rotateRight, BitVec.getLsbD_rotateLeft, hi, decide_true, Bool.true_and, Bool.cond_decide]
  by_cases hlow : i < n % w
  · simp [hlow, show ¬w - n % w + i < w - n % w by omega, show w - n % w + i < w by omega]
  · simp [hlow, show i - n % w < w - n % w by omega, show n % w + (i - n % w) = i by omega]

@[simp] theorem rotr32_rotl32 (x s : Word) : rotr32 (rotl32 x s) s = x := rotateRight_rotateLeft x _

@[simp] theorem rotl32_rotr32 (x s : Word) : rotl32 (rotr32 x s) s = x := rotateLeft_rotateRight x _

/-! ### Rounds -/

/-- A round of the decryption undoes the same round of the encryption, and the other way round (R145, R146). -/
theorem decryptRound_encryptRound (s : Vector Word 44) (q : Quad) (i : Nat) :
    decryptRound s (encryptRound s q i) i = q := by
  simp [decryptRound, encryptRound]

theorem encryptRound_decryptRound (s : Vector Word 44) (q : Quad) (i : Nat) :
    encryptRound s (decryptRound s q i) i = q := by
  simp [decryptRound, encryptRound]

/-- A fold is undone by the fold of the inverse steps in reverse order. -/
theorem foldl_reverse_foldl {α β : Type} {f g : β → α → β} (hg : ∀ b a, g (f b a) a = b) (l : List α) (b : β) :
    l.reverse.foldl g (l.foldl f b) = b := by
  induction l generalizing b with
  | nil => rfl
  | cons a l ih => rw [List.foldl_cons, List.reverse_cons, List.foldl_append, ih, List.foldl_cons, List.foldl_nil, hg]

/-! ### Blocks -/

theorem Quad.toBlock_ofBlock (b : Block) : (Quad.ofBlock b).toBlock = b := blockReg_block b

/-- Word `i` of the block of four words is the `i`-th of them (R10, R37). -/
theorem wordOf_blk32 (a b c d : Word) : wordOf (blk32 a b c d) 0 = a ∧ wordOf (blk32 a b c d) 1 = b
    ∧ wordOf (blk32 a b c d) 2 = c ∧ wordOf (blk32 a b c d) 3 = d := by
  refine ⟨?_, ?_, ?_, ?_⟩
  all_goals
    apply BitVec.eq_of_getLsbD_eq
    intro j hj
    simp only [wordOf, blk32, BitVec.getLsbD_extractLsb', BitVec.getLsbD_append, hj, decide_true, Bool.true_and]
  · simp [hj]
  · simp [show ¬32 + j < 32 by omega, show 32 + j - 32 = j by omega, hj]
  · simp [show ¬64 + j < 32 by omega, show ¬64 + j - 32 < 32 by omega, show 64 + j - 32 - 32 = j by omega, hj]
  · simp [show ¬96 + j < 32 by omega, show ¬96 + j - 32 < 32 by omega, show ¬96 + j - 32 - 32 < 32 by omega,
      show 96 + j - 32 - 32 - 32 = j by omega]

theorem Quad.ofBlock_toBlock (q : Quad) : Quad.ofBlock q.toBlock = q := by
  obtain ⟨ha, hb, hc, hd⟩ := wordOf_blk32 q.a q.b q.c q.d
  rw [Quad.toBlock, Quad.ofBlock, ha, hb, hc, hd]

/-- RC6 decryption undoes encryption under any round keys (R147). -/
theorem rc6Decrypt_rc6Encrypt (s : Vector Word 44) (b : Block) : rc6Decrypt s (rc6Encrypt s b) = b := by
  rw [rc6Decrypt, rc6Encrypt]
  simp only [Quad.ofBlock_toBlock, BitVec.add_sub_cancel]
  rw [foldl_reverse_foldl (decryptRound_encryptRound s)]
  simp only [BitVec.add_sub_cancel]
  exact Quad.toBlock_ofBlock b

theorem rc6Encrypt_rc6Decrypt (s : Vector Word 44) (b : Block) : rc6Encrypt s (rc6Decrypt s b) = b := by
  rw [rc6Decrypt, rc6Encrypt]
  have hfold := fun q => foldl_reverse_foldl (encryptRound_decryptRound s) rounds.reverse q
  rw [List.reverse_reverse] at hfold
  simp only [Quad.ofBlock_toBlock, BitVec.sub_add_cancel, hfold]
  exact Quad.toBlock_ofBlock b

end Sys2Proof.Machine

namespace Sys2Proof.Proofs

open Sys2Proof Sys2Proof.Machine

/-- Settles O26: it holds under any round keys. -/
theorem rc6RoundTrip : Obligations.Rc6RoundTrip :=
  fun _ p => ⟨rc6Decrypt_rc6Encrypt _ p, rc6Encrypt_rc6Decrypt _ p⟩

/-- Settles O27: the vectors are closed, so the schedule and the cipher run on them. -/
theorem publishedRc6Vectors : Obligations.PublishedRc6Vectors := by
  refine ⟨?_, ?_, ?_, ?_, ?_, ?_, ?_⟩ <;> decide +kernel

end Sys2Proof.Proofs
end

section
/-!
PROOFS. ENV upsets: which words they change, and that the integrity check detects a change of one word; and what a reset
leaves (10_state.md sections 6 and 8, 42_key_context.md section 2, 70_reset_and_hazards.md section 1).
-/

namespace Sys2Proof.Machine

/-! ### Cells of key storage -/

/-- The word in a cell of key storage. -/
def KeyContext.cellWord (c : KeyContext) : KeyCell → Word
  | .key i => c.k[i]
  | .roundKey i => c.s[i]
  | .integrityCode => c.ic

/-- An upset of one cell changes that cell and no other (R45). -/
theorem KeyContext.cellWord_upsetCell (c : KeyContext) (cell other : KeyCell) (v : Word) :
    (c.upsetCell cell v).cellWord other = if cell = other then v else c.cellWord other := by
  cases cell <;> cases other <;>
    simp [KeyContext.upsetCell, KeyContext.cellWord, Vector.getElem_set, Fin.ext_iff]

/-- After an upset a cell holds the last value named for it, or its old word (R45). -/
theorem KeyContext.cellWord_upsetAll (c : KeyContext) (changes : List (KeyCell × Word)) (cell : KeyCell) :
    (c.upsetAll changes).cellWord cell
      = (((changes.filter (·.1 = cell)).map (·.2)).getLast?).getD (c.cellWord cell) := by
  induction changes generalizing c with
  | nil => rfl
  | cons change rest ih =>
    obtain ⟨a, v⟩ := change
    rw [KeyContext.upsetAll, List.foldl_cons, ← KeyContext.upsetAll, ih, KeyContext.cellWord_upsetCell]
    by_cases ha : a = cell
    · simp [ha, List.getLast?_cons]
    · simp [ha]

/-- An upset that stores the word already there changes nothing. -/
theorem KeyContext.upsetCell_cellWord (c : KeyContext) (cell : KeyCell) : c.upsetCell cell (c.cellWord cell) = c := by
  cases cell <;> simp [KeyContext.upsetCell, KeyContext.cellWord]

/-! ### The integrity code -/

theorem rotl32_inj {x y : Word} (s : Word) (h : rotl32 x s = rotl32 y s) : x = y := by
  rw [← rotr32_rotl32 x s, h, rotr32_rotl32]

/-- Each step of the loop of R171 is a bijection of the code so far. -/
theorem integrityLoop_inj {ws : List Word} {j : Nat} {ic ic' : Word}
    (h : integrityLoop j ic ws = integrityLoop j ic' ws) : ic = ic' := by
  induction ws generalizing j ic ic' with
  | nil => exact h
  | cons w ws ih => exact rotl32_inj 7 ((BitVec.xor_left_inj _).1 (ih h))

/-- Each step of the loop of R171 is a bijection of its word, so another word gives another code. -/
theorem integrityLoop_set_inj {ws : List Word} {n : Nat} {v : Word} (hn : n < ws.length) {j : Nat} {ic : Word}
    (h : integrityLoop j ic (ws.set n v) = integrityLoop j ic ws) : v = ws[n] := by
  induction ws generalizing j ic n with
  | nil => exact absurd hn (Nat.not_lt_zero n)
  | cons w ws ih =>
    cases n with
    | zero =>
      have hword : v + BitVec.ofNat 32 j = w + BitVec.ofNat 32 j :=
        (BitVec.xor_right_inj _).1 (integrityLoop_inj (ws := ws) h)
      exact BitVec.add_left_inj _ |>.1 hword
    | succ n => exact ih (Nat.lt_of_succ_lt_succ hn) h

theorem integrityDefault_set_key {k : Vector Word 8} {sk : Vector Word 44} {i : Fin 8} {v : Word}
    (h : integrityDefault (k.set i v) sk = integrityDefault k sk) : v = k[i] := by
  have hi : i.val < (k.toList ++ sk.toList).length := by simp; omega
  have hset : (k.set i v).toList ++ sk.toList = (k.toList ++ sk.toList).set i v := by
    rw [Vector.toList_set, List.set_append_left _ _ (by simp)]
  rw [integrityDefault, hset] at h
  have := integrityLoop_set_inj hi h
  simpa using this

theorem integrityDefault_set_roundKey {k : Vector Word 8} {sk : Vector Word 44} {i : Fin 44} {v : Word}
    (h : integrityDefault k (sk.set i v) = integrityDefault k sk) : v = sk[i] := by
  have hi : 8 + i.val < (k.toList ++ sk.toList).length := by simp; omega
  have hset : k.toList ++ (sk.set i v).toList = (k.toList ++ sk.toList).set (8 + i) v := by
    rw [Vector.toList_set, List.set_append_right _ _ (by simp)]
    simp
  rw [integrityDefault, hset] at h
  have := integrityLoop_set_inj hi h
  simpa using this

/-- Where the check of R172 passes under the default function, IC is the default code (R171). -/
theorem integrityDefault_of_keyOk {s : State} (hfn : s.plat.integrity = .rotateXor) (h : keyOk s = true) :
    integrityDefault s.ctx.k s.ctx.s = s.ctx.ic := by
  rw [keyOk, Bool.and_eq_true, beq_iff_eq, integrityCode, hfn] at h
  exact h.2

end Sys2Proof.Machine

namespace Sys2Proof.Proofs

open Sys2Proof Sys2Proof.Machine

/-- Settles O17: by `cellWord_upsetAll`, cell by cell. -/
theorem upsetChangesOnlyKeyStorage : Obligations.UpsetChangesOnlyKeyStorage := by
  refine fun s changes => ⟨fun hallow => ?_, fun hforbid => upsetStep_forbidden hforbid changes⟩
  obtain ⟨k, sk, ic, hctx⟩ := s.ctx.upsetAll_frame changes
  have hcell := s.ctx.cellWord_upsetAll changes
  rw [hctx] at hcell
  refine ⟨k, sk, ic, ?_, fun j => hcell (.key j), fun j => hcell (.roundKey j), hcell .integrityCode⟩
  rw [upsetStep_allowed hallow, hctx, State.busy_eq_decide]

/-- Settles O18: the code of the changed context would be the stored one, so by `integrityLoop` the new word is the old
one. -/
theorem singleWordTamperDetected : Obligations.SingleWordTamperDetected := by
  intro s cell v hfn hallow hok hchanged
  rw [upsetStep_allowed hallow] at hchanged ⊢
  refine Bool.eq_false_iff.2 fun hstill => hchanged ?_
  have hold := integrityDefault_of_keyOk hfn hok
  have hnew : integrityDefault (s.ctx.upsetCell cell v).k (s.ctx.upsetCell cell v).s = (s.ctx.upsetCell cell v).ic :=
    integrityDefault_of_keyOk (s := { s with ctx := _, upset := _ }) hfn hstill
  suffices hv : v = s.ctx.cellWord cell by
    subst hv
    exact s.ctx.upsetCell_cellWord cell
  cases cell with
  | key i => exact integrityDefault_set_key (hnew.trans hold.symm)
  | roundKey i => exact integrityDefault_set_roundKey (hnew.trans hold.symm)
  | integrityCode => exact hnew.symm.trans hold

/-- Settles O19: outside the written regions in flight no byte is made free. -/
theorem resetGivesResetState : Obligations.ResetGivesResetState := by
  refine fun s => ⟨rfl, fun a ha => ?_⟩
  rw [resetStep_mem]
  refine read_freeRegions _ _ _ _ a fun r hr => ?_
  obtain ⟨hmem, hwritten⟩ := List.mem_filter.1 hr
  exact ha r hmem hwritten

end Sys2Proof.Proofs
end

section
/-!
PROOFS. The field GF(2^128). Every map of blocks that is additive and commutes with doubling commutes with the product;
the laws of the product are uses of that (40_field.md section 1).
-/

namespace Sys2Proof.Machine

/-! ### Doubling -/

/-- Doubling as a shift and a reduction (R122). -/
theorem dbl_eq (v : Block) : dbl v = v <<< 1 ^^^ if v.getLsbD 127 then fieldRed else 0 := by
  unfold dbl
  split <;> simp

theorem shiftLeft_one_eq_ofNat (v : Block) : v <<< 1 = BitVec.ofNat 128 (2 * v.toNat) := by
  apply BitVec.eq_of_toNat_eq
  rw [BitVec.toNat_shiftLeft, BitVec.toNat_ofNat, Nat.shiftLeft_eq, Nat.mul_comm]

/-- A term added or not, as a term that may be 0. -/
theorem xor_ite (p : Bool) (r a : Block) : (if p then r ^^^ a else r) = r ^^^ if p then a else 0 := by
  cases p <;> simp

theorem ite_xor_ite (p q : Bool) (a : Block) :
    (if p ^^ q then a else 0) = (if p then a else 0) ^^^ if q then a else 0 := by
  cases p <;> cases q <;> simp

/-- Doubling is additive. -/
theorem dbl_xor (x y : Block) : dbl (x ^^^ y) = dbl x ^^^ dbl y := by
  rw [dbl_eq, dbl_eq, dbl_eq, BitVec.shiftLeft_xor_distrib, BitVec.getLsbD_xor, ite_xor_ite]
  ac_rfl

/-- Doubling moves a single bit up, as long as it stays in the block. -/
theorem dbl_twoPow {i : Nat} (hi : i < 127) : dbl (BitVec.twoPow 128 i) = BitVec.twoPow 128 (i + 1) := by
  have hbit : (BitVec.twoPow 128 i).getLsbD 127 = false := by
    rw [BitVec.getLsbD_twoPow]
    simp
    omega
  rw [dbl, hbit, if_neg Bool.false_ne_true, BitVec.twoPow_eq, BitVec.twoPow_eq, ← BitVec.shiftLeft_add]

/-! ### The product -/

/-- A map of blocks that is additive and commutes with doubling: multiplication by a constant is one. -/
structure FieldLinear (f : Block → Block) : Prop where
  xor : ∀ x y, f (x ^^^ y) = f x ^^^ f y
  dbl : ∀ x, f (dbl x) = dbl (f x)

theorem FieldLinear.zero {f : Block → Block} (hf : FieldLinear f) : f 0 = 0 := by
  have h := hf.xor 0 0
  rwa [BitVec.xor_self, BitVec.xor_self] at h

theorem fieldLinear_dbl : FieldLinear dbl := ⟨dbl_xor, fun _ => rfl⟩

theorem FieldLinear.gfmulLoop {f : Block → Block} (hf : FieldLinear f) (b : Block) (n i : Nat) (a r : Block) :
    f (gfmulLoop b n i a r) = gfmulLoop b n i (f a) (f r) := by
  induction n generalizing i a r with
  | zero => rfl
  | succ n ih =>
    rw [Machine.gfmulLoop, Machine.gfmulLoop, ih, hf.dbl]
    split
    · rw [hf.xor]
    · rfl

/-- Such a map commutes with every product. -/
theorem FieldLinear.gfmul {f : Block → Block} (hf : FieldLinear f) (a b : Block) : f (gfmul a b) = gfmul (f a) b := by
  rw [Machine.gfmul, hf.gfmulLoop, hf.zero, Machine.gfmul]

theorem gfmulLoop_xor_left (b : Block) (n i : Nat) (a a' r r' : Block) :
    gfmulLoop b n i (a ^^^ a') (r ^^^ r') = gfmulLoop b n i a r ^^^ gfmulLoop b n i a' r' := by
  induction n generalizing i a a' r r' with
  | zero => rfl
  | succ n ih =>
    simp only [gfmulLoop]
    rw [dbl_xor, ← ih]
    congr 1
    split <;> ac_rfl

theorem gfmulLoop_xor_right (b c : Block) (n i : Nat) (a r r' : Block) :
    gfmulLoop (b ^^^ c) n i a (r ^^^ r') = gfmulLoop b n i a r ^^^ gfmulLoop c n i a r' := by
  induction n generalizing i a r r' with
  | zero => rfl
  | succ n ih =>
    simp only [gfmulLoop]
    rw [← ih]
    congr 1
    rw [xor_ite, xor_ite, xor_ite, BitVec.getLsbD_xor, ite_xor_ite]
    ac_rfl

/-- The product is additive in each factor. -/
theorem gfmul_xor_left (a a' b : Block) : gfmul (a ^^^ a') b = gfmul a b ^^^ gfmul a' b := by
  have h := gfmulLoop_xor_left b 128 0 a a' 0 0
  rwa [BitVec.xor_self] at h

theorem gfmul_xor_right (a b c : Block) : gfmul a (b ^^^ c) = gfmul a b ^^^ gfmul a c := by
  have h := gfmulLoop_xor_right b c 128 0 a 0 0
  rwa [BitVec.xor_self] at h

theorem fieldLinear_gfmul_left (b : Block) : FieldLinear (gfmul · b) :=
  ⟨fun a a' => gfmul_xor_left a a' b, fun a => (fieldLinear_dbl.gfmul a b).symm⟩

/-- The bits from `i` on are bit `i` and those above it. -/
theorem highBits_eq (b : Block) (i : Nat) :
    b >>> i <<< i = (if b.getLsbD i then BitVec.twoPow 128 i else 0) ^^^ b >>> (i + 1) <<< (i + 1) := by
  apply BitVec.eq_of_getLsbD_eq
  intro k hk
  rw [BitVec.getLsbD_xor, BitVec.getLsbD_shiftLeft, BitVec.getLsbD_shiftLeft, BitVec.getLsbD_ushiftRight,
    BitVec.getLsbD_ushiftRight]
  obtain hlt | rfl | hgt := Nat.lt_trichotomy k i
  · cases b.getLsbD i <;> simp [BitVec.getLsbD_twoPow, hlt, Nat.lt_succ_of_lt hlt, Nat.ne_of_gt hlt]
  · cases hbit : b[k] <;> simp [hk, hbit]
  · have hi : ¬k < i := by omega
    have hi' : ¬k < i + 1 := by omega
    cases b.getLsbD i <;> simp [hi, hi', hk, Nat.ne_of_gt hgt, Nat.add_sub_cancel' hgt.le,
      Nat.add_sub_cancel' (Nat.succ_le_of_lt hgt)]

/-- From the unit the loop adds up the bits of `b` that it has not yet seen. -/
theorem gfmulLoop_twoPow (b : Block) (n i : Nat) (a r : Block) (hn : i + n = 128)
    (ha : n ≠ 0 → a = BitVec.twoPow 128 i) : gfmulLoop b n i a r = r ^^^ b >>> i <<< i := by
  induction n generalizing i a r with
  | zero => simp [gfmulLoop, show i = 128 by omega]
  | succ n ih =>
    rw [gfmulLoop, ih (i + 1) _ _ (by omega) fun hn0 => by rw [ha (by omega), dbl_twoPow (by omega)], ha (by omega),
      xor_ite, highBits_eq b i, BitVec.xor_assoc]

/-- 1 is the unit (R123). -/
theorem gfmul_one_left (b : Block) : gfmul 1 b = b := by
  rw [gfmul, gfmulLoop_twoPow b 128 0 1 0 rfl fun _ => by decide]
  simp

/-- The product is the linear map that the first factor gives, taken at the second; so the factors commute. -/
theorem gfmul_comm (a b : Block) : gfmul a b = gfmul b a :=
  calc gfmul a b = gfmul (gfmul 1 a) b := by rw [gfmul_one_left]
    _ = gfmul (gfmul 1 b) a := ((fieldLinear_gfmul_left a).gfmul 1 b).symm
    _ = gfmul b a := by rw [gfmul_one_left]

theorem gfmul_one (a : Block) : gfmul a 1 = a := (gfmul_comm a 1).trans (gfmul_one_left a)

theorem gfmul_zero (a : Block) : gfmul a 0 = 0 := (gfmul_comm a 0).trans (fieldLinear_gfmul_left a).zero

theorem fieldLinear_gfmul (a : Block) : FieldLinear (gfmul a) :=
  ⟨gfmul_xor_right a, fun b => by rw [gfmul_comm, gfmul_comm a b, fieldLinear_dbl.gfmul]⟩

/-- The loop as a sum: the factor doubled `i` times for each bit `i` of the other (R123). -/
theorem gfmulLoop_eq_foldl (a b : Block) (n i : Nat) (r : Block) :
    gfmulLoop b n i (dbl^[i] a) r
      = (List.range' i n).foldl (fun r i => if b.getLsbD i = true then r ^^^ dbl^[i] a else r) r := by
  induction n generalizing i r with
  | zero => rfl
  | succ n ih => rw [gfmulLoop, ← Function.iterate_succ_apply' dbl i a, ih, List.range'_succ, List.foldl_cons]

end Sys2Proof.Machine

namespace Sys2Proof.Proofs

open Sys2Proof Sys2Proof.Machine

/-- Settles O24: 2 is 1 doubled, and the product with 1 is the factor. -/
theorem doublingRule : Obligations.DoublingRule := by
  intro v
  refine ⟨by rw [dbl, shiftLeft_one_eq_ofNat]; rfl, ?_⟩
  calc dbl v = dbl (gfmul v 1) := by rw [gfmul_one]
    _ = gfmul v (dbl 1) := ((fieldLinear_gfmul v).dbl 1).symm
    _ = gfmul v 2 := by rw [show dbl 1 = 2 by decide]

/-- Settles O25: the sum is the loop written as a fold, and the laws are those of linear maps. -/
theorem fieldMultiplication : Obligations.FieldMultiplication := by
  intro a b c
  refine ⟨?_, gfmul_comm a b, ((fieldLinear_gfmul a).gfmul b c).symm, gfmul_xor_right a b c, gfmul_one a, gfmul_zero a⟩
  rw [List.range_eq_range']
  exact gfmulLoop_eq_foldl a b 128 0 0

end Sys2Proof.Proofs
end

section
/-!
PROOFS. The chaining modes: their texts block by block and byte by byte, that each undoes its inverse, and that the
commands store them (43_modes.md sections 1 to 7, 44_mgm.md section 1).
-/

namespace Sys2Proof.Machine

/-! ### Pieces of a byte string -/

/-- Piece `i` of a byte string, empty past its end (R100). -/
theorem getD_messageBlocks (bs : Bytes) (i : Nat) : (messageBlocks bs).getD i [] = (bs.drop (16 * i)).take 16 := by
  rw [List.getD_eq_getElem?_getD]
  by_cases hi : i < blocksFor bs.length
  · rw [getElem_messageBlocks bs i hi, Option.getD_some]
  · have hend : bs.length ≤ 16 * i := by
      unfold blocksFor at hi
      omega
    rw [List.getElem?_eq_none (by simpa using hi), List.drop_eq_nil_of_le hend]
    rfl

theorem blockOf_getD_messageBlocks (bs : Bytes) (i : Nat) : blockOf ((messageBlocks bs).getD i []) = blockAt bs i := by
  rw [getD_messageBlocks, blockAt]

/-- Byte `k` of a string is byte `k mod 16` of its piece `k / 16`. -/
theorem getD_getD_messageBlocks (bs : Bytes) (k : Nat) :
    ((messageBlocks bs).getD (k / 16) []).getD (k % 16) 0 = bs.getD k 0 := by
  have hk : 16 * (k / 16) + k % 16 = k := Nat.div_add_mod k 16
  rw [getD_messageBlocks, List.getD_eq_getElem?_getD, List.getElem?_take_of_lt (Nat.mod_lt _ (by decide)),
    List.getElem?_drop, hk, List.getD_eq_getElem?_getD]

/-- Byte `k mod 16` lies inside piece `k / 16`. -/
theorem mod_lt_length_messageBlocks {bs : Bytes} {k : Nat} (hk : k < bs.length) :
    k % 16 < ((messageBlocks bs).getD (k / 16) []).length := by
  rw [getD_messageBlocks, List.length_take, List.length_drop]
  omega

theorem div_lt_blocksFor {bs : Bytes} {k : Nat} (hk : k < bs.length) : k / 16 < (messageBlocks bs).length := by
  rw [length_messageBlocks, blocksFor]
  omega

/-- Strings as long as the pieces of a message, joined, have themselves as pieces. -/
theorem messageBlocks_flatten {ps : List Bytes} {text : Bytes}
    (h : ps.map List.length = (messageBlocks text).map List.length) : messageBlocks ps.flatten = ps := by
  induction ps generalizing text with
  | nil => rfl
  | cons p ps ih =>
    have hpos : 0 < text.length := by
      by_contra hzero
      rw [List.eq_nil_of_length_eq_zero (Nat.eq_zero_of_not_pos hzero)] at h
      exact absurd h (List.cons_ne_nil _ _)
    rw [messageBlocks_cons text hpos, List.map_cons, List.map_cons, List.cons.injEq, List.length_take] at h
    obtain ⟨hp, hps⟩ := h
    rw [List.flatten_cons]
    by_cases hfull : 16 ≤ text.length
    · rw [messageBlocks_append p _ (by omega), ih hps]
    · rw [List.drop_eq_nil_of_le (by omega)] at hps
      have hnil : ps = [] := List.map_eq_nil_iff.1 hps
      rw [hnil, List.flatten_nil, List.append_nil, messageBlocks_cons p (by omega), List.take_of_length_le (by omega),
        List.drop_eq_nil_of_le (by omega), messageBlocks_nil]

/-! ### The chain block by block -/

/-- The output pieces of the loop of R201. -/
def chainPieces (modeStep : Bytes → Block → Bytes × Block) : Nat → List Block → List Bytes → List Bytes
  | _, _, [] => []
  | i, r, b :: bs =>
    let o := modeStep b (r.getD (i % r.length) 0)
    o.1 :: chainPieces modeStep (i + 1) (r.set (i % r.length) o.2) bs

/-- The values of `R[i mod z]` that the loop of R201 uses. -/
def chainInputs (modeStep : Bytes → Block → Bytes × Block) : Nat → List Block → List Bytes → List Block
  | _, _, [] => []
  | i, r, b :: bs =>
    let c := r.getD (i % r.length) 0
    c :: chainInputs modeStep (i + 1) (r.set (i % r.length) (modeStep b c).2) bs

theorem flatten_chainPieces (f : Bytes → Block → Bytes × Block) (i : Nat) (r : List Block) (bs : List Bytes) :
    (chainPieces f i r bs).flatten = chainLoop f i r bs := by
  induction bs generalizing i r with
  | nil => rfl
  | cons b bs ih => rw [chainPieces, List.flatten_cons, ih, chainLoop]

/-- A step whose output is as long as its block gives pieces as long as the blocks. -/
theorem map_length_chainPieces {f : Bytes → Block → Bytes × Block} {bs : List Bytes}
    (hf : ∀ b ∈ bs, ∀ r, (f b r).1.length = b.length) (i : Nat) (r : List Block) :
    (chainPieces f i r bs).map List.length = bs.map List.length := by
  induction bs generalizing i r with
  | nil => rfl
  | cons b bs ih =>
    rw [chainPieces, List.map_cons, List.map_cons, hf b List.mem_cons_self,
      ih fun c hc => hf c (List.mem_cons_of_mem b hc)]

/-- The blocks of the loop's output are its pieces. -/
theorem messageBlocks_chainLoop {f : Bytes → Block → Bytes × Block} {text : Bytes}
    (hf : ∀ b ∈ messageBlocks text, ∀ r, (f b r).1.length = b.length) (i : Nat) (r : List Block) :
    messageBlocks (chainLoop f i r (messageBlocks text)) = chainPieces f i r (messageBlocks text) := by
  rw [← flatten_chainPieces]
  exact messageBlocks_flatten (map_length_chainPieces hf i r)

/-- Output piece `k` is the step's, on block `k` and the register it uses. -/
theorem getD_chainPieces (f : Bytes → Block → Bytes × Block) (i : Nat) (r : List Block) {bs : List Bytes} {k : Nat}
    (hk : k < bs.length) :
    (chainPieces f i r bs).getD k [] = (f (bs.getD k []) ((chainInputs f i r bs).getD k 0)).1 := by
  induction bs generalizing i r k with
  | nil => exact absurd hk (Nat.not_lt_zero k)
  | cons b bs ih =>
    cases k with
    | zero => rfl
    | succ k => exact ih (i + 1) _ (Nat.lt_of_succ_lt_succ hk)

theorem getD_set_self {r : List Block} {j : Nat} {v : Block} (hj : j < r.length) : (r.set j v).getD j 0 = v := by
  rw [List.getD_eq_getElem?_getD, List.getElem?_set_self hj, Option.getD_some]

theorem getD_set_ne {r : List Block} {j k : Nat} {v : Block} (hjk : j ≠ k) : (r.set j v).getD k 0 = r.getD k 0 := by
  rw [List.getD_eq_getElem?_getD, List.getElem?_set_ne hjk, List.getD_eq_getElem?_getD]

/-- A register comes round only after `z` steps. -/
theorem add_mod_ne_of_lt (i : Nat) {n z : Nat} (hpos : 0 < n) (hlt : n < z) : (i + n) % z ≠ i % z := by
  intro h
  have hzero := Nat.sub_mod_eq_zero_of_mod_eq h
  rw [Nat.add_sub_cancel_left, Nat.mod_eq_of_lt hlt] at hzero
  exact hpos.ne' hzero

/-- R201: block `k` uses the register as it was at the start for `k < z`, and after that what the step `z` blocks
earlier left in it. -/
theorem getD_chainInputs (f : Bytes → Block → Bytes × Block) {r : List Block} {z : Nat} (hz : r.length = z)
    (hpos : 0 < z) (i : Nat) {bs : List Bytes} {k : Nat} (hk : k < bs.length) :
    (chainInputs f i r bs).getD k 0 = if k < z then r.getD ((i + k) % z) 0
      else (f (bs.getD (k - z) []) ((chainInputs f i r bs).getD (k - z) 0)).2 := by
  induction bs generalizing i r k with
  | nil => exact absurd hk (Nat.not_lt_zero k)
  | cons b bs ih =>
    cases k with
    | zero =>
      rw [if_pos hpos, Nat.add_zero, ← hz]
      rfl
    | succ k =>
      have hnext := ih (r := r.set (i % r.length) (f b (r.getD (i % r.length) 0)).2) (by rw [List.length_set, hz])
        (i + 1) (Nat.lt_of_succ_lt_succ hk)
      rw [chainInputs, List.getD_cons_succ, hnext, hz, show i + 1 + k = i + (k + 1) by omega]
      obtain hlt | rfl | hgt := Nat.lt_trichotomy (k + 1) z
      · rw [if_pos (Nat.lt_of_succ_lt hlt), if_pos hlt, getD_set_ne (add_mod_ne_of_lt i (Nat.succ_pos k) hlt).symm]
      · rw [if_pos (Nat.lt_succ_self k), if_neg (Nat.lt_irrefl _), Nat.sub_self, Nat.add_mod_right,
          getD_set_self (by rw [hz]; exact Nat.mod_lt i hpos)]
        rfl
      · rw [if_neg (Nat.not_lt.2 (Nat.le_of_lt_succ hgt)), if_neg (Nat.lt_asymm hgt),
          Nat.succ_sub (Nat.le_of_lt_succ hgt)]
        rfl

/-- Steps that undo each other block by block, with the same feedback, undo each other over a message. -/
theorem chainPieces_chainPieces {f g : Bytes → Block → Bytes × Block} {bs : List Bytes}
    (hinv : ∀ b ∈ bs, ∀ r, g (f b r).1 r = (b, (f b r).2)) (i : Nat) (r : List Block) :
    chainPieces g i r (chainPieces f i r bs) = bs := by
  induction bs generalizing i r with
  | nil => rfl
  | cons b bs ih =>
    rw [chainPieces, chainPieces, hinv b List.mem_cons_self, ih fun c hc => hinv c (List.mem_cons_of_mem b hc)]

/-- The loop over a message is undone by the loop of the inverse steps (R222). -/
theorem chainLoop_chainLoop {f g : Bytes → Block → Bytes × Block} {text : Bytes}
    (hf : ∀ b ∈ messageBlocks text, ∀ r, (f b r).1.length = b.length)
    (hinv : ∀ b ∈ messageBlocks text, ∀ r, g (f b r).1 r = (b, (f b r).2)) (i : Nat) (r : List Block) :
    chainLoop g i r (messageBlocks (chainLoop f i r (messageBlocks text))) = text := by
  rw [messageBlocks_chainLoop hf, ← flatten_chainPieces, chainPieces_chainPieces hinv, flatten_messageBlocks]

/-! ### The IV register -/

theorem getD_ivRegister (iv : Bytes) (k : Nat) : (ivRegister iv).getD k 0 = blockAt iv k := by
  rw [← blockOf_getD_messageBlocks]
  exact List.getD_map (messageBlocks iv) [] blockOf

theorem length_ivRegister {iv : Bytes} {z : Nat} (h : iv.length = 16 * z) : (ivRegister iv).length = z := by
  rw [ivRegister, List.length_map, length_messageBlocks, h, blocksFor]
  omega

/-- The value of `R[k mod z]` that block `k` of a text uses. -/
def chainInput (modeStep : Bytes → Block → Bytes × Block) (iv text : Bytes) (k : Nat) : Block :=
  (chainInputs modeStep 0 (ivRegister iv) (messageBlocks text)).getD k 0

/-- R201 for a whole text: the first `z` blocks use the IV's blocks. -/
theorem chainInput_eq (f : Bytes → Block → Bytes × Block) {iv text : Bytes} {z k : Nat} (hiv : iv.length = 16 * z)
    (hz : 0 < z) (hk : k < (messageBlocks text).length) :
    chainInput f iv text k = if k < z then blockAt iv k
      else (f ((messageBlocks text).getD (k - z) []) (chainInput f iv text (k - z))).2 := by
  rw [chainInput, getD_chainInputs f (length_ivRegister hiv) hz 0 hk, getD_ivRegister, Nat.zero_add]
  split
  · rename_i hlt
    rw [Nat.mod_eq_of_lt hlt]
  · rfl

/-- Block `k` of the output, as a byte string. -/
theorem getD_messageBlocks_chainText {f : Bytes → Block → Bytes × Block} {iv text : Bytes} {k : Nat}
    (hf : ∀ b ∈ messageBlocks text, ∀ r, (f b r).1.length = b.length) (hk : k < (messageBlocks text).length) :
    (messageBlocks (chainText f iv text)).getD k []
      = (f ((messageBlocks text).getD k []) (chainInput f iv text k)).1 := by
  rw [chainText, messageBlocks_chainLoop hf, getD_chainPieces f 0 _ hk, chainInput]

/-! ### ECB -/

/-- The blocks of an ECB output (R210, R211). -/
theorem messageBlocks_ecbText (f : Block → Block) {text : Bytes} (hw : text.length % 16 = 0) :
    messageBlocks (ecbText f text) = (messageBlocks text).map fun b => bytesOf (f (blockOf b)) := by
  rw [ecbText, List.flatMap_def]
  refine messageBlocks_flatten (text := text) ?_
  rw [List.map_map]
  exact List.map_congr_left fun b hb => (length_bytesOf _).trans (length_eq_of_mem_messageBlocks hw hb).symm

theorem blockAt_ecbText (f : Block → Block) {text : Bytes} (hw : text.length % 16 = 0) {i : Nat}
    (hi : i < (messageBlocks text).length) : blockAt (ecbText f text) i = f (blockAt text i) := by
  rw [← blockOf_getD_messageBlocks, messageBlocks_ecbText f hw, List.getD_eq_getElem _ _ (by simpa using hi),
    List.getElem_map, blockOf_bytesOf, ← blockOf_getD_messageBlocks text, List.getD_eq_getElem _ _ hi]

/-- ECB with a block function is undone by ECB with its inverse (R222). -/
theorem ecbText_ecbText {f g : Block → Block} (hfg : ∀ b, g (f b) = b) {text : Bytes} (hw : text.length % 16 = 0) :
    ecbText g (ecbText f text) = text := by
  have hblocks : ∀ b ∈ messageBlocks text, bytesOf (g (blockOf (bytesOf (f (blockOf b))))) = b := fun b hb => by
    rw [blockOf_bytesOf, hfg, bytesOf_blockOf b (length_eq_of_mem_messageBlocks hw hb)]
  rw [ecbText, messageBlocks_ecbText f hw, List.flatMap_def, List.map_map,
    List.map_congr_left (f := _ ∘ _) (g := id) hblocks, List.map_id, flatten_messageBlocks]

/-! ### CBC -/

theorem length_cbcEncryptStep (s : Vector Word 44) {text : Bytes} (hw : text.length % 16 = 0) :
    ∀ b ∈ messageBlocks text, ∀ r, (cbcEncryptStep s b r).1.length = b.length := fun _ hb _ =>
  (length_bytesOf _).trans (length_eq_of_mem_messageBlocks hw hb).symm

theorem length_cbcDecryptStep (s : Vector Word 44) {text : Bytes} (hw : text.length % 16 = 0) :
    ∀ b ∈ messageBlocks text, ∀ r, (cbcDecryptStep s b r).1.length = b.length := fun _ hb _ =>
  (length_bytesOf _).trans (length_eq_of_mem_messageBlocks hw hb).symm

/-- A whole block through CBC's two directions (R213, R214). -/
theorem cbcDecryptStep_cbcEncryptStep (s : Vector Word 44) {b : Bytes} (hb : b.length = 16) (r : Block) :
    cbcDecryptStep s (cbcEncryptStep s b r).1 r = (b, (cbcEncryptStep s b r).2) := by
  simp only [cbcDecryptStep, cbcEncryptStep, blockOf_bytesOf, rc6Decrypt_rc6Encrypt]
  rw [BitVec.xor_assoc, BitVec.xor_self, BitVec.xor_zero, bytesOf_blockOf b hb]

/-! ### Stream modes -/

/-- A step whose output is the block under E of the register: CFB, OFB and the counters. -/
def IsStreamStep (s : Vector Word 44) (f : Bytes → Block → Bytes × Block) : Prop :=
  ∀ b r, (f b r).1 = xorBytes b (bytesOf (rc6Encrypt s r))

theorem isStreamStep_cfbEncrypt (s : Vector Word 44) : IsStreamStep s (cfbEncryptStep s) := fun _ _ => rfl

theorem isStreamStep_cfbDecrypt (s : Vector Word 44) : IsStreamStep s (cfbDecryptStep s) := fun _ _ => rfl

theorem isStreamStep_ofb (s : Vector Word 44) : IsStreamStep s (ofbStep s) := fun _ _ => rfl

theorem IsStreamStep.length {s : Vector Word 44} {f : Bytes → Block → Bytes × Block} (hf : IsStreamStep s f)
    (text : Bytes) : ∀ b ∈ messageBlocks text, ∀ r, (f b r).1.length = b.length := fun b hb r => by
  rw [hf, length_xorBytes, length_bytesOf, Nat.min_eq_left (length_le_of_mem_messageBlocks hb)]

/-- A stream step undoes one that feeds back the same (R222). -/
theorem IsStreamStep.inverse {s : Vector Word 44} {f g : Bytes → Block → Bytes × Block} (hf : IsStreamStep s f)
    (hg : IsStreamStep s g) {b : Bytes} (hb : b.length ≤ 16) (r : Block) (hfeed : (g (f b r).1 r).2 = (f b r).2) :
    g (f b r).1 r = (b, (f b r).2) := by
  refine Prod.ext ?_ hfeed
  rw [hg, hf, xorBytes_xorBytes _ _ (by rwa [length_bytesOf])]

/-- Byte `k` of a stream output: the text's byte under byte `k mod 16` of E of the register that block `k / 16` uses. -/
theorem IsStreamStep.getD_chainLoop {s : Vector Word 44} {f : Bytes → Block → Bytes × Block} (hf : IsStreamStep s f)
    (r : List Block) {text : Bytes} {k : Nat} (hk : k < text.length) :
    (chainLoop f 0 r (messageBlocks text)).getD k 0 = text.getD k 0
      ^^^ byteOf (rc6Encrypt s ((chainInputs f 0 r (messageBlocks text)).getD (k / 16) 0)) (k % 16) := by
  have hmod : k % 16 < 16 := Nat.mod_lt k (by decide)
  rw [← getD_getD_messageBlocks, messageBlocks_chainLoop (hf.length text), getD_chainPieces f 0 r (div_lt_blocksFor hk),
    hf, getD_xorBytes _ _ _ (mod_lt_length_messageBlocks hk) (by rwa [length_bytesOf]), getD_getD_messageBlocks,
    getD_bytesOf _ _ hmod]

/-- OFB's keystream block `k` is E applied to the IV block `k mod z` once for each time it has come round (R219). -/
theorem rc6Encrypt_chainInput_ofb (s : Vector Word 44) {iv text : Bytes} {z : Nat} (hiv : iv.length = 16 * z)
    (hz : 0 < z) {k : Nat} (hk : k < (messageBlocks text).length) :
    rc6Encrypt s (chainInput (ofbStep s) iv text k) = (rc6Encrypt s)^[k / z + 1] (blockAt iv (k % z)) := by
  induction k using Nat.strong_induction_on with
  | _ k ih =>
    rw [chainInput_eq _ hiv hz hk]
    split
    · rename_i hlt
      rw [Nat.div_eq_of_lt hlt, Nat.mod_eq_of_lt hlt]
      rfl
    · rename_i hge
      have hle := Nat.le_of_not_lt hge
      have hback := ih (k - z) (Nat.sub_lt (hz.trans_le hle) hz) (by omega)
      rw [Nat.div_eq_sub_div hz hle, Nat.mod_eq_sub_mod hle, Function.iterate_succ_apply', ← hback]
      rfl

/-- One block under a counter, as a step of the loop of R201 with one register. -/
def counterStep (s : Vector Word 44) (next : Block → Block) (b : Bytes) (c : Block) : Bytes × Block :=
  (xorBytes b (bytesOf (rc6Encrypt s c)), next c)

theorem isStreamStep_counter (s : Vector Word 44) (next : Block → Block) : IsStreamStep s (counterStep s next) :=
  fun _ _ => rfl

theorem counterLoop_eq_chainLoop (s : Vector Word 44) (next : Block → Block) (c : Block) (i : Nat) (bs : List Bytes) :
    counterLoop s next c bs = chainLoop (counterStep s next) i [c] bs := by
  induction bs generalizing c i with
  | nil => rfl
  | cons b bs ih =>
    have hi : i % [c].length = 0 := Nat.mod_one i
    rw [counterLoop, chainLoop, hi, ih (next c) (i + 1)]
    rfl

theorem getD_chainInputs_counter (s : Vector Word 44) (next : Block → Block) (c : Block) {bs : List Bytes} {k : Nat}
    (hk : k < bs.length) : (chainInputs (counterStep s next) 0 [c] bs).getD k 0 = next^[k] c := by
  induction k with
  | zero => rw [getD_chainInputs (z := 1) _ rfl Nat.one_pos 0 hk]; rfl
  | succ k ih =>
    rw [getD_chainInputs (z := 1) _ rfl Nat.one_pos 0 hk, if_neg (by omega), Nat.add_sub_cancel,
      ih (Nat.lt_of_succ_lt hk), Function.iterate_succ_apply']
    rfl

/-- Byte `k` of a text under a counter (R221, R245). -/
theorem getD_counterLoop (s : Vector Word 44) (next : Block → Block) (c : Block) {text : Bytes} {k : Nat}
    (hk : k < text.length) : (counterLoop s next c (messageBlocks text)).getD k 0
      = text.getD k 0 ^^^ byteOf (rc6Encrypt s (next^[k / 16] c)) (k % 16) := by
  rw [counterLoop_eq_chainLoop s next c 0, (isStreamStep_counter s next).getD_chainLoop [c] hk,
    getD_chainInputs_counter s next c (div_lt_blocksFor hk)]

/-- A text under a counter twice is the text (R222). -/
theorem counterLoop_counterLoop (s : Vector Word 44) (next : Block → Block) (c : Block) (text : Bytes) :
    counterLoop s next c (messageBlocks (counterLoop s next c (messageBlocks text))) = text := by
  have hstep := isStreamStep_counter s next
  rw [counterLoop_eq_chainLoop s next c 0, counterLoop_eq_chainLoop s next c 0]
  exact chainLoop_chainLoop (hstep.length text)
    (fun b hb r => hstep.inverse hstep (length_le_of_mem_messageBlocks hb) r rfl) 0 [c]

theorem iterate_add_one (n : Nat) (c : Block) : (· + 1)^[n] c = c + BitVec.ofNat 128 n := by
  induction n with
  | zero => simp
  | succ n ih =>
    rw [Function.iterate_succ_apply', ih, BitVec.ofNat_add, ← BitVec.add_assoc]
    rfl

/-- Zero bytes in front move the value of a string up (R10). -/
theorem blockOf_replicate_zero_append (n : Nat) (bs : Bytes) :
    blockOf (List.replicate n 0 ++ bs) = blockOf bs <<< (8 * n) := by
  induction n with
  | zero => simp
  | succ n ih =>
    rw [List.replicate_succ, List.cons_append, blockOf, ih, ← BitVec.shiftLeft_add]
    simp [Nat.mul_succ]

/-- T0 holds the IV in its high half (R220). -/
theorem ctrInitial_eq {iv : Bytes} (h : iv.length = 8) : ctrInitial iv = blockAt iv 0 <<< 64 := by
  rw [ctrInitial, blockOf_replicate_zero_append, blockAt, Nat.mul_zero, List.drop_zero,
    List.take_of_length_le (by omega)]

/-! ### The commands -/

/-- With operands in order and the key ready, a mode command stores its text at DST and takes its N (R203). -/
theorem exec_mode {i : Instr} {s : State} (hb : BuffersOk i s) (hi : isKeyed i = true) (hargs : ArgsOk i s)
    (hready : KeyReady (invocations i s) s) {out : Bytes} (hp : productOf i s = modeProduct out s) :
    ∃ m : Memory, exec i s = .next (({ s.charged (invocations i s) with mem := m } : State).ended .ok)
      ∧ HoldsAt m s.mem s.dst.toNat out := by
  refine ⟨_, (exec_keyed_commit hi ((argChecks_none i s hi).2 hargs) hb hready).trans ?_,
    holdsAt_writeBytes s.mem s.dst.toNat out⟩
  rw [hp]
  rfl

end Sys2Proof.Machine

namespace Sys2Proof.Proofs

open Sys2Proof Sys2Proof.Machine

/-- Settles O33: each is a mode command, with its text. -/
theorem ecbCbcComplete : Obligations.EcbCbcComplete := by
  rintro s hwhole htext hready i out (⟨rfl, rfl⟩ | ⟨rfl, rfl⟩ | ⟨hiv, rfl, rfl⟩ | ⟨hiv, rfl, rfl⟩) hb
  · exact exec_mode hb rfl ⟨hwhole, htext⟩ hready rfl
  · exact exec_mode hb rfl ⟨hwhole, htext⟩ hready rfl
  · exact exec_mode hb rfl ⟨hiv, hwhole, htext⟩ hready rfl
  · exact exec_mode hb rfl ⟨hiv, hwhole, htext⟩ hready rfl

/-- Settles O34: each is a mode command, with its text. -/
theorem streamModesComplete : Obligations.StreamModesComplete := by
  rintro s htext hready i out
    (⟨hiv, rfl, rfl⟩ | ⟨hiv, rfl, rfl⟩ | ⟨hiv, ⟨dir, rfl⟩, rfl⟩ | ⟨hiv, ⟨dir, rfl⟩, rfl⟩) hb
  all_goals exact exec_mode hb rfl ⟨hiv, htext⟩ hready rfl

/-- Settles O35: block `i` of a CBC output is the step on the register that block uses, which `chainInput_eq` gives. -/
theorem ecbCbcBlockEquations : Obligations.EcbCbcBlockEquations := by
  intro s iv text z i hiv hz hw hi
  have hblocks {j : Nat} (hj : j ≤ i) : j < (messageBlocks text).length := by
    rw [length_messageBlocks, blocksFor]
    omega
  have henc {j : Nat} (hj : j ≤ i) := getD_messageBlocks_chainText (iv := iv) (length_cbcEncryptStep s hw) (hblocks hj)
  refine ⟨length_ecbText _ _ hw, length_ecbText _ _ hw, length_cbcEncrypt s iv text hw, length_cbcDecrypt s iv text hw,
    blockAt_ecbText _ hw (hblocks le_rfl), blockAt_ecbText _ hw (hblocks le_rfl), ?encrypt, ?decrypt⟩
  case encrypt =>
    intro out
    have hout {j : Nat} (hj : j ≤ i) :
        blockAt out j = rc6Encrypt s (blockAt text j ^^^ chainInput (cbcEncryptStep s) iv text j) := by
      rw [← blockOf_getD_messageBlocks, henc hj, cbcEncryptStep, blockOf_bytesOf, blockOf_getD_messageBlocks]
    rw [hout le_rfl, chainInput_eq _ hiv hz (hblocks le_rfl), hout (Nat.sub_le i z)]
    simp only [cbcEncryptStep, blockOf_getD_messageBlocks]
  case decrypt =>
    rw [← blockOf_getD_messageBlocks, getD_messageBlocks_chainText (length_cbcDecryptStep s hw) (hblocks le_rfl),
      chainInput_eq _ hiv hz (hblocks le_rfl)]
    simp only [cbcDecryptStep, blockOf_bytesOf, blockOf_getD_messageBlocks]

/-- Settles O36: every byte is under E of the register its block uses; OFB's and the counters' are iterates. -/
theorem streamByteEquations : Obligations.StreamByteEquations := by
  intro p s nu iv text z k hiv hz hk
  have hblock : k / 16 < (messageBlocks text).length := div_lt_blocksFor hk
  have hbyte {f : Bytes → Block → Bytes × Block} (hf : IsStreamStep s f) : (chainText f iv text).getD k 0
      = text.getD k 0 ^^^ byteOf (rc6Encrypt s (chainInput f iv text (k / 16))) (k % 16) :=
    hf.getD_chainLoop (ivRegister iv) hk
  refine ⟨length_cfbEncrypt s iv text, length_cfbDecrypt s iv text, length_ofb s iv text, length_ctrText s iv text,
    length_mgmText p s nu text, ?cfbEncrypt, ?cfbDecrypt, ?ofb, fun iv8 hiv8 => ?ctr, getD_counterLoop s _ _ hk⟩
  case cfbEncrypt =>
    intro out
    have hout : blockAt out (k / 16 - z) = (cfbEncryptStep s ((messageBlocks text).getD (k / 16 - z) [])
        (chainInput (cfbEncryptStep s) iv text (k / 16 - z))).2 := by
      rw [← blockOf_getD_messageBlocks, getD_messageBlocks_chainText ((isStreamStep_cfbEncrypt s).length text)
        ((Nat.sub_le _ z).trans_lt hblock)]
      rfl
    rw [hbyte (isStreamStep_cfbEncrypt s), chainInput_eq _ hiv hz hblock, hout]
  case cfbDecrypt =>
    rw [hbyte (isStreamStep_cfbDecrypt s), chainInput_eq _ hiv hz hblock]
    simp only [cfbDecryptStep, blockOf_getD_messageBlocks]
  case ofb => rw [hbyte (isStreamStep_ofb s), rc6Encrypt_chainInput_ofb s hiv hz hblock]
  case ctr => rw [ctrText, getD_counterLoop s _ _ hk, iterate_add_one, ctrInitial_eq hiv8]

/-- Settles O37: every step is undone by its inverse with the same feedback. -/
theorem modesRoundTrip : Obligations.ModesRoundTrip := by
  intro s iv text z _ _
  have hstream {f g : Bytes → Block → Bytes × Block} (hf : IsStreamStep s f) (hg : IsStreamStep s g)
      (hfeed : ∀ b r, (g (f b r).1 r).2 = (f b r).2) : chainText g iv (chainText f iv text) = text :=
    chainLoop_chainLoop (hf.length text)
      (fun b hb r => hf.inverse hg (length_le_of_mem_messageBlocks hb) r (hfeed b r)) 0 _
  refine ⟨fun hw => ⟨ecbText_ecbText (rc6Decrypt_rc6Encrypt s) hw, ?cbc⟩,
    hstream (isStreamStep_cfbEncrypt s) (isStreamStep_cfbDecrypt s) fun _ _ => rfl,
    hstream (isStreamStep_ofb s) (isStreamStep_ofb s) fun _ _ => rfl, fun iv8 => counterLoop_counterLoop s _ _ text⟩
  case cbc =>
    exact chainLoop_chainLoop (length_cbcEncryptStep s hw)
      (fun b hb r => cbcDecryptStep_cbcEncryptStep s (length_eq_of_mem_messageBlocks hw hb) r) 0 _

end Sys2Proof.Proofs
end

section
/-!
PROOFS. MGM: its counters, the accumulator and the tag, and what the two commands store (44_mgm.md sections 1 and 2).
-/

namespace Sys2Proof.Machine

open Sys2Proof.Config

/-! ### Counters -/

theorem getLsbD_counterTopBit (k : Nat) : counterTopBit.getLsbD k = decide (k = 127) := by
  have hpow : counterTopBit = BitVec.twoPow 128 127 := by decide
  rw [hpow, BitVec.getLsbD_twoPow]
  simp [eq_comm]

/-- The nonce with its top bit made 0 and made 1, from the bits below it (R242). -/
theorem and_not_counterTopBit (nu : Block) : nu &&& ~~~counterTopBit = (nu.setWidth 127).cons false := by
  apply BitVec.eq_of_getLsbD_eq
  intro k hk
  rw [BitVec.getLsbD_cons, BitVec.getLsbD_and, BitVec.getLsbD_not, getLsbD_counterTopBit, BitVec.getLsbD_setWidth]
  by_cases htop : k = 127
  · simp [htop]
  · simp [htop, hk, show k < 127 by omega]

theorem or_counterTopBit (nu : Block) : nu ||| counterTopBit = (nu.setWidth 127).cons true := by
  apply BitVec.eq_of_getLsbD_eq
  intro k hk
  rw [BitVec.getLsbD_cons, BitVec.getLsbD_or, getLsbD_counterTopBit, BitVec.getLsbD_setWidth]
  by_cases htop : k = 127
  · simp [htop]
  · simp [htop, show k < 127 by omega]

theorem toNat_and_not_counterTopBit (nu : Block) : (nu &&& ~~~counterTopBit).toNat = nu.toNat % 2 ^ 127 := by
  rw [and_not_counterTopBit, BitVec.toNat_cons', BitVec.toNat_setWidth]
  simp

theorem toNat_or_counterTopBit (nu : Block) : (nu ||| counterTopBit).toNat = nu.toNat % 2 ^ 127 + 2 ^ 127 := by
  rw [or_counterTopBit, BitVec.toNat_cons', BitVec.toNat_setWidth, Nat.add_comm]
  rfl

/-- The value of two halves (R243). -/
theorem toNat_append_halves (h l : BitVec 64) : (h ++ l).toNat = h.toNat * 2 ^ 64 + l.toNat := by
  rw [BitVec.toNat_append, ← Nat.shiftLeft_add_eq_or_of_lt l.isLt, Nat.shiftLeft_eq]

theorem toNat_incY_halves {p : Platform} (hp : p.mgmIncrement = .halves) (c : Block) :
    (incY p c).toNat = c.toNat / 2 ^ 64 * 2 ^ 64 + (c.toNat + 1) % 2 ^ 64 := by
  have hc := c.isLt
  simp only [incY, hp]
  rw [toNat_append_halves, BitVec.toNat_add, BitVec.extractLsb'_toNat, BitVec.extractLsb'_toNat,
    Nat.shiftRight_eq_div_pow, Nat.shiftRight_zero]
  have hone : (1 : BitVec 64).toNat = 1 := rfl
  omega

theorem toNat_incZ_halves {p : Platform} (hp : p.mgmIncrement = .halves) (c : Block) :
    (incZ p c).toNat = (c.toNat / 2 ^ 64 + 1) % 2 ^ 64 * 2 ^ 64 + c.toNat % 2 ^ 64 := by
  have hc := c.isLt
  simp only [incZ, hp]
  rw [toNat_append_halves, BitVec.toNat_add, BitVec.extractLsb'_toNat, BitVec.extractLsb'_toNat,
    Nat.shiftRight_eq_div_pow, Nat.shiftRight_zero]
  have hone : (1 : BitVec 64).toNat = 1 := rfl
  omega

/-! ### The accumulator -/

/-- The loop of R246 as a sum over the blocks, from any accumulator. -/
theorem mgmFold_eq (p : Platform) (s : Vector Word 44) (acc z : Block) (xs : List Block) :
    mgmFold p s acc z xs
      = ((List.range xs.length).foldl (fun acc j => acc ^^^ gfmul (rc6Encrypt s ((incZ p)^[j] z)) (xs.getD j 0)) acc,
         (incZ p)^[xs.length] z) := by
  induction xs generalizing acc z with
  | nil => rfl
  | cons x xs ih =>
    rw [mgmFold, ih, List.length_cons, List.range_succ_eq_map, List.foldl_cons, List.foldl_map]
    rfl

theorem length_mgmBlocks (ad cipher : Bytes) :
    (mgmBlocks ad cipher).length = (ad.length + 15) / 16 + (cipher.length + 15) / 16 + 1 := by
  simp [mgmBlocks, blocksFor, Nat.add_assoc]

/-- The blocks of A, then those of C, then the length block (R244). -/
theorem getD_mgmBlocks_ad {ad : Bytes} (cipher : Bytes) {j : Nat} (hj : j < (ad.length + 15) / 16) :
    (mgmBlocks ad cipher).getD j 0 = blockAt ad j := by
  rw [mgmBlocks, List.append_assoc, List.getD_append _ _ _ _ (by simpa [blocksFor] using hj)]
  exact getD_ivRegister ad j

theorem getD_mgmBlocks_cipher (ad : Bytes) {cipher : Bytes} {j : Nat} (hj : j < (cipher.length + 15) / 16) :
    (mgmBlocks ad cipher).getD ((ad.length + 15) / 16 + j) 0 = blockAt cipher j := by
  rw [mgmBlocks, List.getD_append _ _ _ _ (by simpa [blocksFor] using hj),
    List.getD_append_right _ _ _ _ (by simp [blocksFor])]
  simp only [List.length_map, length_messageBlocks, blocksFor, Nat.add_sub_cancel_left]
  exact getD_ivRegister cipher j

theorem getD_mgmBlocks_length (ad cipher : Bytes) :
    (mgmBlocks ad cipher).getD ((ad.length + 15) / 16 + (cipher.length + 15) / 16) 0
      = lengthBlock ad.length cipher.length := by
  rw [mgmBlocks, List.getD_append_right _ _ _ _ (by simp [blocksFor])]
  simp [blocksFor]

theorem toNat_lengthBlock {n m : Nat} (hn : n < 2 ^ 32) (hm : m < 2 ^ 32) :
    (lengthBlock n m).toNat = 8 * n * 2 ^ 64 + 8 * m := by
  rw [lengthBlock, BitVec.toNat_ofNat]
  omega

/-- A command whose tag matches, or that compares none, writes its outputs; else it writes none (R251). -/
theorem commit_verified {n : Nat} {p : Product} {s : State} (hp : p.verified = true) :
    commit n p s = ((s.charged n).produced p).ended .ok := by
  rw [commit_eq, if_pos hp]

theorem commit_failed {n : Nat} {p : Product} {s : State} (hp : p.verified = false) :
    commit n p s = (s.charged n).ended .authenticationFailed := by
  rw [commit_eq, hp, if_neg Bool.false_ne_true]

/-- The text transform undoes itself (R248). -/
theorem mgmText_mgmText (p : Platform) (s : Vector Word 44) (nu : Block) (text : Bytes) :
    mgmText p s nu (mgmText p s nu text) = text :=
  counterLoop_counterLoop s _ _ text

end Sys2Proof.Machine

namespace Sys2Proof.Proofs

open Sys2Proof Sys2Proof.Machine

/-- Settles O59: each counter is a concatenation of the bits that stay and those that change. -/
theorem mgmCounters : Obligations.MgmCounters := by
  intro p s nu c
  refine ⟨⟨_, _, toNat_and_not_counterTopBit nu, toNat_or_counterTopBit nu, fun hp => ?_, fun hp => ?_⟩,
    fun hp => ?_, fun hp => ⟨toNat_incY_halves hp c, toNat_incZ_halves hp c⟩⟩
  · simp only [mgmY0, mgmZ0, hp, and_self]
  · simp only [mgmY0, mgmZ0, hp, and_self]
  · simp only [incY, incZ, hp]
    exact ⟨BitVec.toNat_add c 1, BitVec.toNat_add c 1⟩

/-- Settles O41: both counters start from the bits below the top bit. -/
theorem nonceTopBitIgnored : Obligations.NonceTopBitIgnored := by
  intro p s nu nu' ad text h
  have hlow : nu.setWidth 127 = nu'.setWidth 127 := by
    rwa [BitVec.setWidth_eq_extractLsb' (by omega), BitVec.setWidth_eq_extractLsb' (by omega)]
  simp only [mgmText, mgmTag, mgmY0, mgmZ0, and_not_counterTopBit, or_counterTopBit, hlow, and_self]

/-- Settles O42: the loop is a fold over the blocks, and the tag is taken from it. -/
theorem mgmAccumulator : Obligations.MgmAccumulator := by
  refine ⟨fun p s z xs => mgmFold_eq p s 0 z xs, fun ad cipher => ⟨length_mgmBlocks ad cipher,
    fun j => getD_mgmBlocks_ad cipher, fun j => getD_mgmBlocks_cipher ad, fun had hc => ?_, fun p s nu => ?_⟩⟩
  · rw [getD_mgmBlocks_length, toNat_lengthBlock had hc]
  · intro z acc
    have hfold := mgmFold_eq p s 0 (mgmZ0 p s nu) (mgmBlocks ad cipher)
    rw [length_mgmBlocks] at hfold
    refine ⟨fun hp => ?_, fun hp => ?_⟩ <;> rw [mgmTag, hfold] <;> simp only [hp] <;> rfl

/-- Settles O38: the product stores the ciphertext, then the tag. -/
theorem mgmEncryptCompletes : Obligations.MgmEncryptCompletes := by
  intro s l hargs hb hready cipher tag
  exact ⟨_, s.mem.writeBytes s.dst.toNat cipher,
    exec_keyed_commit rfl ((argChecks_none (.mgmE l) s rfl).2 hargs) hb hready,
    holdsAt_writeBytes _ _ _, holdsAt_writeBytes _ _ _⟩

/-- Settles O39: the product is verified exactly where the tags agree. -/
theorem mgmDecryptVerifies : Obligations.MgmDecryptVerifies := by
  intro s l hargs hb hready received tag
  have hexec := exec_keyed_commit rfl ((argChecks_none (.mgmD l) s rfl).2 hargs) hb hready
  have hverified : (productOf (.mgmD l) s).verified = (tag.take l == received) := rfl
  refine ⟨fun htag => ⟨_, hexec.trans ?_, holdsAt_writeBytes _ _ _⟩, fun htag => hexec.trans ?_⟩
  · rw [commit_verified (hverified.trans (beq_iff_eq.2 htag))]
    rfl
  · rw [commit_failed (hverified.trans (beq_eq_false_iff_ne.2 htag))]

end Sys2Proof.Proofs
end

section
/-!
PROOFS. CMAC: the tag of a message by its last block, and that the command stores it (45_cmac.md sections 1 and 2).
-/

namespace Sys2Proof.Machine

/-- Zero bytes at the end do not change the value of a string (R10). -/
theorem blockOf_append_replicate_zero (bs : Bytes) (n : Nat) : blockOf (bs ++ List.replicate n 0) = blockOf bs := by
  induction bs with
  | nil =>
    have h := blockOf_replicate_zero_append n []
    rw [List.append_nil] at h
    rw [List.nil_append, h]
    simp [blockOf]
  | cons b bs ih => rw [List.cons_append, blockOf, ih, blockOf]

/-- The last block with R271's padding written out. -/
theorem cmacLast_eq (s : Vector Word 44) (q : Bytes) :
    cmacLast s q = if q.length = 16 then blockOf q ^^^ dbl (rc6Encrypt s 0)
      else blockOf (q ++ [0x80] ++ List.replicate (15 - q.length) 0) ^^^ dbl (dbl (rc6Encrypt s 0)) := by
  rw [blockOf_append_replicate_zero]
  simp [cmacLast, cmacSubkeys]

/-- A message of at most one block is its own last block. -/
theorem cmacLoop_last (s : Vector Word 44) (st : Block) {q : Bytes} (hq : q.length ≤ 16) :
    cmacLoop s st (messageBlocks q) = rc6Encrypt s (st ^^^ cmacLast s q) := by
  cases q with
  | nil => rfl
  | cons b bs =>
    rw [messageBlocks_cons (b :: bs) (Nat.succ_pos bs.length), List.take_of_length_le hq, List.drop_eq_nil_of_le hq,
      messageBlocks_nil]
    rfl

/-- A whole block in front of a message that is not empty is chained (R271). -/
theorem cmacLoop_cons (s : Vector Word 44) (st : Block) (b : Bytes) {bs : Bytes} (hbs : 0 < bs.length) :
    cmacLoop s st (b :: messageBlocks bs) = cmacLoop s (rc6Encrypt s (st ^^^ blockOf b)) (messageBlocks bs) := by
  rw [messageBlocks_cons bs hbs]
  rfl

theorem blockAt_zero (bs : Bytes) : blockAt bs 0 = blockOf (bs.take 16) := rfl

theorem blockAt_succ (bs : Bytes) (i : Nat) : blockAt bs (i + 1) = blockAt (bs.drop 16) i := by
  rw [blockAt, blockAt, List.drop_drop, Nat.mul_succ, Nat.add_comm]

/-- The chain over `n` whole blocks `p` and a last piece `q`, from any state (R271). -/
theorem cmacLoop_append (s : Vector Word 44) {q : Bytes} (hq : q.length ≤ 16) (n : Nat) (st : Block) {p : Bytes}
    (hp : p.length = 16 * n) (hlast : q = [] → p = []) :
    cmacLoop s st (messageBlocks (p ++ q))
      = rc6Encrypt s ((List.range n).foldl (fun st i => rc6Encrypt s (st ^^^ blockAt p i)) st ^^^ cmacLast s q) := by
  induction n generalizing st p with
  | zero =>
    rw [List.eq_nil_of_length_eq_zero hp, List.nil_append, cmacLoop_last s st hq]
    rfl
  | succ n ih =>
    have hqpos : 0 < q.length := by
      by_contra hzero
      rw [hlast (List.eq_nil_of_length_eq_zero (Nat.eq_zero_of_not_pos hzero))] at hp
      exact absurd hp (by simp)
    have hrest : (p.drop 16).length = 16 * n := by
      rw [List.length_drop]
      omega
    have hsplit : messageBlocks (p ++ q) = p.take 16 :: messageBlocks (p.drop 16 ++ q) := by
      rw [← messageBlocks_append _ _ (by rw [List.length_take]; omega), ← List.append_assoc, List.take_append_drop]
    rw [hsplit, cmacLoop_cons s st _ (by rw [List.length_append]; omega),
      ih _ hrest fun h => absurd h (List.ne_nil_of_length_pos hqpos), List.range_succ_eq_map, List.foldl_cons,
      List.foldl_map]
    simp only [blockAt_zero, blockAt_succ]

end Sys2Proof.Machine

namespace Sys2Proof.Proofs

open Sys2Proof Sys2Proof.Machine

/-- Settles O43: the product stores the tag. -/
theorem cmacCompletes : Obligations.CmacCompletes := by
  intro s l hargs hb hready
  exact ⟨_, exec_keyed_commit rfl ((argChecks_none (.cmac l) s rfl).2 hargs) hb hready, holdsAt_writeBytes _ _ _⟩

/-- Settles O44: by `cmacLoop_append`, from the zero state. -/
theorem cmacEquation : Obligations.CmacEquation := by
  intro s p q hp hq hlast k1 st
  rw [cmacTag, cmacLoop_append s hq (p.length / 16) 0 (by omega) hlast, cmacLast_eq]

end Sys2Proof.Proofs
end

section
/-!
PROOFS. MGM.D in place after MGM.E: which buffers must be apart, what MGM.E leaves in memory for MGM.D to read, and that
MGM.D then verifies and gives the plaintext back (20_memory.md section 4, 44_mgm.md section 3).
-/

namespace Sys2Proof.Machine

/-! ### Memory that holds a string -/

/-- A string stored leaves alone the strings apart from it. -/
theorem HoldsAt.readBytes_apart {m old : Memory} {base : Nat} {bs : Bytes} (h : HoldsAt m old base bs) {a n : Nat}
    (hapart : n = 0 ∨ bs.length = 0 ∨ a + n ≤ base ∨ base + bs.length ≤ a) : m.readBytes a n = old.readBytes a n :=
  Memory.readBytes_congr _ _ a n fun k hk => by rw [h, if_neg (by omega)]

/-- A string stored reads back. -/
theorem HoldsAt.readBytes_same {m old : Memory} {base : Nat} {bs : Bytes} (h : HoldsAt m old base bs) :
    m.readBytes base bs.length = bs := by
  apply List.ext_getElem (Memory.length_readBytes ..)
  intro k hk hk'
  rw [← List.getD_eq_getElem _ 0 hk, ← List.getD_eq_getElem _ 0 hk', Memory.getD_readBytes _ _ _ _ hk', h,
    if_pos (by omega), Nat.add_sub_cancel_left]

/-! ### Buffers that stand apart -/

/-- Two buffers share no byte. -/
def Region.Apart (a b : Region) : Prop := a.len = 0 ∨ b.len = 0 ∨ a.base + a.len ≤ b.base ∨ b.base + b.len ≤ a.base

theorem Region.Apart.symm {a b : Region} (h : a.Apart b) : b.Apart a := by
  unfold Region.Apart at *
  omega

/-- Two buffers, one of them written, that R67 does not allow in place stand together exactly where they are apart. -/
theorem Region.apart_iff {a b : Region} (hw : (!a.written && !b.written) = false) (hp : a.inPlace b = false) :
    a.Apart b ↔ (0 < a.len → 0 < b.len → a.compatible b = true) := by
  rw [Region.compatible, hw, hp, Bool.or_false, Bool.false_or, Region.disjoint, Bool.or_eq_true, decide_eq_true_eq,
    decide_eq_true_eq, Region.Apart]
  omega

/-- There is no overlap where any two buffers of nonzero length may stand together (R67). -/
theorem overlapHazard_eq_false_iff (i : Instr) (s : State) : overlapHazard i s = false ↔
    (buffers i s).Pairwise fun a b => 0 < a.len → 0 < b.len → a.compatible b = true := by
  rw [overlapHazard, Bool.not_eq_false', allCompatible_iff, regions, List.pairwise_filter]
  simp only [bne_iff_ne, Nat.pos_iff_ne_zero]

/-- The buffers of a command can be reached where each of nonzero length is there, and none overlap. -/
theorem buffersOk_iff (i : Instr) (s : State) : BuffersOk i s ↔
    (∀ r ∈ buffers i s, 0 < r.len → r.hitsWindow s.plat = false ∧ bytesAdmitted s.plat r.base r.len = true)
      ∧ overlapHazard i s = false := by
  rw [BuffersOk, windowHazard, regionsAdmitted, List.any_eq_false, List.all_eq_true]
  simp only [mem_regions_iff, Bool.not_eq_true]
  exact ⟨fun ⟨hw, ho, ha⟩ => ⟨fun r hr hlen => ⟨hw r ⟨hlen, hr⟩, ha r ⟨hlen, hr⟩⟩, ho⟩,
    fun ⟨h, ho⟩ => ⟨fun r ⟨hlen, hr⟩ => (h r hr hlen).1, ho, fun r ⟨hlen, hr⟩ => (h r hr hlen).2⟩⟩

/-! ### The buffers of MGM -/

/-- The buffers of MGM, by name (R61). -/
def nonceBuffer (s : State) : Region := ⟨.iv, s.ivaddr.toNat, 16, false⟩

def adBuffer (s : State) : Region := ⟨.associatedData, s.adaddr.toNat, s.adlen.toNat, false⟩

def destinationBuffer (s : State) : Region := ⟨.destination, s.dst.toNat, s.len.toNat, true⟩

def tagBuffer (l : Nat) (s : State) : Region := ⟨.tag, s.tagaddr.toNat, l, true⟩

/-- What MGM.E writes is apart from what it reads, but for SRC, and the tag from the text (R67). -/
theorem apart_of_mgmE {l : Nat} {s : State} (h : overlapHazard (.mgmE l) s = false) :
    (nonceBuffer s).Apart (destinationBuffer s) ∧ (nonceBuffer s).Apart (tagBuffer l s)
      ∧ (adBuffer s).Apart (destinationBuffer s) ∧ (adBuffer s).Apart (tagBuffer l s)
      ∧ (destinationBuffer s).Apart (tagBuffer l s) := by
  rw [overlapHazard_eq_false_iff] at h
  simp only [buffers, List.pairwise_cons, List.forall_mem_cons] at h
  obtain ⟨⟨_, _, hnonceDst, hnonceTag, _⟩, ⟨_, hadDst, hadTag, _⟩, _, ⟨hdstTag, _⟩, _⟩ := h
  exact ⟨(Region.apart_iff rfl rfl).2 hnonceDst, (Region.apart_iff rfl rfl).2 hnonceTag,
    (Region.apart_iff rfl rfl).2 hadDst, (Region.apart_iff rfl rfl).2 hadTag, (Region.apart_iff rfl rfl).2 hdstTag⟩

/-- An MGM.D in place overlaps nothing where its text is apart from its nonce, its associated data and its tag (R67). -/
theorem overlapHazard_mgmD_inPlace {l : Nat} {s : State} (hsrc : s.src = s.dst)
    (hnonce : (nonceBuffer s).Apart (destinationBuffer s)) (had : (adBuffer s).Apart (destinationBuffer s))
    (htag : (destinationBuffer s).Apart (tagBuffer l s)) : overlapHazard (.mgmD l) s = false := by
  have hin : Region.compatible ⟨.source, s.src.toNat, s.len.toNat, false⟩ (destinationBuffer s) = true := by
    simp [Region.compatible, Region.inPlace, destinationBuffer, hsrc]
  have htag' : Region.Apart ⟨.tag, s.tagaddr.toNat, l, false⟩ (destinationBuffer s) := htag.symm
  have hreads {a b : Region} (ha : a.written = false) (hb : b.written = false) : a.compatible b = true := by
    simp [Region.compatible, ha, hb]
  rw [overlapHazard_eq_false_iff]
  simp only [buffers, List.pairwise_cons, List.forall_mem_cons]
  have hnone {p : Region → Prop} : ∀ r ∈ ([] : List Region), p r := fun _ h => absurd h List.not_mem_nil
  exact ⟨⟨fun _ _ => hreads rfl rfl, fun _ _ => hreads rfl rfl, fun _ _ => hreads rfl rfl,
      (Region.apart_iff rfl rfl).1 hnonce, hnone⟩,
    ⟨fun _ _ => hreads rfl rfl, fun _ _ => hreads rfl rfl, (Region.apart_iff rfl rfl).1 had, hnone⟩,
    ⟨fun _ _ => hreads rfl rfl, fun _ _ => hin, hnone⟩, ⟨(Region.apart_iff rfl rfl).1 htag', hnone⟩, hnone, .nil⟩

/-! ### MGM.D in place after MGM.E -/

/-- The state in which MGM.D takes its turn: after an MGM.E that left memory `m`, with SRC set to its DST. -/
def inPlaceAfterMgmE (l : Nat) (m : Memory) (s : State) : State :=
  { ({ s.charged (invocations (.mgmE l) s) with mem := m } : State).ended .ok with src := s.dst }

theorem mgmOk_inPlaceAfterMgmE {l : Nat} {m : Memory} {s : State} (h : MgmOk l s) :
    MgmOk l (inPlaceAfterMgmE l m s) := by
  obtain ⟨htagLen, hivlen, had, htext, hpos, hiv, hadOk, _, hdst, htag⟩ := h
  exact ⟨htagLen, hivlen, had, htext, hpos, hiv, hadOk, hdst, hdst, htag⟩

theorem buffersOk_inPlaceAfterMgmE {l : Nat} {m : Memory} {s : State} (h : BuffersOk (.mgmE l) s) :
    BuffersOk (.mgmD l) (inPlaceAfterMgmE l m s) := by
  rw [buffersOk_iff] at h ⊢
  obtain ⟨hthere, ho⟩ := h
  obtain ⟨hnonce, _, had, _, htag⟩ := apart_of_mgmE ho
  refine ⟨?_, overlapHazard_mgmD_inPlace rfl hnonce had htag⟩
  simp only [buffers, List.forall_mem_cons] at hthere ⊢
  obtain ⟨hnonceThere, hadThere, _, hdstThere, htagThere, _⟩ := hthere
  exact ⟨hnonceThere, hadThere, hdstThere, htagThere, hdstThere, fun _ h => absurd h List.not_mem_nil⟩

theorem keyReady_inPlaceAfterMgmE {l : Nat} {m : Memory} {s : State}
    (h : KeyReady (2 * invocations (.mgmE l) s) s) :
    KeyReady (invocations (.mgmD l) (inPlaceAfterMgmE l m s)) (inPlaceAfterMgmE l m s) := by
  obtain ⟨_, hok, hcovered⟩ := h
  refine ⟨rfl, hok, ?_⟩
  have hleft : (s.ctx.res - BitVec.ofNat 32 (invocations (.mgmE l) s)).toNat + invocations (.mgmE l) s
      = s.ctx.res.toNat := toNat_res_sub (by omega)
  change invocations (.mgmE l) s ≤ (s.ctx.res - BitVec.ofNat 32 (invocations (.mgmE l) s)).toNat
  omega

/-- What MGM.D reads in the memory that MGM.E leaves: the same nonce and associated data, the ciphertext and the tag. -/
theorem mgmD_reads {l : Nat} {s : State} {m m1 : Memory} {cipher tag : Bytes}
    (ho : overlapHazard (.mgmE l) s = false) (hcipher : cipher.length = s.len.toNat) (htag : tag.length = l)
    (hm1 : HoldsAt m1 s.mem s.dst.toNat cipher) (hm : HoldsAt m m1 s.tagaddr.toNat tag) :
    sourceNonce (inPlaceAfterMgmE l m s) = sourceNonce s ∧ sourceAd (inPlaceAfterMgmE l m s) = sourceAd s
      ∧ sourceText (inPlaceAfterMgmE l m s) = cipher ∧ m.readBytes s.tagaddr.toNat l = tag := by
  obtain ⟨hnonceDst, hnonceTag, hadDst, hadTag, hdstTag⟩ := apart_of_mgmE ho
  subst htag
  rw [Region.Apart, destinationBuffer, ← hcipher] at hnonceDst hadDst
  have hkept {a n : Nat} (hd : n = 0 ∨ cipher.length = 0 ∨ a + n ≤ s.dst.toNat ∨ s.dst.toNat + cipher.length ≤ a)
      (ht : n = 0 ∨ tag.length = 0 ∨ a + n ≤ s.tagaddr.toNat ∨ s.tagaddr.toNat + tag.length ≤ a) :
      m.readBytes a n = s.mem.readBytes a n := (hm.readBytes_apart ht).trans (hm1.readBytes_apart hd)
  have htext : m1.readBytes s.dst.toNat s.len.toNat = cipher := by
    rw [← hcipher]
    exact hm1.readBytes_same
  exact ⟨congrArg blockOf (hkept hnonceDst hnonceTag), hkept hadDst hadTag, (hm.readBytes_apart hdstTag).trans htext,
    hm.readBytes_same⟩

end Sys2Proof.Machine

namespace Sys2Proof.Proofs

open Sys2Proof Sys2Proof.Machine

/-- Settles O40: by O38 MGM.E leaves ciphertext and tag, which MGM.D reads; so its tag matches, and by O39 it stores the
text transformed twice. -/
theorem mgmDecryptUndoesEncrypt : Obligations.MgmDecryptUndoesEncrypt := by
  intro s l hargs hb hready
  obtain ⟨hupset, hok, hcovered⟩ := id hready
  obtain ⟨⟨_, htagLe⟩, _⟩ := id hargs
  obtain ⟨m, m1, hencrypt, hm1, hm⟩ := mgmEncryptCompletes s l hargs hb ⟨hupset, hok, by omega⟩
  have hlen : (sourceText s).length = s.len.toNat := Memory.length_readBytes ..
  have htagLen (b : Block) : ((bytesOf b).take l).length = l := by
    rw [List.length_take, length_bytesOf, Nat.min_eq_left htagLe]
  obtain ⟨hnonce, had, htext, hreceived⟩ :=
    mgmD_reads hb.2.1 ((length_mgmText ..).trans hlen) (htagLen _) hm1 hm
  obtain ⟨hverified, _⟩ := mgmDecryptVerifies (inPlaceAfterMgmE l m s) l (mgmOk_inPlaceAfterMgmE hargs)
    (buffersOk_inPlaceAfterMgmE hb) (keyReady_inPlaceAfterMgmE hready)
  rw [hnonce, had, htext] at hverified
  obtain ⟨m2, hdecrypt, hm2⟩ := hverified hreceived.symm
  have hplain := (hm2.readBytes_same).trans (mgmText_mgmText ..)
  rw [length_mgmText, length_mgmText, hlen] at hplain
  exact ⟨_, _, hencrypt, hdecrypt, rfl, hplain⟩

end Sys2Proof.Proofs
end
